-- ==== Sys2Proof/Word.lean ====
section
/-! DEFINITION. The word types of the driver and the fields of a command word (30_encoding.md R60, R66). -/

namespace Sys2Proof

/-- An 8-bit value: DB7..DB0, an I2C expander byte, a character code (00_scope.md section 4). -/
abbrev Byte := BitVec 8

/-- Half a byte, one transfer of a 4-bit bus (30_encoding.md R66). -/
abbrev Nibble := BitVec 4

/-- A 10-bit command word `RS RW DB7..DB0`, RS at bit 9 (30_encoding.md R60). -/
abbrev Cmd := BitVec 10

/-- A 7-bit I2C device address (20_memory.md R40). -/
abbrev Addr7 := BitVec 7

/-- RS, bit 9: 1 selects the data register (R60). -/
abbrev Cmd.rs (c : Cmd) : Bool := c.getLsbD 9

/-- RW, bit 8: 1 is a read (R60). -/
abbrev Cmd.rw (c : Cmd) : Bool := c.getLsbD 8

/-- DB7..DB0, bits 7..0 (R60). -/
abbrev Cmd.db (c : Cmd) : Byte := c.extractLsb' 0 8

/-- DB7..DB4, the nibble sent first (R66). -/
abbrev Cmd.hi (c : Cmd) : Nibble := c.extractLsb' 4 4

/-- DB3..DB0, the nibble sent second (R66). -/
abbrev Cmd.lo (c : Cmd) : Nibble := c.extractLsb' 0 4

end Sys2Proof
end

