-- ==== Sys2Proof/Machine/CharMap.lean ====
section
/-! DEFINITION. The character map, the driver's one keyed store (10_state.md R16): a list of (Unicode scalar value, code)
cells in one canonical form, keys strictly rising. A key that is not listed is absent. -/

namespace Sys2Proof

/-- The character map: cells (character, LCD code), keys strictly rising. -/
abbrev CharMap := List Host.Cell

/-- The canonical form: keys strictly rising, so that equal maps are equal lists ("keys unique, insertion order
irrelevant", R16). -/
def CharMap.wf : CharMap → Bool
  | [] => true
  | [_] => true
  | a :: b :: rest => a.1 < b.1 && CharMap.wf (b :: rest)

/-- `MapGet(ch)`: the code of `ch`, none where the map has no entry (00_scope.md section 4). -/
def CharMap.get : CharMap → Nat → Option Byte
  | [], _ => none
  | (k, v) :: rest, ch => if k = ch then some v else CharMap.get rest ch

/-- `MapPut(ch, code)`: adds the entry or replaces the one for `ch` (44_text.md R151). -/
def CharMap.put : CharMap → Nat → Byte → CharMap
  | [], ch, code => [(ch, code)]
  | (k, v) :: rest, ch, code =>
    if ch < k then (ch, code) :: (k, v) :: rest
    else if ch = k then (ch, code) :: rest
    else (k, v) :: CharMap.put rest ch code

/-- `MapDel(ch)`: the map without an entry for `ch` (44_text.md R152). -/
def CharMap.del : CharMap → Nat → CharMap
  | [], _ => []
  | (k, v) :: rest, ch => if k = ch then rest else (k, v) :: CharMap.del rest ch

end Sys2Proof
end

