-- ==== Sys2Proof/Config.lean ====
section
/-! DEFINITION. The configuration record of 00_scope.md section 3, fixed at construction (R5), and the free values that
stand for environment draws no queue of the state supplies (10_state.md R33). -/

namespace Sys2Proof

/-- The transport variant, chosen at construction and never swapped (00_scope.md R1, 41_transport.md R100). -/
inductive Variant where
  | parallel4
  | parallel8
  | i2cMux4
deriving DecidableEq, Repr

/-- An output line of a parallel transport; `data i` is D`i` (41_transport.md R101). -/
inductive Line where
  | rs
  | rw
  | e
  | bl
  | data (i : Fin 8)
deriving DecidableEq, Repr

/-- Which bit of the expander byte carries each signal (`I2C_MAP`, 30_encoding.md R67, decision D17). -/
structure I2CMap where
  rs : Nat := 0
  rw : Nat := 1
  e  : Nat := 2
  bl : Nat := 3
  d4 : Nat := 4
  d5 : Nat := 5
  d6 : Nat := 6
  d7 : Nat := 7
deriving DecidableEq, Repr

/-- The parameters of 00_scope.md section 3 with the defaults the table gives. `pins` are the constructor's pin
assignments of a parallel transport (70_reset_and_hazards.md R190). A claim over all states is over all of these. -/
structure Config where
  /-- `VARIANT` -/
  variant : Variant
  /-- `RW_WIRED`: a read/write select line is connected (parallel only). -/
  rwWired : Bool
  /-- `BL_WIRED`: a backlight control line is connected (parallel only). -/
  blWired : Bool
  /-- `I2C_ADDR_CFG`: the configured I2C address, or none. -/
  i2cAddrCfg : Option Nat
  /-- The pin number of each connected parallel line. -/
  pins : List (Line × Nat)
  /-- `I2C_CAN_READ` (decision D21) -/
  i2cCanRead : Bool := true
  /-- `I2C_MAP` (decision D17) -/
  i2cMap : I2CMap := { }
  /-- `BL_ACTIVE_LEVEL` (decision D22) -/
  blActiveLevel : Bool := true
  /-- `T_POWER_MS` -/
  tPowerMs : Nat := 150
  /-- `T_INIT1_MS` -/
  tInit1Ms : Nat := 5
  /-- `T_INIT2_MS` -/
  tInit2Ms : Nat := 1
  /-- `T_INIT3_MS` -/
  tInit3Ms : Nat := 1
  /-- `T_AS_US` (decision D10) -/
  tAsUs : Nat := 1
  /-- `T_PW_US` (decision D10) -/
  tPwUs : Nat := 1
  /-- `T_CYC_US` (decision D10) -/
  tCycUs : Nat := 1
  /-- `T_LONG_US` (decision D11) -/
  tLongUs : Nat := 3000
  /-- `T_SHORT_US` (decision D11) -/
  tShortUs : Nat := 100
  /-- `FONT_F` (decision D5) -/
  fontF : Bool := false
  /-- `SCROLL_RL_INVERTED` (decision D30) -/
  scrollRlInverted : Bool := true
  /-- `UNMAP_ABSENT_ERROR` (decision D29) -/
  unmapAbsentError : Bool := false
  /-- `PLATFORM_FAULTS` (decision D25) -/
  platformFaults : Bool := true
deriving DecidableEq, Repr

/-- The configuration of `State.reset`: the write-only Parallel-8 bus without a backlight line that 40_commands.md
takes for its examples, every other parameter at its default. DESIGN CHOICE (log 1, log 2): unsafe for a claim about
`State.reset` alone; a claim over all states has `cfg` free. -/
def Config.atReset : Config where
  variant := .parallel8
  rwWired := false
  blWired := false
  i2cAddrCfg := none
  pins := [(.rs, 0), (.e, 1), (.data 7, 2), (.data 6, 3), (.data 5, 4), (.data 4, 5), (.data 3, 6), (.data 2, 7),
    (.data 1, 8), (.data 0, 9)]

/-- FREE VALUE: the bit the `n`-th unsupplied `Sample` draw returns (10_state.md R33, log 6). -/
opaque Config.freeSample : Nat → Bool

/-- FREE VALUE: the byte the `n`-th unsupplied `I2CRead` draw returns (10_state.md R33, log 6). -/
opaque Config.freeByte : Nat → Byte

/-- FREE VALUE: the list the `n`-th unsupplied `I2CScan` draw reports (10_state.md R33, log 6). -/
opaque Config.freeScan : Nat → List Addr7

/-- FREE VALUE: the `n`-th unsupplied `Ticks` draw advances the counter by one more than this (10_state.md R32, log 8). -/
opaque Config.freeTick : Nat → Nat

end Sys2Proof
end

