-- ==== Sys2Proof/Syntax.lean ====
section
/-! DEFINITION. The instructions: one constructor per row of spec/opcode_table.json (12 command words, 25 public
operations, 11 transport functions). -/

namespace Sys2Proof

/-- The four cursor types of `set_cursor_type` (45_flags.md R167). -/
inductive CursorType where
  | none
  | underscore
  | blinkingBlock
  | both
deriving DecidableEq, Repr

/-- What a caller may pass to `set_cursor_type`: one of the four types, or a value that is none of them and so raises E1
`InvalidCursorType` (45_flags.md R167; the spec gives such values no names, log 18). -/
inductive CursorArg where
  | known (t : CursorType)
  | other (tag : Nat)
deriving DecidableEq, Repr

/-- The instructions. A command word carries its don't-care bits `x`, because a write sends them as given (30_encoding.md
R69, log 5). Operands of public operations are naturals unless the spec says integer; a character is its Unicode
scalar value (44_text.md, decision D40). -/
inductive Instr where
  -- command words (40_commands.md)
  /-- CLEAR, R80 -/
  | clear
  /-- HOME, R81 -/
  | home (x : Bool)
  /-- ENTRY, R82: I/D, S -/
  | entry (id sh : Bool)
  /-- DISPCTL, R83: D, C, B -/
  | dispctl (d c b : Bool)
  /-- SHIFT, R84: S/C, R/L, don't-care bits 1:0 -/
  | shift (sc rl : Bool) (x : BitVec 2)
  /-- FUNCSET, R85: DL, N, F, don't-care bits 1:0 -/
  | funcset (dl n f : Bool) (x : BitVec 2)
  /-- SETCG, R86: CGRAM address -/
  | setcg (a : BitVec 6)
  /-- SETDD, R87: DDRAM address -/
  | setdd (a : BitVec 7)
  /-- RDBF, R88: don't-care bits 7:0 -/
  | rdbf (x : Byte)
  /-- WRDATA, R89: data -/
  | wrdata (v : Byte)
  /-- RDDATA, R90: don't-care bits 7:0 -/
  | rddata (x : Byte)
  /-- NONE, the word 0x000, R69 -/
  | noneWord
  -- public operations (30_encoding.md R73)
  /-- set_cursor_position, R140 -/
  | setCursorPosition (col line : Nat)
  /-- get_cursor_position, R141 -/
  | getCursorPosition
  /-- move_cursor_left, R142 -/
  | moveCursorLeft
  /-- move_cursor_right, R143 -/
  | moveCursorRight
  /-- scroll_display_left, R144 -/
  | scrollDisplayLeft
  /-- scroll_display_right, R145 -/
  | scrollDisplayRight
  /-- create_character, R150 -/
  | createCharacter (code : Nat) (rows : List Nat)
  /-- map_character, R151 -/
  | mapCharacter (ch : Nat) (code : Int)
  /-- unmap_character, R152 -/
  | unmapCharacter (ch : Nat)
  /-- write_text, R154 -/
  | writeText (col line : Nat) (text : List Nat)
  /-- write_code, R155 -/
  | writeCode (col line : Nat) (code : Int)
  /-- write_codes, R156 -/
  | writeCodes (col line : Nat) (codes : List Int)
  /-- read_code, R157 -/
  | readCode (col line : Nat)
  /-- set_display_on, R161 -/
  | setDisplayOn
  /-- set_display_off, R162 -/
  | setDisplayOff
  /-- set_autoscroll_on, R163 -/
  | setAutoscrollOn
  /-- set_autoscroll_off, R164 -/
  | setAutoscrollOff
  /-- set_left_to_right, R165 -/
  | setLeftToRight
  /-- set_right_to_left, R166 -/
  | setRightToLeft
  /-- set_cursor_type, R167 -/
  | setCursorType (t : CursorArg)
  /-- set_backlight_on, R168 -/
  | setBacklightOn
  /-- set_backlight_off, R169 -/
  | setBacklightOff
  /-- init, R192 -/
  | init
  /-- execute_command, R131 -/
  | executeCommand (c : Nat)
  /-- is_command_supported, R130 -/
  | isCommandSupported (c : Nat)
  -- transport functions (41_transport.md)
  /-- bus.write (Parallel-8), R105 -/
  | busWriteP8 (c : Nat)
  /-- bus.write (Parallel-4), R106 -/
  | busWriteP4 (c : Nat)
  /-- bus.write (I2C-Mux4), R115 -/
  | busWriteI2C (c : Nat)
  /-- bus.read (Parallel-8), R109 -/
  | busReadP8 (c : Nat)
  /-- bus.read (Parallel-4), R110 -/
  | busReadP4 (c : Nat)
  /-- bus.read (I2C-Mux4), R117 -/
  | busReadI2C (c : Nat)
  /-- bus.set_backlight (Parallel), R112 -/
  | busSetBacklightPar (en : Bool)
  /-- bus.set_backlight (I2C-Mux4), R118 -/
  | busSetBacklightI2C (en : Bool)
  /-- bus.init (Parallel-8), R120 -/
  | busInitP8
  /-- bus.init (Parallel-4), R120 -/
  | busInitP4
  /-- bus.init (I2C-Mux4), R121 -/
  | busInitI2C
deriving DecidableEq, Repr

end Sys2Proof
end

