-- ==== Sys2Proof/WellFormed.lean ====
section
/-! DEFINITION. Which instructions have arguments of their operation's type (60_exceptions.md R182, decision D40). A range
violation inside the type is no ill-formedness: it raises E1 (90_conflicts.md C2). -/

namespace Sys2Proof

/-- A Unicode scalar value: 0 to 0x10FFFF, not a surrogate (44_text.md R151, decision D40). -/
def isScalar (n : Nat) : Bool := n < 0xD800 || (0xDFFF < n && n ≤ 0x10FFFF)

/-- The arguments have the types their operation takes: a `ch` is one Unicode scalar value and a `text` is a sequence of
them. Every other operand's Lean type is already the operand's type. -/
def Instr.wf : Instr → Bool
  | .mapCharacter ch _ => isScalar ch
  | .unmapCharacter ch => isScalar ch
  | .writeText _ _ text => text.all isScalar
  | .clear | .home _ | .entry _ _ | .dispctl _ _ _ | .shift _ _ _ | .funcset _ _ _ _ | .setcg _ | .setdd _ | .rdbf _
  | .wrdata _ | .rddata _ | .noneWord | .setCursorPosition _ _ | .getCursorPosition | .moveCursorLeft | .moveCursorRight
  | .scrollDisplayLeft | .scrollDisplayRight | .createCharacter _ _ | .writeCode _ _ _ | .writeCodes _ _ _
  | .readCode _ _ | .setDisplayOn | .setDisplayOff | .setAutoscrollOn | .setAutoscrollOff | .setLeftToRight
  | .setRightToLeft | .setCursorType _ | .setBacklightOn | .setBacklightOff | .init | .executeCommand _
  | .isCommandSupported _ | .busWriteP8 _ | .busWriteP4 _ | .busWriteI2C _ | .busReadP8 _ | .busReadP4 _ | .busReadI2C _
  | .busSetBacklightPar _ | .busSetBacklightI2C _ | .busInitP8 | .busInitP4 | .busInitI2C => true

end Sys2Proof
end

