-- ==== Sys2Proof/Decode.lean ====
section
/-! DEFINITION. Command words: the encoder's constants (30_encoding.md R62, R65), the decoder of R64, total on naturals,
the encoder by OR-composition (R63), the opcode table's rows, and the assembly syntax of R72. The numeric values are
PRESUMED by the spec itself from general knowledge (decisions D2, D3; log 17). -/

namespace Sys2Proof

/-! ### Named masks (R62) -/

/-- `DB0` .. `DB7` -/
def maskDB (i : Nat) : Cmd := 1#10 <<< i
/-- `RW` -/
def maskRW : Cmd := 0x100
/-- `RS` -/
def maskRS : Cmd := 0x200
/-- `DB7_DB4` -/
def maskHi : Cmd := 0x0F0
/-- `DB3_DB0` -/
def maskLo : Cmd := 0x00F

/-! ### Base opcodes and argument constants (R65) -/

def baseClear : Cmd := 0x001
def baseHome : Cmd := 0x002
def baseEntry : Cmd := 0x004
def baseDispctl : Cmd := 0x008
def baseShift : Cmd := 0x010
def baseFuncset : Cmd := 0x020
def baseSetcg : Cmd := 0x040
def baseSetdd : Cmd := 0x080
def baseRdbf : Cmd := 0x100
def baseWrdata : Cmd := 0x200
def baseRddata : Cmd := 0x300

/-- `ENTRY_ID` -/
def argEntryId : Cmd := 0x002
/-- `ENTRY_S` -/
def argEntryS : Cmd := 0x001
/-- `DISP_D` -/
def argDispD : Cmd := 0x004
/-- `DISP_C` -/
def argDispC : Cmd := 0x002
/-- `DISP_B` -/
def argDispB : Cmd := 0x001
/-- `SHIFT_SC` -/
def argShiftSc : Cmd := 0x008
/-- `SHIFT_RL` -/
def argShiftRl : Cmd := 0x004
/-- `FS_DL` -/
def argFsDl : Cmd := 0x010
/-- `FS_N` -/
def argFsN : Cmd := 0x008
/-- `FS_F` -/
def argFsF : Cmd := 0x004

/-- An argument constant, present when its flag is set. -/
def argIf (b : Bool) (w : Cmd) : Cmd := if b then w else 0

/-! ### Decoding (R64) -/

/-- The command a 10-bit word spells: by RS and RW, and for RS = RW = 0 by the highest set bit of DB7..DB0 (R64). -/
def decodeCmd (c : Cmd) : Instr :=
  if c.rs then
    if c.rw then .rddata c.db else .wrdata c.db
  else if c.rw then .rdbf c.db
  else if c.getLsbD 7 then .setdd (c.extractLsb' 0 7)
  else if c.getLsbD 6 then .setcg (c.extractLsb' 0 6)
  else if c.getLsbD 5 then .funcset (c.getLsbD 4) (c.getLsbD 3) (c.getLsbD 2) (c.extractLsb' 0 2)
  else if c.getLsbD 4 then .shift (c.getLsbD 3) (c.getLsbD 2) (c.extractLsb' 0 2)
  else if c.getLsbD 3 then .dispctl (c.getLsbD 2) (c.getLsbD 1) (c.getLsbD 0)
  else if c.getLsbD 2 then .entry (c.getLsbD 1) (c.getLsbD 0)
  else if c.getLsbD 1 then .home (c.getLsbD 0)
  else if c.getLsbD 0 then .clear
  else .noneWord

/-- Why a natural is no command word. -/
inductive DecodeError where
  /-- above bit 9 a command word is zero (30_encoding.md R61) -/
  | aboveTenBits (c : Nat)
deriving DecidableEq, Repr

/-- The decoder, total on naturals: every value below 1024 is a command word (R69), every other is rejected (R61). -/
def decode (c : Nat) : Except DecodeError Instr :=
  if c < 1024 then .ok (decodeCmd (BitVec.ofNat 10 c)) else .error (.aboveTenBits c)

/-- The instruction the decoder reads from a word of `nbits` bits, numbered as the opcode table numbers them. -/
def decodeTableWord (nbits w : Nat) : Option Instr :=
  match decode (w % 2 ^ nbits) with
  | .ok i => some i
  | .error _ => none

/-! ### Encoding (R63, R65) -/

/-- The word of a command-word instruction: base OR arguments. The public operations and the transport functions have no
encoding (30_encoding.md, first paragraph). -/
def encode : Instr → Option Cmd
  | .clear => some baseClear
  | .home x => some (baseHome ||| argIf x 1)
  | .entry id sh => some (baseEntry ||| argIf id argEntryId ||| argIf sh argEntryS)
  | .dispctl d c b => some (baseDispctl ||| argIf d argDispD ||| argIf c argDispC ||| argIf b argDispB)
  | .shift sc rl x => some (baseShift ||| argIf sc argShiftSc ||| argIf rl argShiftRl ||| x.setWidth 10)
  | .funcset dl n f x =>
    some (baseFuncset ||| argIf dl argFsDl ||| argIf n argFsN ||| argIf f argFsF ||| x.setWidth 10)
  | .setcg a => some (baseSetcg ||| a.setWidth 10)
  | .setdd a => some (baseSetdd ||| a.setWidth 10)
  | .rdbf x => some (baseRdbf ||| x.setWidth 10)
  | .wrdata v => some (baseWrdata ||| v.setWidth 10)
  | .rddata x => some (baseRddata ||| x.setWidth 10)
  | .noneWord => some 0x000
  | .setCursorPosition _ _ | .getCursorPosition | .moveCursorLeft | .moveCursorRight | .scrollDisplayLeft
  | .scrollDisplayRight | .createCharacter _ _ | .mapCharacter _ _ | .unmapCharacter _ | .writeText _ _ _
  | .writeCode _ _ _ | .writeCodes _ _ _ | .readCode _ _ | .setDisplayOn | .setDisplayOff | .setAutoscrollOn
  | .setAutoscrollOff | .setLeftToRight | .setRightToLeft | .setCursorType _ | .setBacklightOn | .setBacklightOff
  | .init | .executeCommand _ | .isCommandSupported _ | .busWriteP8 _ | .busWriteP4 _ | .busWriteI2C _ | .busReadP8 _
  | .busReadP4 _ | .busReadI2C _ | .busSetBacklightPar _ | .busSetBacklightI2C _ | .busInitP8 | .busInitP4
  | .busInitI2C => none

/-! ### The opcode table's command-word rows -/

/-- A row of spec/opcode_table.json of format cmd10. -/
structure OpcodeRow where
  mnemonic : String
  mask : Cmd
  pattern : Cmd
deriving DecidableEq, Repr

/-- The row's fixed bits agree with the word. -/
def OpcodeRow.covers (r : OpcodeRow) (c : Cmd) : Bool := c &&& r.mask == r.pattern

/-- The twelve command-word rows, mask and match as the table has them. -/
def opcodeRows : List OpcodeRow := [
  ⟨"CLEAR", 0x3FF, 0x001⟩, ⟨"HOME", 0x3FE, 0x002⟩, ⟨"ENTRY", 0x3FC, 0x004⟩, ⟨"DISPCTL", 0x3F8, 0x008⟩,
  ⟨"SHIFT", 0x3F0, 0x010⟩, ⟨"FUNCSET", 0x3E0, 0x020⟩, ⟨"SETCG", 0x3C0, 0x040⟩, ⟨"SETDD", 0x380, 0x080⟩,
  ⟨"RDBF", 0x300, 0x100⟩, ⟨"WRDATA", 0x300, 0x200⟩, ⟨"RDDATA", 0x300, 0x300⟩, ⟨"NONE", 0x3FF, 0x000⟩]

/-! ### Assembly syntax (R72) -/

/-- A line of R72's assembly, split into its mnemonic, its `name=value` operands and, for `.word`, its value. -/
structure AsmLine where
  head : String
  args : List (String × Nat)
  word : Option Nat := none
deriving DecidableEq, Repr

/-- A one-bit operand of an assembly line. -/
def asmBit : Nat → Option Bool
  | 0 => some false
  | 1 => some true
  | _ => none

/-- The word an assembly line spells; none for a line outside the syntax of R72 (log 21). -/
def assemble (l : AsmLine) : Option Cmd :=
  match l.head, l.args, l.word with
  | "CLEAR", [], none => encode .clear
  | "HOME", [], none => encode (.home false)
  | "ENTRY", [("id", i), ("s", s)], none => do encode (.entry (← asmBit i) (← asmBit s))
  | "DISPCTL", [("d", d), ("c", c), ("b", b)], none => do encode (.dispctl (← asmBit d) (← asmBit c) (← asmBit b))
  | "SHIFT", [("sc", sc), ("rl", rl)], none => do encode (.shift (← asmBit sc) (← asmBit rl) 0)
  | "FUNCSET", [("dl", dl), ("n", n), ("f", f)], none => do
    encode (.funcset (← asmBit dl) (← asmBit n) (← asmBit f) 0)
  | "SETCG", [("a", a)], none => if a < 64 then encode (.setcg (BitVec.ofNat 6 a)) else none
  | "SETDD", [("a", a)], none => if a < 128 then encode (.setdd (BitVec.ofNat 7 a)) else none
  | "RDBF", [], none => encode (.rdbf 0)
  | "WRDATA", [("v", v)], none => if v < 256 then encode (.wrdata (BitVec.ofNat 8 v)) else none
  | "RDDATA", [], none => encode (.rddata 0)
  | ".word", [], some w => if w < 1024 then some (BitVec.ofNat 10 w) else none
  | _, _, _ => none

end Sys2Proof
end

