-- ==== Sys2Proof/Machine/Flags.lean ====
section
/-! DEFINITION. The capability flags (00_scope.md R5, 10_state.md R22) and the flag-word computations: the default words
of EM, DC and FS (10_state.md R12 to R14) and every mutator's function on a flag word (45_flags.md R161 to R167). -/

namespace Sys2Proof

/-! ### Capabilities, functions of the configuration only (R5) -/

/-- `WIDTH`: 8 for Parallel-8, 4 for Parallel-4 and I2C-Mux4 (00_scope.md section 3). -/
def Config.width (cfg : Config) : Nat :=
  match cfg.variant with
  | .parallel8 => 8
  | .parallel4 => 4
  | .i2cMux4 => 4

/-- `CAN_READ`: a read/write select line is wired; for I2C the parameter `I2C_CAN_READ` (R5, decision D21). -/
def Config.canRead (cfg : Config) : Bool :=
  match cfg.variant with
  | .parallel8 | .parallel4 => cfg.rwWired
  | .i2cMux4 => cfg.i2cCanRead

/-- `CAN_BL`: a backlight line is wired, or always on I2C (R5). -/
def Config.canBl (cfg : Config) : Bool :=
  match cfg.variant with
  | .parallel8 | .parallel4 => cfg.blWired
  | .i2cMux4 => true

/-- `DATA`: the data lines of the transport, D7 first (41_transport.md R101). I2C-Mux4 drives no lines of its own. -/
def Config.dataLines (cfg : Config) : List (Fin 8) :=
  match cfg.variant with
  | .parallel8 => [7, 6, 5, 4, 3, 2, 1, 0]
  | .parallel4 => [7, 6, 5, 4]
  | .i2cMux4 => []

/-! ### Default flag words (R12 to R14) -/

/-- Reset value of EM: left-to-right, autoscroll off (10_state.md section 1, decision D5). -/
def emDefault : Cmd := 0x006

/-- Reset value of DC: display on, cursor and blink off (10_state.md section 1, decision D5). -/
def dcDefault : Cmd := 0x00C

/-- `FS`: base 0x020, DL set on an 8-bit bus, N = 1, F = `FONT_F` (R14). -/
def fsDefault (cfg : Config) : Cmd :=
  baseFuncset ||| argIf (cfg.width == 8) argFsDl ||| argFsN ||| argIf cfg.fontF argFsF

/-! ### Mutators (45_flags.md) -/

/-- `set_display_on`: D <- 1 (R161). -/
def flagDisplayOn (w : Cmd) : Cmd := w ||| 0x004
/-- `set_display_off`: D <- 0 (R162). -/
def flagDisplayOff (w : Cmd) : Cmd := w &&& ~~~0x004
/-- `set_autoscroll_on`: S <- 1 (R163). -/
def flagAutoscrollOn (w : Cmd) : Cmd := w ||| 0x001
/-- `set_autoscroll_off`: S <- 0 (R164). -/
def flagAutoscrollOff (w : Cmd) : Cmd := w &&& ~~~0x001
/-- `set_left_to_right`: I/D <- 1 (R165). -/
def flagLeftToRight (w : Cmd) : Cmd := w ||| 0x002
/-- `set_right_to_left`: I/D <- 0 (R166). -/
def flagRightToLeft (w : Cmd) : Cmd := w &&& ~~~0x002

/-- C(t), the cursor-on bit of a cursor type (R167, decision D31). -/
def cursorC : CursorType → Bool
  | .none => false
  | .underscore => true
  | .blinkingBlock => false
  | .both => true

/-- B(t), the blink-on bit of a cursor type (R167, decision D31). -/
def cursorB : CursorType → Bool
  | .none => false
  | .underscore => false
  | .blinkingBlock => true
  | .both => true

/-- `set_cursor_type`: (C, B) <- (C(t), B(t)), D kept (R167). -/
def flagCursorType (t : CursorType) (w : Cmd) : Cmd :=
  (w &&& ~~~0x003) ||| argIf (cursorC t) argDispC ||| argIf (cursorB t) argDispB

end Sys2Proof
end

