-- ==== Sys2Proof/Machine/Operands.lean ====
section
/-! DEFINITION. Operand forms: address arithmetic (20_memory.md R42 to R45), word composition (30_encoding.md R63), the
expander byte (R67), nibble assembly (R66), the BF/AC split (R68), delay class and completion limit (R70), and character
resolution (44_text.md R153). -/

namespace Sys2Proof

/-! ### Display geometry (00_scope.md section 3) -/

/-- `LINES` -/
def lineCount : Nat := 2
/-- `COLS` -/
def colCount : Nat := 40
/-- `CG_SLOTS` -/
def cgSlots : Nat := 8
/-- `CG_ROWS` -/
def cgRows : Nat := 8
/-- `CG_ROW_BITS`: a row is 0 to 31 -/
def cgRowBits : Nat := 5

/-- `LINE_OFFSET`: line 0 at 0x00, line 1 at 0x40 (R41). -/
def lineOffset (line : Nat) : Nat := if line = 0 then 0x00 else 0x40

/-- `ddram_addr(col, line)` (R42). -/
def ddramAddr (col line : Nat) : Nat := lineOffset line + col

/-- The inverse translation of a 7-bit address: (column, line), none in neither window (R43). -/
def ddramInverse (a : Nat) : Option (Nat × Nat) :=
  if a ≤ 0x27 then some (a - 0x00, 0)
  else if 0x40 ≤ a ∧ a ≤ 0x67 then some (a - 0x40, 1)
  else none

/-! ### Words the public operations build (30_encoding.md R63, R73) -/

/-- `SETDD a=ddram_addr(col, line)` (43_cursor.md R140). -/
def setddWord (col line : Nat) : Cmd := baseSetdd ||| BitVec.ofNat 10 (ddramAddr col line)

/-- `SETCG a=code<<3` (20_memory.md R44). -/
def setcgWord (code : Nat) : Cmd := baseSetcg ||| BitVec.ofNat 10 (code <<< 3)

/-- `WRDATA v=…` (40_commands.md R89); a CGRAM row is zero-extended (20_memory.md R45). -/
def wrdataWord (v : Nat) : Cmd := baseWrdata ||| BitVec.ofNat 10 v

/-- A cursor or display shift word (40_commands.md R84). -/
def shiftWord (sc rl : Bool) : Cmd := baseShift ||| argIf sc argShiftSc ||| argIf rl argShiftRl

/-! ### Transfer forms -/

/-- `(hi << 4) | lo` (30_encoding.md R66). -/
def joinNibbles (hi lo : Nibble) : Byte := (hi.setWidth 8 <<< 4) ||| lo.setWidth 8

/-- One bit of an expander byte, at the bit the map gives. -/
def expBit (b : Bool) (pos : Nat) : Byte := if b then 1#8 <<< pos else 0

/-- `exp_byte(rs, rw, e, bl, nib)` (30_encoding.md R67). -/
def expByte (m : I2CMap) (rs rw e bl : Bool) (nib : Nibble) : Byte :=
  expBit rs m.rs ||| expBit rw m.rw ||| expBit e m.e ||| expBit bl m.bl
    ||| expBit (nib.getLsbD 0) m.d4 ||| expBit (nib.getLsbD 1) m.d5
    ||| expBit (nib.getLsbD 2) m.d6 ||| expBit (nib.getLsbD 3) m.d7

/-- The nibble read back from the expander, `{b[D7], b[D6], b[D5], b[D4]}` (30_encoding.md R67). -/
def expNibble (m : I2CMap) (b : Byte) : Nibble :=
  BitVec.ofBool (b.getLsbD m.d7) ++ BitVec.ofBool (b.getLsbD m.d6)
    ++ BitVec.ofBool (b.getLsbD m.d5) ++ BitVec.ofBool (b.getLsbD m.d4)

/-- `BF = v[7]` of a busy-flag/address value (30_encoding.md R68). -/
def busyFlag (v : Byte) : Bool := v.getLsbD 7

/-- `AC = v[6:0]` of a busy-flag/address value (30_encoding.md R68). -/
def addressCounter (v : Byte) : BitVec 7 := v.extractLsb' 0 7

/-! ### Delay class (R70) -/

/-- CLEAR, HOME and HOME with its don't-care bit are long (R70, decision D9). -/
def isLong (c : Cmd) : Bool := c == 0x001 || c == 0x002 || c == 0x003

/-- `limit_us(c)` (R70, 42_execute.md R134). -/
def limitUs (cfg : Config) (c : Cmd) : Nat := if isLong c then cfg.tLongUs else cfg.tShortUs

/-! ### Characters (44_text.md R153) -/

/-- `resolve(ch)`: the mapped code, else the scalar value if at most 255, else the blank 0x20. -/
def resolve (m : CharMap) (ch : Nat) : Nat :=
  let k := match m.get ch with
    | some code => code.toNat
    | none => ch
  if k > 255 then 0x20 else k

/-- A character code in [0, 255] (44_text.md R151, R155, R156). -/
def codeInRange (k : Int) : Bool := 0 ≤ k && k ≤ 255

/-- The first code of a sequence that is out of range (44_text.md R156 names only the first). -/
def firstBadCode : List Int → Option Int
  | [] => none
  | k :: ks => if codeInRange k then firstBadCode ks else some k

/-- The first row of a bitmap above 31, with its index, counting from `i` (44_text.md R150). -/
def firstBadRow : Nat → List Nat → Option (Nat × Nat)
  | _, [] => none
  | i, v :: vs => if v > 31 then some (i, v) else firstBadRow (i + 1) vs

/-- A scan result without repeats, order kept: "any list of distinct 7-bit addresses" (10_state.md R33, log 20). -/
def distinctAddrs : List Addr7 → List Addr7
  | [] => []
  | a :: as => a :: (distinctAddrs as).filter (· != a)

end Sys2Proof
end

