-- ==== Sys2Proof/Machine/State.lean ====
section
/-! DEFINITION. The driver's state (10_state.md), as plain data, with its reset; events, errors, faults and refusals. -/

namespace Sys2Proof.Machine

open Sys2Proof

/-- `phase`, in the place of a program counter (10_state.md R11). -/
inductive Phase where
  | constructed
  | initializing
  | ready
  | failed
deriving DecidableEq, Repr

/-- Direction of a data line (10_state.md R19). -/
inductive Dir where
  | out
  | inp
deriving DecidableEq, Repr

/-- `ac_space`, the ghost field (10_state.md R21). -/
inductive AcSpace where
  | unknown
  | ddram
  | cgram
deriving DecidableEq, Repr

/-- A level or a byte, or `unknown`: the spec's own "no value", before the first drive (10_state.md R20) and on a data line
after a parallel read (93_implementation_defined.md U16). -/
inductive Latch (α : Type) where
  | unknown
  | driven (v : α)
deriving DecidableEq, Repr

/-- `lvl`: the control lines, the data lines D0..D7, and the last expander byte `lvl[i2c]`, each as the driver last drove it
(10_state.md R20); and beside it `wire`, the level each data line carries, which a parallel read leaves unknown (U16) while
the latch `data` is unchanged (41_transport.md R108; log 25). A control line always carries its latch (R19). -/
structure Levels where
  rs : Latch Bool
  rw : Latch Bool
  e : Latch Bool
  bl : Latch Bool
  data : Vector (Latch Bool) 8
  wire : Vector (Latch Bool) 8
  i2c : Latch Byte
deriving DecidableEq, Repr

/-- The platform primitives that may fail (60_exceptions.md R174). -/
inductive Primitive where
  | drive
  | setDir
  | sample
  | i2cScan
  | i2cWrite
  | i2cRead
deriving DecidableEq, Repr

/-- The events of the trace; a draw is recorded in the event that consumed it (10_state.md R31). -/
inductive Event where
  | drive (l : Line) (level : Bool)
  | setDir (lines : List (Fin 8)) (d : Dir)
  | sample (l : Line) (bit : Bool)
  | sleepUs (n : Nat)
  | sleepMs (n : Nat)
  | ticks (t : Nat)
  | i2cScan (addrs : List Addr7)
  | i2cWrite (addr : Addr7) (byte : Byte)
  | i2cRead (addr : Addr7) (byte : Byte)
  /-- `Warn(BusyTimeout, c)`, the only warning (60_exceptions.md R175) -/
  | warn (c : Cmd)
  | platformFail (p : Primitive)
deriving DecidableEq, Repr

/-- Why a construction is rejected (70_reset_and_hazards.md R190). -/
inductive BadReason where
  | i2cAddress
  | i2cMap
  | powerWait
  | pinTwice
deriving DecidableEq, Repr

/-- The `info` of E1 invalid-argument (60_exceptions.md R171). -/
inductive E1Info where
  | columnOutOfRange (col : Nat)
  | lineOutOfRange (line : Nat)
  | cgSlotOutOfRange (code : Nat)
  | bitmapLength (n : Nat)
  | bitmapRowOutOfRange (i v : Nat)
  | characterCodeOutOfRange (k : Int)
  | notMapped (ch : Nat)
  | invalidCursorType (tag : Nat)
  | commandOutOfRange (c : Nat)
  | wrongDirection (c : Nat)
  | badConfig (reason : BadReason)
deriving DecidableEq, Repr

/-- The `info` of E2 unsupported-operation (60_exceptions.md R172). -/
inductive E2Info where
  | readUnsupported
  | outOfRange (c : Nat)
  | backlightUnsupported
deriving DecidableEq, Repr

/-- The `info` of E3 hardware-communication failure (60_exceptions.md R173). -/
inductive E3Info where
  | noDevice
  | addressMissing (a : Nat)
  | ambiguous (addrs : List Addr7)
  | platformError (p : Primitive)
deriving DecidableEq, Repr

/-- `Error(code, info)` (60_exceptions.md R170). -/
inductive Error where
  | e1 (info : E1Info)
  | e2 (info : E2Info)
  | e3 (info : E3Info)
deriving DecidableEq, Repr

/-- What an operation returns: nothing, the 8 bits of a read, a cursor position, or a truth value. -/
inductive Value where
  | nothing
  | byte (v : Byte)
  | position (col line : Nat)
  | truth (b : Bool)
deriving DecidableEq, Repr

/-- What the caller has got from the last operation (00_scope.md R4, 60_exceptions.md R183, log 10). -/
inductive Reply where
  | pending
  | returned (v : Value)
  | error (e : Error)
deriving DecidableEq, Repr

/-- What a call asks for (log 3): a command word as a number (R72's `.word`, decoded when it is served), an operation with
its operands, or a name that is no operation (60_exceptions.md R182). -/
inductive Request where
  | word (c : Nat)
  | op (i : Instr)
  | unknown (name : String)
deriving DecidableEq, Repr

/-- A call of the caller. `overlaps` says it was made while the call before it was still in progress (60_exceptions.md
R180 F5, log 11). -/
structure Call where
  overlaps : Bool
  request : Request
deriving DecidableEq, Repr

/-- The environment's draws (10_state.md R32, R33; 60_exceptions.md R174), the model's own fields: queues of answers the
primitives consume in order. `faults`: whether the next fallible primitive fails (used up: it succeeds, log 7); `samples`,
`reads`, `scans`: the answers of `Sample`, `I2CRead`, `I2CScan` (used up: free values, log 6); `ticks`: how far the tick
counter advances before each `Ticks` (used up: free, at least 1, log 8); `now`: its last value; `drawn`: free values used. -/
structure Env where
  faults : List Bool
  samples : List Bool
  reads : List Byte
  scans : List (List Addr7)
  ticks : List Nat
  now : Nat
  drawn : Nat
deriving DecidableEq, Repr

/-- The state of one driver instance. -/
structure State where
  /-- the configuration record, never written (00_scope.md R5) -/
  cfg : Config
  /-- `phase` (R11) -/
  phase : Phase
  /-- `EM` (R12) -/
  em : Cmd
  /-- `DC` (R13) -/
  dc : Cmd
  /-- `FS` (R14) -/
  fs : Cmd
  /-- `cmap` (R16) -/
  cmap : CharMap
  /-- `bl` (R17) -/
  bl : Bool
  /-- `i2c_addr`; none is the spec's own value before the scan resolves it (R18) -/
  i2cAddr : Option Addr7
  /-- `dir[D0..D7]` (R19) -/
  dir : Vector Dir 8
  /-- `lvl` (R20) -/
  lvl : Levels
  /-- `ac_space` (R21) -/
  acSpace : AcSpace
  /-- `trace`, newest event first (R31, log 14) -/
  log : List Event
  /-- what the last operation returned (00_scope.md R4) -/
  reply : Reply
  /-- the caller's calls not yet served, oldest first (the model's own, log 3) -/
  calls : List Call
  /-- the environment's draws (the model's own, log 6 to log 8) -/
  env : Env
deriving DecidableEq, Repr

/-- The model faults: the step has no successor state (60_exceptions.md R180, R181). All are safe. -/
inductive Fault where
  /-- F1: an operation that needs `Ready` called in `Constructed`; raised by `phaseCheckReady`. Safe. -/
  | notReady
  /-- F2: an operation called in `Failed`; raised by `phaseCheckReady`, `phaseCheckLive` and `init`. Safe. -/
  | useAfterFailure
  /-- F3: `get_cursor_position` read an address outside both windows (20_memory.md R43). Safe. -/
  | internalInvariant (a : BitVec 7)
  /-- F4: an address-counter operation while `ac_space = CGRAM` (43_cursor.md R141 to R143). Safe. -/
  | cgramPointerHazard
  /-- F5: a call made while another is in progress (20_memory.md R54); raised when the call is fetched. Safe. -/
  | concurrentCall
deriving DecidableEq, Repr

/-- The refusals (60_exceptions.md R182): what the source gives no meaning. All are safe. -/
inductive Refusal where
  /-- an instruction without a meaning in this model; raised by `exec` only. Safe. -/
  | notModelled (mnemonic : String)
  /-- a call of something that is no operation; raised when the call is fetched (R182). Safe. -/
  | unknownOperation (name : String)
  /-- an argument outside its operation's type; raised when the call is fetched (R182, decision D40). Safe. -/
  | illTypedArgument
  /-- a raw word above bit 9; raised when the call is fetched (30_encoding.md R61, log 12). Safe. -/
  | wordOutOfRange (c : Nat)
  /-- a transport function that an instance of variant `v` does not have; raised by the transport functions (R100, log 9).
  Safe. -/
  | variantMismatch (v : Variant)
  /-- an I2C transfer while `i2c_addr` is none; raised by `i2cTarget` (R18, log 13). Safe. -/
  | i2cAddressUnresolved
deriving DecidableEq, Repr

/-- What ends an operation before it returns: an error, a fault or a refusal. -/
inductive Stop where
  | error (e : Error)
  | fault (f : Fault)
  | refused (r : Refusal)
deriving DecidableEq, Repr

/-- The trace in order, oldest event first (10_state.md R31). -/
def State.trace (s : State) : List Event := s.log.reverse

/-- The environment before any draw is supplied (log 6 to log 8). -/
def Env.quietStart : Env :=
  { faults := [], samples := [], reads := [], scans := [], ticks := [], now := 0, drawn := 0 }

/-- Every level unknown (70_reset_and_hazards.md R190, decision D33). -/
def Levels.unknown : Levels :=
  { rs := .unknown, rw := .unknown, e := .unknown, bl := .unknown, data := Vector.replicate 8 .unknown,
    wire := Vector.replicate 8 .unknown, i2c := .unknown }

/-- Every field at its reset value (10_state.md R25, 70_reset_and_hazards.md R190 step 2); no event is emitted. -/
def State.constructed (cfg : Config) : State where
  cfg := cfg
  phase := .constructed
  em := emDefault
  dc := dcDefault
  fs := fsDefault cfg
  cmap := []
  bl := false
  i2cAddr := none
  dir := Vector.replicate 8 .out
  lvl := Levels.unknown
  acSpace := .unknown
  log := []
  reply := .pending
  calls := []
  env := Env.quietStart

/-- The state after reset: construction with the configuration of log 1 (R25: construction is the only reset). -/
def State.reset : State := State.constructed Config.atReset

end Sys2Proof.Machine
end

