-- ==== Sys2Proof/Machine/Ops.lean ====
section
/-! DEFINITION. The shared operations: the driver's monad, the event primitives of 00_scope.md section 4 with their draws
(10_state.md R31 to R33), raising an error (60_exceptions.md R170, R177) and returning to the caller beside it, the phase
checks (R180), and fetching a call (R54, R182). -/

namespace Sys2Proof.Machine

open Sys2Proof

/-- An operation or a part of one: from a state it returns a value and a state, or it stops. A stop keeps the state reached,
so every event and write before it stays (60_exceptions.md R176). -/
abbrev Drv := EStateM Stop State

/-- Stop unless the condition holds. -/
def require (ok : Bool) (stop : Stop) : Drv Unit := fun s => if ok then .ok () s else .error stop s

/-- Do it only when the condition holds. -/
def onlyIf (b : Bool) (m : Drv Unit) : Drv Unit := fun s => if b then m s else .ok () s

/-- The configuration record (00_scope.md R5). -/
def getCfg : Drv Config := fun s => .ok s.cfg s

/-- Change the state. -/
def update (f : State → State) : Drv Unit := fun s => .ok () (f s)

/-- Append an event to the trace (10_state.md R31). -/
def emit (e : Event) : Drv Unit := update fun s => { s with log := e :: s.log }

/-! ### Errors and returns -/

/-- The phase an error leaves: every E3 sets `Failed`, E1 and E2 never change it (60_exceptions.md R177). -/
def phaseAfter (e : Error) (p : Phase) : Phase :=
  match e with
  | .e3 _ => .failed
  | .e1 _ | .e2 _ => p

/-- An error reaches the caller: the operation ends, the caller gets `(code, info)`, an E3 sets `Failed` (R170, R177, R183).
There is no vector, saved state or mode, and no return from it: the caller calls the next operation (R183). -/
def raiseError (e : Error) (s : State) : State := { s with reply := .error e, phase := phaseAfter e s.phase }

/-- An operation completes and returns its value (00_scope.md R3). -/
def returnValue (v : Value) (s : State) : State := { s with reply := .returned v }

/-- One operation step: it completes, ends in an error (a next state in both cases), or ends in a fault or a refusal
(00_scope.md R3, 60_exceptions.md R181; log 10). -/
def finish (m : Drv Value) (s : State) : Host.Outcome State Fault Refusal :=
  match m s with
  | .ok v t => .next (returnValue v t)
  | .error (.error e) t => .next (raiseError e t)
  | .error (.fault f) _ => .fault f
  | .error (.refused r) _ => .refused r

/-! ### Phase checks (60_exceptions.md R180) -/

/-- `phase_check_ready()`: F2 in `Failed`, F1 in `Constructed`. -/
def phaseCheckReady : Drv Unit := fun s =>
  match s.phase with
  | .failed => .error (.fault .useAfterFailure) s
  | .constructed => .error (.fault .notReady) s
  | .initializing | .ready => .ok () s

/-- `phase_check_live()`, and the check of `init`: F2 in `Failed`. -/
def phaseCheckLive : Drv Unit := fun s =>
  match s.phase with
  | .failed => .error (.fault .useAfterFailure) s
  | .constructed | .initializing | .ready => .ok () s

/-! ### Platform primitives -/

/-- Whether the next fallible primitive fails is a draw, taken when `PLATFORM_FAULTS` holds; a failure is recorded and
raises E3 `PlatformError(p)` (60_exceptions.md R174). -/
def platform (p : Primitive) : Drv Unit := fun s =>
  if s.cfg.platformFaults then
    match s.env.faults with
    | [] => .ok () s
    | false :: rest => .ok () { s with env := { s.env with faults := rest } }
    | true :: rest =>
      .error (.error (.e3 (.platformError p)))
        { s with env := { s.env with faults := rest }, log := .platformFail p :: s.log }
  else .ok () s

/-- Record the level a line is driven to (10_state.md R20); a data line then carries it. -/
def Levels.drive (l : Line) (b : Bool) (v : Levels) : Levels :=
  match l with
  | .rs => { v with rs := .driven b }
  | .rw => { v with rw := .driven b }
  | .e => { v with e := .driven b }
  | .bl => { v with bl := .driven b }
  | .data i => { v with data := v.data.set i (.driven b), wire := v.wire.set i (.driven b) }

/-- `Drive(line, level)`. -/
def drive (l : Line) (b : Bool) : Drv Unit := do
  platform .drive
  update fun s => { s with lvl := s.lvl.drive l b }
  emit (.drive l b)

/-- The entries of the listed lines set to `x`. -/
def setLines {α : Type} (x : α) : List (Fin 8) → Vector α 8 → Vector α 8
  | [], v => v
  | i :: is, v => setLines x is (v.set i x)

/-- The listed data lines carry no known level until they are driven again (93_implementation_defined.md U16); their latches
are unchanged (41_transport.md R108). -/
def Levels.release (lines : List (Fin 8)) (v : Levels) : Levels := { v with wire := setLines .unknown lines v.wire }

/-- `SetDir(lines, dir)`; one that fails switches no line (log 16). A switched line carries an unknown level, while it is an
input and when a read has restored `Out` (U16; that this is held beside the latch of R108 is DESIGN CHOICE, log 25). -/
def setDir (lines : List (Fin 8)) (d : Dir) : Drv Unit := do
  platform .setDir
  update fun s => { s with dir := setLines d lines s.dir, lvl := s.lvl.release lines }
  emit (.setDir lines d)

/-- `SleepUs(n)`: a request for at least `n` µs; no clock advances (70_reset_and_hazards.md R205). -/
def sleepUs (n : Nat) : Drv Unit := emit (.sleepUs n)

/-- `SleepMs(n)`. -/
def sleepMs (n : Nat) : Drv Unit := emit (.sleepMs n)

/-- The next draw of a queue, or the free value where the queue is used up (log 6). -/
def drawFrom {α : Type} (queue : Env → List α) (setQueue : List α → Env → Env) (free : Nat → α) : Drv α := fun s =>
  match queue s.env with
  | a :: rest => .ok a { s with env := setQueue rest s.env }
  | [] => .ok (free s.env.drawn) { s with env := { s.env with drawn := s.env.drawn + 1 } }

/-- `Sample(line)`: any bit (R33). -/
def sample (l : Line) : Drv Bool := do
  platform .sample
  let b ← drawFrom (·.samples) (fun q e => { e with samples := q }) Config.freeSample
  emit (.sample l b)
  pure b

/-- `Ticks()`: the tick counter, non-decreasing and unbounded (R32): it advances by the next increment, and by at least 1
where no increment is supplied (log 8). It does not fail (60_exceptions.md R174). -/
def ticks : Drv Nat := do
  let d ← drawFrom (·.ticks) (fun q e => { e with ticks := q }) (fun n => Config.freeTick n + 1)
  update fun s => { s with env := { s.env with now := s.env.now + d } }
  let s ← get
  emit (.ticks s.env.now)
  pure s.env.now

/-- `I2CScan()`: any list of distinct addresses (R33). -/
def i2cScan : Drv (List Addr7) := do
  platform .i2cScan
  let l ← drawFrom (·.scans) (fun q e => { e with scans := q }) Config.freeScan
  emit (.i2cScan (distinctAddrs l))
  pure (distinctAddrs l)

/-- `S.i2c_addr`, which every `I2CWrite` and `I2CRead` uses (10_state.md R18); there is none to write to before the scan
resolved it (log 13). -/
def i2cTarget : Drv Addr7 := fun s =>
  match s.i2cAddr with
  | some a => .ok a s
  | none => .error (.refused .i2cAddressUnresolved) s

/-- `I2CWrite(S.i2c_addr, byte)`: one byte, which becomes `lvl[i2c]` (R20). -/
def i2cWrite (b : Byte) : Drv Unit := do
  let a ← i2cTarget
  platform .i2cWrite
  update fun s => { s with lvl := { s.lvl with i2c := .driven b } }
  emit (.i2cWrite a b)

/-- `I2CRead(S.i2c_addr)`: any byte (R33). -/
def i2cRead : Drv Byte := do
  let a ← i2cTarget
  platform .i2cRead
  let b ← drawFrom (·.reads) (fun q e => { e with reads := q }) Config.freeByte
  emit (.i2cRead a b)
  pure b

/-- `Warn(BusyTimeout, c)`: an event, and the operation goes on (60_exceptions.md R175). -/
def warnBusyTimeout (c : Cmd) : Drv Unit := emit (.warn c)

/-! ### Fetching a call -/

/-- What a call turns out to be: an operation to run, or a stop before any of it. -/
inductive Fetched where
  | run (i : Instr)
  | fault (f : Fault)
  | refused (r : Refusal)
deriving DecidableEq, Repr

/-- An operation runs if its arguments have their types (60_exceptions.md R182). -/
def checkTypes (i : Instr) : Fetched := if i.wf then .run i else .refused .illTypedArgument

/-- Read a call. The overlap check comes before anything else (60_exceptions.md R178); a raw word is decoded (30_encoding.md
R64). A refusal comes here, before the phase check of the operation, so also in `Constructed` and `Failed`: R178 does not
rank refusals against F1 and F2, and this order is the model's DESIGN CHOICE (log 26). -/
def fetch (c : Call) : Fetched :=
  if c.overlaps then .fault .concurrentCall
  else match c.request with
    | .word w =>
      match decode w with
      | .ok i => checkTypes i
      | .error (.aboveTenBits w) => .refused (.wordOutOfRange w)
    | .op i => checkTypes i
    | .unknown name => .refused (.unknownOperation name)

end Sys2Proof.Machine
end

