-- ==== Sys2Proof/Machine/Bus.lean ====
section
/-! DEFINITION. The three bus transports (41_transport.md): bus cycles, `bus.write`, `bus.read`, `bus.set_backlight` and
`bus.init`. -/

namespace Sys2Proof.Machine

open Sys2Proof

/-! ### Parallel bus cycles -/

/-- `pulse()` (R102). -/
def pulse : Drv Unit := do
  let cfg ← getCfg
  drive .e true
  sleepUs cfg.tPwUs
  drive .e false
  sleepUs cfg.tCycUs

/-- Drive the listed data lines, line `D_i` with bit `i - low` of the value (R103). -/
def driveData (val : Byte) (low : Nat) : List (Fin 8) → Drv Unit
  | [] => pure ()
  | i :: is => do
    drive (.data i) (val.getLsbD (i.val - low))
    driveData val low is

/-- `par_write_cycle(rs, val)`: `val` has `WIDTH` bits (R103, R104). -/
def parWriteCycle (rs : Bool) (val : Byte) : Drv Unit := do
  let cfg ← getCfg
  drive .rs rs
  onlyIf cfg.rwWired (drive .rw false)
  driveData val (8 - cfg.width) cfg.dataLines
  sleepUs cfg.tAsUs
  pulse

/-- Sample the listed data lines, `p <- (p << 1) | Sample(D_i)` (R108). -/
def sampleLines (p : Byte) : List (Fin 8) → Drv Byte
  | [] => pure p
  | i :: is => do
    let b ← sample (.data i)
    sampleLines ((p <<< 1) ||| (BitVec.ofBool b).setWidth 8) is

/-- One cycle of a parallel read: the samples are taken while E is high, after `T_PW_US` (R108). -/
def parReadCycle (rs : Bool) : Drv Byte := do
  let cfg ← getCfg
  drive .rs rs
  drive .rw true
  sleepUs cfg.tAsUs
  drive .e true
  sleepUs cfg.tPwUs
  let p ← sampleLines 0 cfg.dataLines
  drive .e false
  sleepUs cfg.tCycUs
  pure p

/-! ### Checks -/

/-- `write_checks(c)`: range before direction, both E1 (R107). -/
def writeChecks (c : Nat) : Drv Unit := do
  require (c < 1024) (.error (.e1 (.commandOutOfRange c)))
  require (!c.testBit 8) (.error (.e1 (.wrongDirection c)))

/-- `read_checks(c)`: range, direction, capability (R111). -/
def readChecks (c : Nat) : Drv Unit := do
  require (c < 1024) (.error (.e1 (.commandOutOfRange c)))
  require (c.testBit 8) (.error (.e1 (.wrongDirection c)))
  let cfg ← getCfg
  require cfg.canRead (.error (.e2 .readUnsupported))

/-! ### Parallel transports -/

/-- The body of `bus.write` on Parallel-8: one cycle (R105). -/
def parWrite8 (w : Cmd) : Drv Unit := parWriteCycle w.rs w.db

/-- The body of `bus.write` on Parallel-4: high nibble, then low nibble (R106). -/
def parWrite4 (w : Cmd) : Drv Unit := do
  parWriteCycle w.rs (w.hi.setWidth 8)
  parWriteCycle w.rs (w.lo.setWidth 8)

/-- `bus.write(c)` on Parallel-8 (R105). -/
def busWriteP8 (c : Nat) : Drv Unit := do
  writeChecks c
  parWrite8 (BitVec.ofNat 10 c)

/-- `bus.write(c)` on Parallel-4 (R106). -/
def busWriteP4 (c : Nat) : Drv Unit := do
  writeChecks c
  parWrite4 (BitVec.ofNat 10 c)

/-- The cycles of a parallel read: one of 8 bits, or two of 4, high nibble first (R108 to R110). -/
def parReadCycles (rs : Bool) : Drv Byte := do
  let cfg ← getCfg
  let p ← parReadCycle rs
  if cfg.width = 8 then pure p
  else do
    let q ← parReadCycle rs
    pure ((p <<< 4) ||| q)

/-- `par_read(c)`: `bus.read` on both parallel transports (R108). The data lines' latches stay as last driven (R108), and the
levels the lines carry afterwards are unknown (93_implementation_defined.md U16; log 25). -/
def parRead (c : Nat) : Drv Byte := do
  readChecks c
  let cfg ← getCfg
  setDir cfg.dataLines .inp
  let v ← parReadCycles (c.testBit 9)
  setDir cfg.dataLines .out
  pure v

/-- `bus.set_backlight(en)` on a parallel transport (R112). -/
def parSetBacklight (en : Bool) : Drv Unit := do
  let cfg ← getCfg
  require cfg.canBl (.error (.e2 .backlightUnsupported))
  update fun s => { s with bl := en }
  drive .bl (if en then cfg.blActiveLevel else !cfg.blActiveLevel)

/-! ### I2C-Mux4 -/

/-- One expander byte write and the delay after it (R114, R116). -/
def i2cPut (b : Byte) (delayUs : Nat) : Drv Unit := do
  i2cWrite b
  sleepUs delayUs

/-- The backlight flag, which rides in every expander byte (R113). -/
def getBl : Drv Bool := fun s => .ok s.bl s

/-- `i2c_write_cycle(rs, nib)`: setup, E high, E low (R114). -/
def i2cWriteCycle (rs : Bool) (nib : Nibble) : Drv Unit := do
  let cfg ← getCfg
  let bl ← getBl
  let b := expByte cfg.i2cMap rs false false bl nib
  i2cPut b cfg.tAsUs
  i2cPut (b ||| expBit true cfg.i2cMap.e) cfg.tPwUs
  i2cPut b cfg.tCycUs

/-- The body of `bus.write` on I2C-Mux4 (R115). -/
def i2cWriteWord (w : Cmd) : Drv Unit := do
  i2cWriteCycle w.rs w.hi
  i2cWriteCycle w.rs w.lo

/-- `bus.write(c)` on I2C-Mux4 (R115). -/
def busWriteI2C (c : Nat) : Drv Unit := do
  writeChecks c
  i2cWriteWord (BitVec.ofNat 10 c)

/-- `i2c_read_cycle(rs)`: D7..D4 driven high, one byte read while E is high (R116). -/
def i2cReadCycle (rs : Bool) : Drv Nibble := do
  let cfg ← getCfg
  let bl ← getBl
  let b := expByte cfg.i2cMap rs true false bl 0xF
  i2cPut b cfg.tAsUs
  i2cPut (b ||| expBit true cfg.i2cMap.e) cfg.tPwUs
  let r ← i2cRead
  i2cPut b cfg.tCycUs
  pure (expNibble cfg.i2cMap r)

/-- `bus.read(c)` on I2C-Mux4 (R117). -/
def i2cBusRead (c : Nat) : Drv Byte := do
  readChecks c
  let hi ← i2cReadCycle (c.testBit 9)
  let lo ← i2cReadCycle (c.testBit 9)
  pure (joinNibbles hi lo)

/-- `bus.set_backlight(en)` on I2C-Mux4: the flag, then a data-less byte (R118). -/
def i2cSetBacklight (en : Bool) : Drv Unit := do
  update fun s => { s with bl := en }
  let cfg ← getCfg
  let bl ← getBl
  i2cWrite (expByte cfg.i2cMap false false false bl 0)

/-- `i2c_select()`: scan and address selection (R119). -/
def i2cSelect : Drv Unit := do
  let addrs ← i2cScan
  require (!addrs.isEmpty) (.error (.e3 .noDevice))
  let cfg ← getCfg
  match cfg.i2cAddrCfg with
  | none => do
    require (addrs.length ≤ 1) (.error (.e3 (.ambiguous addrs)))
    update fun s => { s with i2cAddr := addrs.head? }
  | some a => do
    require (addrs.any (·.toNat == a)) (.error (.e3 (.addressMissing a)))
    update fun s => { s with i2cAddr := some (BitVec.ofNat 7 a) }

/-! ### Power-on sequence -/

/-- `init_pulse(nib)`: one cycle with RS = 0, not half of a byte (R122). -/
def initPulse (nib : Nibble) : Drv Unit := do
  let cfg ← getCfg
  match cfg.variant with
  | .parallel8 => parWriteCycle false (nib.setWidth 8 <<< 4)
  | .parallel4 => parWriteCycle false (nib.setWidth 8)
  | .i2cMux4 => i2cWriteCycle false nib

/-- The power-on wait and the three 8-bit pulses with their delays, common to R120 and R121. -/
def powerOn : Drv Unit := do
  let cfg ← getCfg
  sleepMs cfg.tPowerMs
  initPulse 0x3
  sleepMs cfg.tInit1Ms
  initPulse 0x3
  sleepMs cfg.tInit2Ms
  initPulse 0x3
  sleepMs cfg.tInit3Ms

/-- `bus.init()` on a parallel transport (R120). -/
def parInit : Drv Unit := do
  powerOn
  let cfg ← getCfg
  onlyIf (cfg.width == 4) (initPulse 0x2)

/-- `bus.init()` on I2C-Mux4: the scan comes first (R121). -/
def i2cInit : Drv Unit := do
  i2cSelect
  powerOn
  initPulse 0x2

/-! ### The transport interface (R100) -/

/-- `bus.write(c)`. -/
def busWrite (c : Nat) : Drv Unit := do
  let cfg ← getCfg
  match cfg.variant with
  | .parallel8 => busWriteP8 c
  | .parallel4 => busWriteP4 c
  | .i2cMux4 => busWriteI2C c

/-- `bus.read(c)`. -/
def busRead (c : Nat) : Drv Byte := do
  let cfg ← getCfg
  match cfg.variant with
  | .parallel8 => parRead c
  | .parallel4 => parRead c
  | .i2cMux4 => i2cBusRead c

/-- `bus.set_backlight(en)`. -/
def busSetBacklight (en : Bool) : Drv Unit := do
  let cfg ← getCfg
  match cfg.variant with
  | .parallel8 => parSetBacklight en
  | .parallel4 => parSetBacklight en
  | .i2cMux4 => i2cSetBacklight en

/-- `bus.init()`. -/
def busInit : Drv Unit := do
  let cfg ← getCfg
  match cfg.variant with
  | .parallel8 => parInit
  | .parallel4 => parInit
  | .i2cMux4 => i2cInit

end Sys2Proof.Machine
end

