-- ==== Sys2Proof/Machine/Execute.lean ====
section
/-! DEFINITION. The internal `exec(c)` (42_execute.md R131 to R138): transfer, `ac_space` bookkeeping, completion; and the
issuing of words that every public operation is made of (30_encoding.md R73). -/

namespace Sys2Proof.Machine

open Sys2Proof

/-- `transfer(c)` (R132). -/
def transfer (c : Cmd) : Drv (Option Byte) :=
  if c.rw then do
    let v ← busRead c.toNat
    pure (some v)
  else do
    busWrite c.toNat
    pure none

/-- The address-counter space after a word (R133). -/
def acSpaceAfter (c : Cmd) (a : AcSpace) : AcSpace :=
  match decodeCmd c with
  | .setdd _ | .clear | .home _ => .ddram
  | .setcg _ => .cgram
  | _ => a

/-- `update_ac_space(c)` (R133); it emits no event. -/
def updateAcSpace (c : Cmd) : Drv Unit := update fun s => { s with acSpace := acSpaceAfter c s.acSpace }

/-- The busy poll after its start tick (R135): read BF, stop when clear, else read the ticks and stop with a warning when the
elapsed time exceeds the limit. The fuel is never what ends it (log 8; `pollLoop_succ_of_enough` in Laws/Execute). -/
def pollLoop (c : Cmd) (limit start : Nat) : Nat → Drv Unit
  | 0 => pure ()
  | fuel + 1 => do
    let v ← busRead 0x100
    if !busyFlag v then pure ()
    else do
      let now ← ticks
      if (now - start) * 1000 > limit then warnBusyTimeout c
      else pollLoop c limit start fuel

/-- A number of iterations that is always enough: one for each supplied increment, and then the counter advances by at
least 1 ms in each (10_state.md R32). -/
def pollFuel (limit : Nat) (s : State) : Nat := s.env.ticks.length + limit / 1000 + 1

/-- `complete(c)` when the bus can read (R135). -/
def busyPoll (c : Cmd) (limit : Nat) : Drv Unit := do
  let start ← ticks
  let s ← get
  pollLoop c limit start (pollFuel limit s)

/-- `complete(c)` (R134 to R136). -/
def complete (c : Cmd) : Drv Unit := do
  let cfg ← getCfg
  if cfg.canRead then busyPoll c (limitUs cfg c) else sleepUs (limitUs cfg c)

/-- `exec(c)`: returns the value of the transfer, not of the poll (R131, R137). -/
def execCmd (c : Cmd) : Drv (Option Byte) := do
  let v ← transfer c
  updateAcSpace c
  complete c
  pure v

/-- What `exec` returns, as a value for the caller (R137). -/
def execValue : Option Byte → Value
  | some v => .byte v
  | none => .nothing

/-- One command word, its result not used. -/
def issue (c : Cmd) : Drv Unit := do
  let _ ← execCmd c
  pure ()

/-- A sequence of command words, in order. -/
def issueAll : List Cmd → Drv Unit
  | [] => pure ()
  | c :: cs => do
    issue c
    issueAll cs

end Sys2Proof.Machine
end

