-- ==== Sys2Proof/Machine/Commands.lean ====
section
/-! DEFINITION. The meanings of the twelve command words (40_commands.md): each is the internal `exec` of its word (R91), as
one step, without the phase check, which belongs to the public operations (60_exceptions.md R180; log 4). -/

namespace Sys2Proof.Machine

open Sys2Proof

/-- A command word run as one step. -/
def runWord (c : Cmd) (s : State) : Host.Outcome State Fault Refusal :=
  finish (do
    let v ← execCmd c
    pure (execValue v)) s

/-- CLEAR (R80) -/
def execClear (s : State) : Host.Outcome State Fault Refusal := runWord baseClear s

/-- HOME (R81) -/
def execHome (x : Bool) (s : State) : Host.Outcome State Fault Refusal := runWord (baseHome ||| argIf x 1) s

/-- ENTRY (R82): EM is not written (10_state.md R15). -/
def execEntry (id sh : Bool) (s : State) : Host.Outcome State Fault Refusal :=
  runWord (baseEntry ||| argIf id argEntryId ||| argIf sh argEntryS) s

/-- DISPCTL (R83): DC is not written (10_state.md R15). -/
def execDispctl (d c b : Bool) (s : State) : Host.Outcome State Fault Refusal :=
  runWord (baseDispctl ||| argIf d argDispD ||| argIf c argDispC ||| argIf b argDispB) s

/-- SHIFT (R84) -/
def execShift (sc rl : Bool) (x : BitVec 2) (s : State) : Host.Outcome State Fault Refusal :=
  runWord (baseShift ||| argIf sc argShiftSc ||| argIf rl argShiftRl ||| x.setWidth 10) s

/-- FUNCSET (R85): any DL is admitted (30_encoding.md R69), and FS is not written (10_state.md R15). -/
def execFuncset (dl n f : Bool) (x : BitVec 2) (s : State) : Host.Outcome State Fault Refusal :=
  runWord (baseFuncset ||| argIf dl argFsDl ||| argIf n argFsN ||| argIf f argFsF ||| x.setWidth 10) s

/-- SETCG (R86) -/
def execSetcg (a : BitVec 6) (s : State) : Host.Outcome State Fault Refusal := runWord (baseSetcg ||| a.setWidth 10) s

/-- SETDD (R87) -/
def execSetdd (a : BitVec 7) (s : State) : Host.Outcome State Fault Refusal := runWord (baseSetdd ||| a.setWidth 10) s

/-- RDBF (R88): returns the 8 bits read. -/
def execRdbf (x : Byte) (s : State) : Host.Outcome State Fault Refusal := runWord (baseRdbf ||| x.setWidth 10) s

/-- WRDATA (R89) -/
def execWrdata (v : Byte) (s : State) : Host.Outcome State Fault Refusal := runWord (baseWrdata ||| v.setWidth 10) s

/-- RDDATA (R90): returns the 8 bits read. -/
def execRddata (x : Byte) (s : State) : Host.Outcome State Fault Refusal := runWord (baseRddata ||| x.setWidth 10) s

/-- NONE, the word 0x000, issued like any write (30_encoding.md R69). -/
def execNoneWord (s : State) : Host.Outcome State Fault Refusal := runWord 0x000 s

end Sys2Proof.Machine
end

