-- ==== Sys2Proof/Machine/Cursor.lean ====
section
/-! DEFINITION. The meanings of the cursor and display-shift operations (43_cursor.md R140 to R145). -/

namespace Sys2Proof.Machine

open Sys2Proof

/-- The column check, then the line check (R140). -/
def positionChecks (col line : Nat) : Drv Unit := do
  require (col < colCount) (.error (.e1 (.columnOutOfRange col)))
  require (line < lineCount) (.error (.e1 (.lineOutOfRange line)))

/-- `position(col, line)`, the body of `set_cursor_position` (R140, 44_text.md). -/
def position (col line : Nat) : Drv Unit := do
  positionChecks col line
  issue (setddWord col line)

/-- F4 while the chip's address counter is in CGRAM (60_exceptions.md R180, 70_reset_and_hazards.md R204). -/
def cgramCheck : Drv Unit := fun s =>
  match s.acSpace with
  | .cgram => .error (.fault .cgramPointerHazard) s
  | .unknown | .ddram => .ok () s

/-- `inverse(a)`, F3 in neither window (20_memory.md R43). -/
def inverse (a : BitVec 7) : Drv Value := fun s =>
  match ddramInverse a.toNat with
  | some (col, line) => .ok (.position col line) s
  | none => .error (.fault (.internalInvariant a)) s

/-- set_cursor_position (R140) -/
def execSetCursorPosition (col line : Nat) (s : State) : Host.Outcome State Fault Refusal :=
  finish (do
    phaseCheckReady
    position col line
    pure .nothing) s

/-- The position a busy-flag/address read stands for; a read word always returns its 8 bits (42_execute.md R137). -/
def positionOf : Option Byte → Drv Value
  | some v => inverse (addressCounter v)
  | none => pure .nothing

/-- get_cursor_position: E2, F4, then the busy-flag/address read through `exec` (R141). -/
def execGetCursorPosition (s : State) : Host.Outcome State Fault Refusal :=
  finish (do
    phaseCheckReady
    let cfg ← getCfg
    require cfg.canRead (.error (.e2 .readUnsupported))
    cgramCheck
    let v ← execCmd baseRdbf
    positionOf v) s

/-- A cursor move: the phase check, F4, one shift word with the cursor target (R142, R143). -/
def moveCursor (right : Bool) : Drv Value := do
  phaseCheckReady
  cgramCheck
  issue (shiftWord false right)
  pure .nothing

/-- move_cursor_left (R142) -/
def execMoveCursorLeft (s : State) : Host.Outcome State Fault Refusal := finish (moveCursor false) s

/-- move_cursor_right (R143) -/
def execMoveCursorRight (s : State) : Host.Outcome State Fault Refusal := finish (moveCursor true) s

/-- A display scroll: one shift word with the display target, R/L by the parameter; no F4 check (R144, R145). -/
def scrollDisplay (left : Bool) : Drv Value := do
  phaseCheckReady
  let cfg ← getCfg
  issue (shiftWord true (left == cfg.scrollRlInverted))
  pure .nothing

/-- scroll_display_left: R/L = 1 with `SCROLL_RL_INVERTED` (R144). -/
def execScrollDisplayLeft (s : State) : Host.Outcome State Fault Refusal := finish (scrollDisplay true) s

/-- scroll_display_right: R/L = 0 with `SCROLL_RL_INVERTED` (R145). -/
def execScrollDisplayRight (s : State) : Host.Outcome State Fault Refusal := finish (scrollDisplay false) s

end Sys2Proof.Machine
end

