-- ==== Sys2Proof/Machine/Escape.lean ====
section
/-! DEFINITION. The meanings of `execute_command` and `is_command_supported` (42_execute.md R130, R131). -/

namespace Sys2Proof.Machine

open Sys2Proof

/-- `execute_command(c)`: phase, range, direction, then `exec(c)` (R131, 90_conflicts.md C1). -/
def executeCommandOp (c : Nat) : Drv Value := do
  phaseCheckReady
  require (c < 1024) (.error (.e2 (.outOfRange c)))
  let cfg ← getCfg
  require (!c.testBit 8 || cfg.canRead) (.error (.e2 .readUnsupported))
  let v ← execCmd (BitVec.ofNat 10 c)
  pure (execValue v)

/-- execute_command (R131) -/
def execExecuteCommand (c : Nat) (s : State) : Host.Outcome State Fault Refusal := finish (executeCommandOp c) s

/-- `is_command_supported(c) = (c < 1024) and (c[8] = 0 or CAN_READ)` (R130). -/
def commandSupported (cfg : Config) (c : Nat) : Bool := c < 1024 && (!c.testBit 8 || cfg.canRead)

/-- is_command_supported: pure, allowed in every phase (R130). -/
def execIsCommandSupported (c : Nat) (s : State) : Host.Outcome State Fault Refusal :=
  finish (do
    let cfg ← getCfg
    pure (.truth (commandSupported cfg c))) s

end Sys2Proof.Machine
end

