-- ==== Sys2Proof/Machine/Text.lean ====
section
/-! DEFINITION. The meanings of the character, text and custom-glyph operations (44_text.md R150 to R157). -/

namespace Sys2Proof.Machine

open Sys2Proof

/-- The checks of `create_character`, in their order (R150). -/
def glyphChecks (code : Nat) (rows : List Nat) : Drv Unit := do
  require (code < cgSlots) (.error (.e1 (.cgSlotOutOfRange code)))
  require (rows.length == cgRows) (.error (.e1 (.bitmapLength rows.length)))
  match firstBadRow 0 rows with
  | some (i, v) => require false (.error (.e1 (.bitmapRowOutOfRange i v)))
  | none => pure ()

/-- The words of a glyph: the CGRAM address, then the rows as data (R150, 20_memory.md R44, R45). -/
def glyphWords (code : Nat) (rows : List Nat) : List Cmd := setcgWord code :: rows.map wrdataWord

/-- create_character (R150) -/
def execCreateCharacter (code : Nat) (rows : List Nat) (s : State) : Host.Outcome State Fault Refusal :=
  finish (do
    phaseCheckReady
    glyphChecks code rows
    issueAll (glyphWords code rows)
    pure .nothing) s

/-- map_character: no bus activity, allowed before `init` (R151). -/
def execMapCharacter (ch : Nat) (code : Int) (s : State) : Host.Outcome State Fault Refusal :=
  finish (do
    phaseCheckLive
    require (codeInRange code) (.error (.e1 (.characterCodeOutOfRange code)))
    update fun s => { s with cmap := s.cmap.put ch (BitVec.ofNat 8 code.toNat) }
    pure .nothing) s

/-- The last step of `unmap_character` (R152): delete the entry; an absent key is E1 or nothing, by the parameter. -/
def unmapKey (ch : Nat) : Drv Unit := fun s =>
  match s.cmap.get ch with
  | some _ => .ok () { s with cmap := s.cmap.del ch }
  | none => if s.cfg.unmapAbsentError then .error (.error (.e1 (.notMapped ch))) s else .ok () s

/-- unmap_character (R152) -/
def execUnmapCharacter (ch : Nat) (s : State) : Host.Outcome State Fault Refusal :=
  finish (do
    phaseCheckLive
    unmapKey ch
    pure .nothing) s

/-- The character map. -/
def getMap : Drv CharMap := fun s => .ok s.cmap s

/-- write_text: position once, then one data word per character (R154). -/
def execWriteText (col line : Nat) (text : List Nat) (s : State) : Host.Outcome State Fault Refusal :=
  finish (do
    phaseCheckReady
    position col line
    let m ← getMap
    issueAll (text.map fun ch => wrdataWord (resolve m ch))
    pure .nothing) s

/-- Explicit codes: position checks, then every code is checked, then position and the data words (R155, R156). -/
def writeCodesOp (col line : Nat) (codes : List Int) : Drv Value := do
  phaseCheckReady
  positionChecks col line
  match firstBadCode codes with
  | some k => require false (.error (.e1 (.characterCodeOutOfRange k)))
  | none => pure ()
  position col line
  issueAll (codes.map fun k => wrdataWord k.toNat)
  pure .nothing

/-- write_code (R155) -/
def execWriteCode (col line : Nat) (code : Int) (s : State) : Host.Outcome State Fault Refusal :=
  finish (writeCodesOp col line [code]) s

/-- write_codes (R156) -/
def execWriteCodes (col line : Nat) (codes : List Int) (s : State) : Host.Outcome State Fault Refusal :=
  finish (writeCodesOp col line codes) s

/-- read_code: E2, position, then the data read through `exec` (R157). -/
def execReadCode (col line : Nat) (s : State) : Host.Outcome State Fault Refusal :=
  finish (do
    phaseCheckReady
    let cfg ← getCfg
    require cfg.canRead (.error (.e2 .readUnsupported))
    position col line
    let v ← execCmd baseRddata
    pure (execValue v)) s

end Sys2Proof.Machine
end

