-- ==== Sys2Proof/Machine/Init.lean ====
section
/-! DEFINITION. The meaning of `init`, the initialization state machine (70_reset_and_hazards.md R192 to R203). -/

namespace Sys2Proof.Machine

open Sys2Proof

/-- Write `phase` (10_state.md R11). -/
def setPhase (p : Phase) : Drv Unit := update fun s => { s with phase := p }

/-- The defaults `init` writes into EM, DC and FS before it issues them (R192, decision D7). -/
def writeDefaults : Drv Unit := update fun s => { s with em := emDefault, dc := dcDefault, fs := fsDefault s.cfg }

/-- The words that zero slots `k`, `k + 1`, … of `n` slots (R198). -/
def zeroGlyphs (k : Nat) : Nat → List Cmd
  | 0 => []
  | n + 1 => glyphWords k (List.replicate cgRows 0) ++ zeroGlyphs (k + 1) n

/-- The 77 command words of `init` after `bus.init`, from the flag registers (R194 to R199). -/
def initWords (s : State) : List Cmd := [s.fs, baseClear, s.em, s.dc] ++ zeroGlyphs 0 cgSlots ++ [baseHome]

/-- The steps of `init` (R192 to R201). -/
def initSteps : Drv Value := do
  setPhase .initializing
  writeDefaults
  busInit
  let s ← get
  issueAll (initWords s)
  onlyIf s.cfg.canBl (busSetBacklight true)
  setPhase .ready
  pure .nothing

/-- "on Error(e): S.phase <- Failed; raise e" (R192, R202). -/
def failOnError (m : Drv Value) : Drv Value := fun s =>
  match m s with
  | .ok v t => .ok v t
  | .error (.error e) t => .error (.error e) { t with phase := .failed }
  | .error (.fault f) t => .error (.fault f) t
  | .error (.refused r) t => .error (.refused r) t

/-- init: allowed in Constructed and Ready, F2 in Failed (R192, R203, 60_exceptions.md R180). -/
def execInit (s : State) : Host.Outcome State Fault Refusal :=
  finish (do
    phaseCheckLive
    failOnError initSteps) s

end Sys2Proof.Machine
end

