-- ==== Sys2Proof/Machine/Mutators.lean ====
section
/-! DEFINITION. The meanings of the flag-toggle and backlight operations (45_flags.md R160 to R169). -/

namespace Sys2Proof.Machine

open Sys2Proof

/-- The two registers the mutators write (R160). -/
inductive FlagReg where
  | em
  | dc
deriving DecidableEq, Repr

/-- Read a flag register. -/
def FlagReg.read (r : FlagReg) (s : State) : Cmd :=
  match r with
  | .em => s.em
  | .dc => s.dc

/-- Write a flag register. -/
def FlagReg.write (r : FlagReg) (w : Cmd) (s : State) : State :=
  match r with
  | .em => { s with em := w }
  | .dc => { s with dc := w }

/-- `mutate(reg, f)`: write the register, then issue all of it (R160). -/
def mutate (r : FlagReg) (f : Cmd → Cmd) : Drv Value := do
  phaseCheckReady
  update fun s => r.write (f (r.read s)) s
  let s ← get
  issue (r.read s)
  pure .nothing

/-- set_display_on (R161) -/
def execSetDisplayOn (s : State) : Host.Outcome State Fault Refusal := finish (mutate .dc flagDisplayOn) s

/-- set_display_off (R162) -/
def execSetDisplayOff (s : State) : Host.Outcome State Fault Refusal := finish (mutate .dc flagDisplayOff) s

/-- set_autoscroll_on (R163) -/
def execSetAutoscrollOn (s : State) : Host.Outcome State Fault Refusal := finish (mutate .em flagAutoscrollOn) s

/-- set_autoscroll_off (R164) -/
def execSetAutoscrollOff (s : State) : Host.Outcome State Fault Refusal := finish (mutate .em flagAutoscrollOff) s

/-- set_left_to_right (R165) -/
def execSetLeftToRight (s : State) : Host.Outcome State Fault Refusal := finish (mutate .em flagLeftToRight) s

/-- set_right_to_left (R166) -/
def execSetRightToLeft (s : State) : Host.Outcome State Fault Refusal := finish (mutate .em flagRightToLeft) s

/-- `set_cursor_type(t)`: phase check, value check, then the mutation (R167). -/
def setCursorTypeOp (t : CursorArg) : Drv Value := do
  phaseCheckReady
  match t with
  | .other tag => do
    require false (.error (.e1 (.invalidCursorType tag)))
    pure .nothing
  | .known t => mutate .dc (flagCursorType t)

/-- set_cursor_type (R167) -/
def execSetCursorType (t : CursorArg) (s : State) : Host.Outcome State Fault Refusal := finish (setCursorTypeOp t) s

/-- A backlight operation: phase, capability, then the transport's `set_backlight`, which is no command word (R168, R169). -/
def backlightOp (en : Bool) : Drv Value := do
  phaseCheckReady
  let cfg ← getCfg
  require cfg.canBl (.error (.e2 .backlightUnsupported))
  busSetBacklight en
  pure .nothing

/-- set_backlight_on (R168) -/
def execSetBacklightOn (s : State) : Host.Outcome State Fault Refusal := finish (backlightOp true) s

/-- set_backlight_off (R169) -/
def execSetBacklightOff (s : State) : Host.Outcome State Fault Refusal := finish (backlightOp false) s

end Sys2Proof.Machine
end

