-- ==== Sys2Proof/Machine/Transport.lean ====
section
/-! DEFINITION. The meanings of the eleven transport functions (41_transport.md), each its rule's pseudocode as one step on
an instance of its variant (log 4); an instance of another variant does not have it (R100; log 9). -/

namespace Sys2Proof.Machine

open Sys2Proof

/-- The transport of this instance is the named one (00_scope.md R1, R100). -/
def requireVariant (v : Variant) : Drv Unit := fun s =>
  if s.cfg.variant = v then .ok () s else .error (.refused (.variantMismatch s.cfg.variant)) s

/-- A transport function without a result. -/
def runBus (v : Variant) (m : Drv Unit) (s : State) : Host.Outcome State Fault Refusal :=
  finish (do
    requireVariant v
    m
    pure .nothing) s

/-- A transport read, which returns its 8 bits. -/
def runBusRead (v : Variant) (m : Drv Byte) (s : State) : Host.Outcome State Fault Refusal :=
  finish (do
    requireVariant v
    let b ← m
    pure (.byte b)) s

/-- bus.write (Parallel-8) (R105) -/
def execBusWriteP8 (c : Nat) (s : State) : Host.Outcome State Fault Refusal := runBus .parallel8 (busWriteP8 c) s

/-- bus.write (Parallel-4) (R106) -/
def execBusWriteP4 (c : Nat) (s : State) : Host.Outcome State Fault Refusal := runBus .parallel4 (busWriteP4 c) s

/-- bus.write (I2C-Mux4) (R115) -/
def execBusWriteI2C (c : Nat) (s : State) : Host.Outcome State Fault Refusal := runBus .i2cMux4 (busWriteI2C c) s

/-- bus.read (Parallel-8) (R109) -/
def execBusReadP8 (c : Nat) (s : State) : Host.Outcome State Fault Refusal := runBusRead .parallel8 (parRead c) s

/-- bus.read (Parallel-4) (R110) -/
def execBusReadP4 (c : Nat) (s : State) : Host.Outcome State Fault Refusal := runBusRead .parallel4 (parRead c) s

/-- bus.read (I2C-Mux4) (R117) -/
def execBusReadI2C (c : Nat) (s : State) : Host.Outcome State Fault Refusal := runBusRead .i2cMux4 (i2cBusRead c) s

/-- bus.set_backlight (Parallel), on either parallel variant (R112). -/
def execBusSetBacklightPar (en : Bool) (s : State) : Host.Outcome State Fault Refusal :=
  match s.cfg.variant with
  | .parallel8 => runBus .parallel8 (parSetBacklight en) s
  | .parallel4 => runBus .parallel4 (parSetBacklight en) s
  | .i2cMux4 => .refused (.variantMismatch .i2cMux4)

/-- bus.set_backlight (I2C-Mux4) (R118) -/
def execBusSetBacklightI2C (en : Bool) (s : State) : Host.Outcome State Fault Refusal :=
  runBus .i2cMux4 (i2cSetBacklight en) s

/-- bus.init (Parallel-8) (R120) -/
def execBusInitP8 (s : State) : Host.Outcome State Fault Refusal := runBus .parallel8 parInit s

/-- bus.init (Parallel-4) (R120) -/
def execBusInitP4 (s : State) : Host.Outcome State Fault Refusal := runBus .parallel4 parInit s

/-- bus.init (I2C-Mux4) (R121) -/
def execBusInitI2C (s : State) : Host.Outcome State Fault Refusal := runBus .i2cMux4 i2cInit s

end Sys2Proof.Machine
end

