-- ==== Sys2Proof/Machine/Dispatch.lean ====
section
/-! DEFINITION. The dispatch: one arm per instruction, each a direct call of its meaning. -/

namespace Sys2Proof.Machine

open Sys2Proof

def exec (i : Instr) (s : State) : Host.Outcome State Fault Refusal :=
  match i with
  -- command words
  | .clear => Sys2Proof.Machine.execClear s
  | .home x => Sys2Proof.Machine.execHome x s
  | .entry id sh => Sys2Proof.Machine.execEntry id sh s
  | .dispctl d c b => Sys2Proof.Machine.execDispctl d c b s
  | .shift sc rl x => Sys2Proof.Machine.execShift sc rl x s
  | .funcset dl n f x => Sys2Proof.Machine.execFuncset dl n f x s
  | .setcg a => Sys2Proof.Machine.execSetcg a s
  | .setdd a => Sys2Proof.Machine.execSetdd a s
  | .rdbf x => Sys2Proof.Machine.execRdbf x s
  | .wrdata v => Sys2Proof.Machine.execWrdata v s
  | .rddata x => Sys2Proof.Machine.execRddata x s
  | .noneWord => Sys2Proof.Machine.execNoneWord s
  -- public operations
  | .setCursorPosition col line => Sys2Proof.Machine.execSetCursorPosition col line s
  | .getCursorPosition => Sys2Proof.Machine.execGetCursorPosition s
  | .moveCursorLeft => Sys2Proof.Machine.execMoveCursorLeft s
  | .moveCursorRight => Sys2Proof.Machine.execMoveCursorRight s
  | .scrollDisplayLeft => Sys2Proof.Machine.execScrollDisplayLeft s
  | .scrollDisplayRight => Sys2Proof.Machine.execScrollDisplayRight s
  | .createCharacter code rows => Sys2Proof.Machine.execCreateCharacter code rows s
  | .mapCharacter ch code => Sys2Proof.Machine.execMapCharacter ch code s
  | .unmapCharacter ch => Sys2Proof.Machine.execUnmapCharacter ch s
  | .writeText col line text => Sys2Proof.Machine.execWriteText col line text s
  | .writeCode col line code => Sys2Proof.Machine.execWriteCode col line code s
  | .writeCodes col line codes => Sys2Proof.Machine.execWriteCodes col line codes s
  | .readCode col line => Sys2Proof.Machine.execReadCode col line s
  | .setDisplayOn => Sys2Proof.Machine.execSetDisplayOn s
  | .setDisplayOff => Sys2Proof.Machine.execSetDisplayOff s
  | .setAutoscrollOn => Sys2Proof.Machine.execSetAutoscrollOn s
  | .setAutoscrollOff => Sys2Proof.Machine.execSetAutoscrollOff s
  | .setLeftToRight => Sys2Proof.Machine.execSetLeftToRight s
  | .setRightToLeft => Sys2Proof.Machine.execSetRightToLeft s
  | .setCursorType t => Sys2Proof.Machine.execSetCursorType t s
  | .setBacklightOn => Sys2Proof.Machine.execSetBacklightOn s
  | .setBacklightOff => Sys2Proof.Machine.execSetBacklightOff s
  | .init => Sys2Proof.Machine.execInit s
  | .executeCommand c => Sys2Proof.Machine.execExecuteCommand c s
  | .isCommandSupported c => Sys2Proof.Machine.execIsCommandSupported c s
  -- transport functions
  | .busWriteP8 c => Sys2Proof.Machine.execBusWriteP8 c s
  | .busWriteP4 c => Sys2Proof.Machine.execBusWriteP4 c s
  | .busWriteI2C c => Sys2Proof.Machine.execBusWriteI2C c s
  | .busReadP8 c => Sys2Proof.Machine.execBusReadP8 c s
  | .busReadP4 c => Sys2Proof.Machine.execBusReadP4 c s
  | .busReadI2C c => Sys2Proof.Machine.execBusReadI2C c s
  | .busSetBacklightPar en => Sys2Proof.Machine.execBusSetBacklightPar en s
  | .busSetBacklightI2C en => Sys2Proof.Machine.execBusSetBacklightI2C en s
  | .busInitP8 => Sys2Proof.Machine.execBusInitP8 s
  | .busInitP4 => Sys2Proof.Machine.execBusInitP4 s
  | .busInitI2C => Sys2Proof.Machine.execBusInitI2C s

end Sys2Proof.Machine
end

