-- ==== Sys2Proof/Machine/Step.lean ====
section
/-! DEFINITION. One step: serve the caller's next call (00_scope.md R3, 10_state.md R27). -/

namespace Sys2Proof.Machine

open Sys2Proof

/-- One step. With no call pending the driver's state does not change (R27, log 3). Otherwise the oldest call is taken,
fetched and run as one operation step (R3). -/
def step (s : State) : Host.Outcome State Fault Refusal :=
  match s.calls with
  | [] => .next s
  | c :: rest =>
    match fetch c with
    | .run i => exec i { s with calls := rest }
    | .fault f => .fault f
    | .refused r => .refused r

/-- The state with the command word `w` as its next call (log 3). -/
def State.withFetchWord (s : State) (nbits w : Nat) : State :=
  { s with calls := { overlaps := false, request := .word (w % 2 ^ nbits) } :: s.calls }

end Sys2Proof.Machine
end

