-- ==== Sys2Proof/Machine/Construct.lean ====
section
/-! DEFINITION. Construction of a driver with its checks (70_reset_and_hazards.md R190). -/

namespace Sys2Proof.Machine

open Sys2Proof

/-- The bits the map gives to RS, RW, E, BL, D4..D7. -/
def mapBits (m : I2CMap) : List Nat := [m.rs, m.rw, m.e, m.bl, m.d4, m.d5, m.d6, m.d7]

/-- No value twice. -/
def allDistinct : List Nat → Bool
  | [] => true
  | n :: ns => !ns.contains n && allDistinct ns

/-- A bijection of the eight names onto bits 0..7 (30_encoding.md R67). -/
def mapIsBijection (m : I2CMap) : Bool := (mapBits m).all (· < 8) && allDistinct (mapBits m)

/-- `I2C_ADDR_CFG` in [0, 127], where one is configured. -/
def addrCfgInRange (cfg : Config) : Bool :=
  match cfg.i2cAddrCfg with
  | some a => a ≤ 127
  | none => true

/-- The first check of R190 that fails, in the order of its list (log 15). -/
def badConfig (cfg : Config) : Option BadReason :=
  if !addrCfgInRange cfg then some .i2cAddress
  else if !mapIsBijection cfg.i2cMap then some .i2cMap
  else if cfg.tPowerMs < 40 then some .powerWait
  else if !allDistinct (cfg.pins.map (·.2)) then some .pinTwice
  else none

/-- Construction: E1 `BadConfig(reason)` and no instance, or the instance with every field at its reset value. -/
def construct (cfg : Config) : Except Error State :=
  match badConfig cfg with
  | some reason => .error (.e1 (.badConfig reason))
  | none => .ok (State.constructed cfg)

end Sys2Proof.Machine
end

