-- ==== Sys2Proof/Safety.lean ====
section
/-! DEFINITION. The terms claims are stated in: when a bus operation can complete, what a bus operation leaves alone, the
events of a write transfer, and the invariant of the driver. -/

namespace Sys2Proof.Machine

open Sys2Proof

/-! ### When the environment lets an operation complete -/

/-- No platform primitive fails: failures are not admitted, or none is drawn (60_exceptions.md R174). -/
def State.quiet (s : State) : Bool := !s.cfg.platformFaults || s.env.faults.all (!·)

/-- The I2C address is resolved, where the transport needs one (10_state.md R18). -/
def State.resolved (s : State) : Bool := s.cfg.variant != .i2cMux4 || s.i2cAddr.isSome

/-- A bus transfer can complete: no primitive fails and there is a device to talk to. -/
def State.busOk (s : State) : Bool := s.quiet && s.resolved

/-! ### Frames -/

/-- What any bus activity leaves alone, also one that a platform failure cuts short: every register but the line levels, the
line directions and `ac_space`; the trace is only appended to (10_state.md R31), the tick counter does not go back
(R32), and draws are taken from the front of their queues. -/
structure OnlyBus (s t : State) : Prop where
  cfg : t.cfg = s.cfg
  phase : t.phase = s.phase
  em : t.em = s.em
  dc : t.dc = s.dc
  fs : t.fs = s.fs
  cmap : t.cmap = s.cmap
  bl : t.bl = s.bl
  i2cAddr : t.i2cAddr = s.i2cAddr
  reply : t.reply = s.reply
  calls : t.calls = s.calls
  log : s.log <:+ t.log
  now : s.env.now ≤ t.env.now
  faults : t.env.faults <:+ s.env.faults
  samples : t.env.samples <:+ s.env.samples
  reads : t.env.reads <:+ s.env.reads
  scans : t.env.scans <:+ s.env.scans
  ticks : t.env.ticks <:+ s.env.ticks
  drawn : s.env.drawn ≤ t.env.drawn

/-- What a bus transfer that completed leaves alone, beside `OnlyBus`: `ac_space`; the backlight line; E is low again if it
was driven at all (41_transport.md R102); every data line has its direction or is `Out` again (R108); a parallel
transport writes no expander byte and I2C-Mux4 drives no line (R101). -/
structure BusDone (s t : State) : Prop extends OnlyBus s t where
  acSpace : t.acSpace = s.acSpace
  blLine : t.lvl.bl = s.lvl.bl
  eLow : t.lvl.e = s.lvl.e ∨ t.lvl.e = .driven false
  dir : ∀ i : Fin 8, t.dir[i] = s.dir[i] ∨ t.dir[i] = .out
  noByte : s.cfg.variant ≠ .i2cMux4 → t.lvl.i2c = s.lvl.i2c
  noLine : s.cfg.variant = .i2cMux4 →
    t.lvl.rs = s.lvl.rs ∧ t.lvl.rw = s.lvl.rw ∧ t.lvl.e = s.lvl.e ∧ t.lvl.data = s.lvl.data ∧
      t.lvl.wire = s.lvl.wire ∧ t.dir = s.dir

/-- The address-counter space after a sequence of words (42_execute.md R133). -/
def acSpaceAfterAll : List Cmd → AcSpace → AcSpace
  | [], a => a
  | c :: cs, a => acSpaceAfterAll cs (acSpaceAfter c a)

/-! ### The events of a write transfer (41_transport.md) -/

/-- The events of `pulse()` (R102). -/
def pulseEvents (cfg : Config) : List Event :=
  [.drive .e true, .sleepUs cfg.tPwUs, .drive .e false, .sleepUs cfg.tCycUs]

/-- The events of `par_write_cycle(rs, val)` (R103, R104). -/
def parCycleEvents (cfg : Config) (rs : Bool) (val : Byte) : List Event :=
  .drive .rs rs :: (if cfg.rwWired then [.drive .rw false] else [])
    ++ cfg.dataLines.map (fun i => .drive (.data i) (val.getLsbD (i.val - (8 - cfg.width))))
    ++ .sleepUs cfg.tAsUs :: pulseEvents cfg

/-- The events of `i2c_write_cycle(rs, nib)` to the device `a` with the backlight flag `bl` (R113, R114). -/
def i2cCycleEvents (cfg : Config) (a : Addr7) (bl rs : Bool) (nib : Nibble) : List Event :=
  let b := expByte cfg.i2cMap rs false false bl nib
  [.i2cWrite a b, .sleepUs cfg.tAsUs, .i2cWrite a (b ||| 1#8 <<< cfg.i2cMap.e), .sleepUs cfg.tPwUs,
    .i2cWrite a b, .sleepUs cfg.tCycUs]

/-- The events of `bus.write(c)` on Parallel-8 (R105). -/
def write8Events (cfg : Config) (c : Cmd) : List Event := parCycleEvents cfg c.rs c.db

/-- The events of `bus.write(c)` on Parallel-4: high nibble, then low nibble (R106). -/
def write4Events (cfg : Config) (c : Cmd) : List Event :=
  parCycleEvents cfg c.rs (c.hi.setWidth 8) ++ parCycleEvents cfg c.rs (c.lo.setWidth 8)

/-- The events of `bus.write(c)` on I2C-Mux4: high nibble, then low nibble (R115). -/
def writeI2CEvents (cfg : Config) (a : Addr7) (bl : Bool) (c : Cmd) : List Event :=
  i2cCycleEvents cfg a bl c.rs c.hi ++ i2cCycleEvents cfg a bl c.rs c.lo

/-- The events of `bus.write(c)` from the state `s`, by its variant. -/
def writeEvents (s : State) (c : Cmd) : List Event :=
  match s.cfg.variant with
  | .parallel8 => write8Events s.cfg c
  | .parallel4 => write4Events s.cfg c
  | .i2cMux4 => match s.i2cAddr with
    | some a => writeI2CEvents s.cfg a s.bl c
    | none => []

/-- The events of one power-on pulse of `bus.init` from the state `s` (R122). -/
def initPulseEvents (s : State) (nib : Nibble) : List Event :=
  match s.cfg.variant with
  | .parallel8 => parCycleEvents s.cfg false (nib.setWidth 8 <<< 4)
  | .parallel4 => parCycleEvents s.cfg false (nib.setWidth 8)
  | .i2cMux4 => match s.i2cAddr with
    | some a => i2cCycleEvents s.cfg a s.bl false nib
    | none => []

/-- The power-on wait and the pulses with their delays; the fourth pulse only on a 4-bit bus (R120, R121). -/
def powerOnEvents (s : State) : List Event :=
  .sleepMs s.cfg.tPowerMs :: initPulseEvents s 0x3 ++ .sleepMs s.cfg.tInit1Ms :: initPulseEvents s 0x3
    ++ .sleepMs s.cfg.tInit2Ms :: initPulseEvents s 0x3 ++ [.sleepMs s.cfg.tInit3Ms]
    ++ (if s.cfg.width = 4 then initPulseEvents s 0x2 else [])

/-! ### The answers the environment will give, and the events of a read transfer -/

/-- The bit the `k`-th `Sample` from here on returns, counting from 0, if nothing else is drawn meanwhile: the next of
the queue, then free values (10_state.md R33, log 6). -/
def State.sampleAt (s : State) (k : Nat) : Bool :=
  if h : k < s.env.samples.length then s.env.samples[k]
  else Config.freeSample (s.env.drawn + (k - s.env.samples.length))

/-- The byte the `k`-th `I2CRead` from here on returns, if nothing else is drawn meanwhile (R33, log 6). -/
def State.readAt (s : State) (k : Nat) : Byte :=
  if h : k < s.env.reads.length then s.env.reads[k]
  else Config.freeByte (s.env.drawn + (k - s.env.reads.length))

/-- The 8 bits the next `bus.read` returns: a parallel transport's samples, first sample highest (R109, R110), or the two
nibbles of the next two expander bytes (R117). -/
def State.nextRead (s : State) : Byte :=
  match s.cfg.variant with
  | .parallel8 | .parallel4 => (List.range 8).foldl (fun p k => (p <<< 1) ||| (BitVec.ofBool (s.sampleAt k)).setWidth 8) 0
  | .i2cMux4 => joinNibbles (expNibble s.cfg.i2cMap (s.readAt 0)) (expNibble s.cfg.i2cMap (s.readAt 1))

/-- The list the next `I2CScan` reports (R33, log 6, log 20). -/
def State.nextScan (s : State) : List Addr7 :=
  distinctAddrs (match s.env.scans with
    | l :: _ => l
    | [] => Config.freeScan s.env.drawn)

/-- The scan answer lets the configuration select the address `a`: the only one found, or the configured one among them
(41_transport.md R119). -/
def selects (cfg : Config) (addrs : List Addr7) (a : Addr7) : Prop :=
  match cfg.i2cAddrCfg with
  | none => addrs = [a]
  | some n => a = BitVec.ofNat 7 n ∧ addrs.any (·.toNat == n) = true

/-- The events of one cycle of a parallel read whose samples are `bits`, highest line first (R108). -/
def parReadCycleEvents (cfg : Config) (rs : Bool) (bits : List Bool) : List Event :=
  [.drive .rs rs, .drive .rw true, .sleepUs cfg.tAsUs, .drive .e true, .sleepUs cfg.tPwUs]
    ++ List.zipWith (fun i b => Event.sample (.data i) b) cfg.dataLines bits
    ++ [.drive .e false, .sleepUs cfg.tCycUs]

/-- The events of `bus.read(c)` on Parallel-8 from the state `s` (R109). -/
def read8Events (s : State) (rs : Bool) : List Event :=
  .setDir s.cfg.dataLines .inp :: parReadCycleEvents s.cfg rs ((List.range 8).map s.sampleAt)
    ++ [.setDir s.cfg.dataLines .out]

/-- The events of `bus.read(c)` on Parallel-4 from the state `s`: high nibble, then low nibble (R110). -/
def read4Events (s : State) (rs : Bool) : List Event :=
  .setDir s.cfg.dataLines .inp :: parReadCycleEvents s.cfg rs ((List.range 4).map s.sampleAt)
    ++ parReadCycleEvents s.cfg rs ((List.range' 4 4).map s.sampleAt) ++ [.setDir s.cfg.dataLines .out]

/-- The events of `i2c_read_cycle(rs)` from the device `a` that answers `r` (R116). -/
def i2cReadCycleEvents (cfg : Config) (a : Addr7) (bl rs : Bool) (r : Byte) : List Event :=
  let b := expByte cfg.i2cMap rs true false bl 0xF
  [.i2cWrite a b, .sleepUs cfg.tAsUs, .i2cWrite a (b ||| 1#8 <<< cfg.i2cMap.e), .sleepUs cfg.tPwUs, .i2cRead a r,
    .i2cWrite a b, .sleepUs cfg.tCycUs]

/-- The events of `bus.read(c)` on I2C-Mux4 from the state `s` (R117). -/
def readI2CEvents (s : State) (a : Addr7) (rs : Bool) : List Event :=
  i2cReadCycleEvents s.cfg a s.bl rs (s.readAt 0) ++ i2cReadCycleEvents s.cfg a s.bl rs (s.readAt 1)

/-- The events of `bus.read(c)` from the state `s`, by its variant. -/
def readEvents (s : State) (rs : Bool) : List Event :=
  match s.cfg.variant with
  | .parallel8 => read8Events s rs
  | .parallel4 => read4Events s rs
  | .i2cMux4 => match s.i2cAddr with
    | some a => readI2CEvents s a rs
    | none => []

/-! ### A command word: transfer, then completion -/

/-- The address-counter space after a command word, from the words' names (40_commands.md R80, R81, R86, R87). -/
def spaceAfter : Instr → AcSpace → AcSpace
  | .clear, _ | .home _, _ | .setdd _, _ => .ddram
  | .setcg _, _ => .cgram
  | _, a => a

/-- The transfer of the word `c` from `s` ends in `m`: its `bus.write`, or its `bus.read`, which answers the next 8 bits, with
exactly its events (42_execute.md R132). -/
structure Transferred (c : Cmd) (s m : State) : Prop where
  write : c.rw = false → busWrite c.toNat s = .ok () m ∧ m.trace = s.trace ++ writeEvents s c
  read : c.rw = true → busRead c.toNat s = .ok s.nextRead m ∧ m.trace = s.trace ++ readEvents s c.rs
  frame : BusDone s m

/-- The word `c` run from `s` ends in `t`: its transfer, then `ac_space` by the word's name, then the word's completion, for
write and read words alike (42_execute.md R131 to R134, decision D38). -/
def WordRun (c : Cmd) (s t : State) : Prop :=
  ∃ m, Transferred c s m ∧ complete c { m with acSpace := spaceAfter (decodeCmd c) m.acSpace } = .ok () t

/-- The words run in order, each to the end of its completion before the next begins (70_reset_and_hazards.md R207). -/
inductive WordsRun : List Cmd → State → State → Prop where
  | nil (s : State) : WordsRun [] s s
  | cons {c : Cmd} {cs : List Cmd} {s t u : State} : WordRun c s t → WordsRun cs t u → WordsRun (c :: cs) s u

/-- The words `ws` issued in order from `s` end in `u`, each with its transfer and its completion (30_encoding.md R73), and
nothing changes but what bus transfers change and `ac_space`, which follows the words (42_execute.md R133). -/
structure Issued (ws : List Cmd) (s u : State) : Prop where
  run : issueAll ws s = .ok () u
  words : WordsRun ws s u
  frame : BusDone { s with acSpace := acSpaceAfterAll ws s.acSpace } u

/-- The busy poll of 42_execute.md R135 as a relation, without a bound on its length: from the state `s` after the start
tick it ends in `t`. -/
inductive Polled (c : Cmd) (limit start : Nat) : State → State → Prop where
  /-- the busy flag reads 0 -/
  | clear {s t : State} {v : Byte} : busRead 0x100 s = .ok v t → busyFlag v = false → Polled c limit start s t
  /-- it reads 1 and the limit is exceeded: a warning, and the operation goes on -/
  | timeout {s t u : State} {v : Byte} {now : Nat} : busRead 0x100 s = .ok v t → busyFlag v = true →
      ticks t = .ok now u → limit < (now - start) * 1000 → Polled c limit start s { u with log := .warn c :: u.log }
  /-- it reads 1 within the limit: poll again -/
  | again {s t u w : State} {v : Byte} {now : Nat} : busRead 0x100 s = .ok v t → busyFlag v = true →
      ticks t = .ok now u → (now - start) * 1000 ≤ limit → Polled c limit start u w → Polled c limit start s w

/-! ### The words of init -/

/-- The 77 command words `init` issues after `bus.init` (70_reset_and_hazards.md R194 to R199). -/
def initWordList (cfg : Config) : List Cmd :=
  [0x020 ||| (if cfg.variant = .parallel8 then 0x010 else 0) ||| 0x008 ||| (if cfg.fontF then 0x004 else 0), 0x001, 0x006,
    0x00C]
  ++ (List.range 8).flatMap (fun k => (0x040 ||| BitVec.ofNat 10 (8 * k)) :: List.replicate 8 0x200) ++ [0x002]

/-- The event of `bus.set_backlight(en)` from the state `s` (41_transport.md R112, R118). -/
def backlightEvents (s : State) (en : Bool) : List Event :=
  match s.cfg.variant with
  | .parallel8 | .parallel4 => [.drive .bl (if en then s.cfg.blActiveLevel else !s.cfg.blActiveLevel)]
  | .i2cMux4 => match s.i2cAddr with
    | some a => [.i2cWrite a (if en then 1#8 <<< s.cfg.i2cMap.bl else 0)]
    | none => []

/-! ### Classes of events -/

/-- An event that reads from the chip, the expander or the tick counter, or that switches a line for a read. -/
def Event.isRead : Event → Bool
  | .sample _ _ | .i2cRead _ _ | .ticks _ | .setDir _ _ => true
  | .drive _ _ | .sleepUs _ | .sleepMs _ | .i2cScan _ | .i2cWrite _ _ | .warn _ | .platformFail _ => false

/-- The busy-timeout warning. -/
def Event.isWarn : Event → Bool
  | .warn _ => true
  | .drive _ _ | .setDir _ _ | .sample _ _ | .sleepUs _ | .sleepMs _ | .ticks _ | .i2cScan _ | .i2cWrite _ _ | .i2cRead _ _
  | .platformFail _ => false

/-- Where an I2C transfer goes, and what a written byte is made of: the device `a`, and the composition of 30_encoding.md
R67 with a backlight bit that `bl` admits (10_state.md R17, R18; 41_transport.md R113). -/
def Event.i2cOk (m : I2CMap) (a : Option Addr7) (bl : Bool → Prop) : Event → Prop
  | .i2cWrite d b => a = some d ∧ ∃ rs rw e l nib, bl l ∧ b = expByte m rs rw e l nib
  | .i2cRead d _ => a = some d
  | .drive _ _ | .setDir _ _ | .sample _ _ | .sleepUs _ | .sleepMs _ | .ticks _ | .i2cScan _ | .warn _
  | .platformFail _ => True

/-! ### Classes of instructions -/

/-- A public operation, callable by the caller (60_exceptions.md R184): a row of format `api`. -/
def isPublic : Instr → Bool
  | .setCursorPosition _ _ | .getCursorPosition | .moveCursorLeft | .moveCursorRight | .scrollDisplayLeft
  | .scrollDisplayRight | .createCharacter _ _ | .mapCharacter _ _ | .unmapCharacter _ | .writeText _ _ _
  | .writeCode _ _ _ | .writeCodes _ _ _ | .readCode _ _ | .setDisplayOn | .setDisplayOff | .setAutoscrollOn
  | .setAutoscrollOff | .setLeftToRight | .setRightToLeft | .setCursorType _ | .setBacklightOn | .setBacklightOff
  | .init | .executeCommand _ | .isCommandSupported _ => true
  | .clear | .home _ | .entry _ _ | .dispctl _ _ _ | .shift _ _ _ | .funcset _ _ _ _ | .setcg _ | .setdd _ | .rdbf _
  | .wrdata _ | .rddata _ | .noneWord | .busWriteP8 _ | .busWriteP4 _ | .busWriteI2C _ | .busReadP8 _ | .busReadP4 _
  | .busReadI2C _ | .busSetBacklightPar _ | .busSetBacklightI2C _ | .busInitP8 | .busInitP4 | .busInitI2C => false

/-- The public operations that may be called before `init` (60_exceptions.md R180). -/
def allowedBeforeInit : Instr → Bool
  | .init | .mapCharacter _ _ | .unmapCharacter _ | .isCommandSupported _ => true
  | _ => false

/-! ### The invariant -/

/-- What holds in every state between steps (10_state.md R11 to R20): the flag registers hold legal words, the character map
is canonical, `Initializing` is never visible, an address is there exactly when an I2C transport needs it, and outside
`Failed` the data lines are outputs and E is not high. -/
structure Inv (s : State) : Prop where
  em : s.em &&& 0x3FC = 0x004
  dc : s.dc &&& 0x3F8 = 0x008
  fs : s.fs = fsDefault s.cfg
  cmap : s.cmap.wf = true
  phase : s.phase ≠ .initializing
  noAddr : s.cfg.variant ≠ .i2cMux4 → s.i2cAddr = none
  addr : s.phase = .ready → s.cfg.variant = .i2cMux4 → s.i2cAddr ≠ none
  bl : s.cfg.canBl = false → s.bl = false
  dir : s.phase ≠ .failed → ∀ i : Fin 8, s.dir[i] = .out
  e : s.phase ≠ .failed → s.lvl.e ≠ .driven true

end Sys2Proof.Machine
end

