-- ==== Sys2Proof/Certificates/Slice0/Obligations.lean ====
section
/-! DEFINITION. The statements for the provers, from the rules of the spec. `OBLIGATIONS.json` lists each with its tier,
basis and citations. -/

section

open Sys2Proof Sys2Proof.Machine

/-! ### Reset, calls and encodings -/

/-- Every field after construction (10_state.md section 1, 70_reset_and_hazards.md R190; the values are the spec's decisions
D5, D6, D22, D27, D33, log 22), and no event. -/
def Obligations.ConstructionResetValues : Prop :=
  ∀ cfg : Config,
    let s := State.constructed cfg
    s.cfg = cfg ∧ s.phase = .constructed ∧ s.em = 0x006 ∧ s.dc = 0x00C ∧
    s.fs = 0x020 ||| (if cfg.variant = .parallel8 then 0x010 else 0) ||| 0x008 ||| (if cfg.fontF then 0x004 else 0) ∧
    s.cmap = [] ∧ s.bl = false ∧ s.i2cAddr = none ∧ (∀ i : Fin 8, s.dir[i] = .out) ∧
    s.lvl.rs = .unknown ∧ s.lvl.rw = .unknown ∧ s.lvl.e = .unknown ∧ s.lvl.bl = .unknown ∧
    (∀ i : Fin 8, s.lvl.data[i] = .unknown) ∧ (∀ i : Fin 8, s.lvl.wire[i] = .unknown) ∧ s.lvl.i2c = .unknown ∧ s.acSpace = .unknown ∧ s.trace = []

/-- Construction succeeds exactly on the configurations that pass the four checks, and otherwise raises E1 `BadConfig` with
no instance (70_reset_and_hazards.md R190, decision D26). That the pin check looks at the pin list of every variant, where
R190 speaks of a parallel pin, is the model's choice (log 2); which reason is named when several checks fail is too
(log 15), and is not stated. -/
def Obligations.ConstructionChecks : Prop :=
  ∀ cfg : Config,
    (construct cfg = .ok (State.constructed cfg) ↔
      (∀ a, cfg.i2cAddrCfg = some a → a ≤ 127) ∧
      [cfg.i2cMap.rs, cfg.i2cMap.rw, cfg.i2cMap.e, cfg.i2cMap.bl, cfg.i2cMap.d4, cfg.i2cMap.d5, cfg.i2cMap.d6,
        cfg.i2cMap.d7].Perm (List.range 8) ∧
      40 ≤ cfg.tPowerMs ∧ (cfg.pins.map (·.2)).Nodup) ∧
    (construct cfg = .ok (State.constructed cfg) ∨ ∃ reason, construct cfg = .error (.e1 (.badConfig reason)))

/-- The invariant holds after construction, for every configuration, and at `State.reset`. -/
def Obligations.ConstructionMeetsInv : Prop :=
  (∀ cfg : Config, Inv (State.constructed cfg)) ∧ Inv State.reset

/-- A step serves the oldest call: a word below 1024 runs as the command it decodes to, a well-typed operation as itself, in
both cases with the call taken; with no call the state does not change (00_scope.md R3, 10_state.md R27; how a word decodes
is 30_encoding.md R64). A word placed as the next call is what the next step runs. The model's choices: the queue of calls
(log 3), and that a call may be a raw command word or an internal transport function, run as a step of its own (log 4),
while the spec's caller does not call these directly (60_exceptions.md R184). -/
def Obligations.StepRunsTheCalledInstruction : Prop :=
  ∀ (s : State) (rest : List Call),
    (∀ w, w < 1024 → s.calls = ⟨false, .word w⟩ :: rest →
      step s = exec (decodeCmd (BitVec.ofNat 10 w)) { s with calls := rest }) ∧
    (∀ i, i.wf = true → s.calls = ⟨false, .op i⟩ :: rest → step s = exec i { s with calls := rest }) ∧
    (s.calls = [] → step s = .next s) ∧
    (∀ nbits w i, decodeTableWord nbits w = some i → step (s.withFetchWord nbits w) = exec i s)

/-- The calls that do not run: an overlapping call is F5 before anything else (20_memory.md R54, 60_exceptions.md R178,
R180); a word above bit 9, an argument outside its type and a name that is no operation are refused (R182, log 12), in
every phase: that this comes before the phase faults is the model's choice (log 26). -/
def Obligations.CallsThatDoNotRun : Prop :=
  ∀ (s : State) (rest : List Call),
    (∀ r, s.calls = ⟨true, r⟩ :: rest → step s = .fault .concurrentCall) ∧
    (∀ w, 1024 ≤ w → s.calls = ⟨false, .word w⟩ :: rest → step s = .refused (.wordOutOfRange w)) ∧
    (∀ i, i.wf = false → s.calls = ⟨false, .op i⟩ :: rest → step s = .refused .illTypedArgument) ∧
    (∀ name, s.calls = ⟨false, .unknown name⟩ :: rest → step s = .refused (.unknownOperation name))

/-- A written-out word of each command of 30_encoding.md R65 decodes to it, with its operands (the words of
95_test_vectors.md section 2.1 among them). -/
def Obligations.SampleWordsDecode : Prop :=
  decodeTableWord 16 0b0000000001 = some .clear ∧ decodeTableWord 16 0b0000000010 = some (.home false) ∧
  decodeTableWord 16 0b0000000011 = some (.home true) ∧ decodeTableWord 16 0b0000000110 = some (.entry true false) ∧
  decodeTableWord 16 0b0000001101 = some (.dispctl true false true) ∧
  decodeTableWord 16 0b0000011111 = some (.shift true true 0b11) ∧
  decodeTableWord 16 0b0000101000 = some (.funcset false true false 0) ∧
  decodeTableWord 16 0b0001111111 = some (.setcg 63) ∧ decodeTableWord 16 0b0011100111 = some (.setdd 0x67) ∧
  decodeTableWord 16 0b0101111111 = some (.rdbf 0x7F) ∧ decodeTableWord 16 0b1001000001 = some (.wrdata 0x41) ∧
  decodeTableWord 16 0b1110101011 = some (.rddata 0xAB) ∧ decodeTableWord 16 0 = some .noneWord ∧
  decodeTableWord 16 0x400 = none

/-- Decoding the word of an instruction gives it back with every operand, and every 10-bit word is the word of what it decodes
to: the encoding of 30_encoding.md R64, R65 is a bijection onto the 1024 words (R69). -/
def Obligations.EncodeDecodeAgree : Prop :=
  (∀ (i : Instr) (c : Cmd), encode i = some c → decode c.toNat = .ok i) ∧
  (∀ w : Cmd, encode (decodeCmd w) = some w)

/-! ### Whole-machine rules -/

/-- Every step keeps the invariant of the driver (10_state.md R11 to R20). -/
def Obligations.StepKeepsInv : Prop :=
  ∀ s t : State, Inv s → step s = .next t → Inv t

/-- The transitions of `phase` are exactly these (10_state.md R11): construction sets `Constructed`; `init` from `Constructed`
or `Ready` ends in `Ready` on success and in `Failed` on any error; an E3 elsewhere sets `Failed`; nothing leaves
`Failed`; `Initializing` is not visible between operations. -/
def Obligations.PhaseTransitions : Prop :=
  (∀ cfg : Config, (State.constructed cfg).phase = .constructed) ∧
  (∀ s t : State, s.phase ≠ .initializing → step s = .next t → t.phase ≠ .initializing) ∧
  (∀ s t : State, s.phase = .failed → step s = .next t → t.phase = .failed) ∧
  (∀ s t : State, exec .init s = .next t →
    s.phase ≠ .failed ∧
    ((t.reply = .returned .nothing ∧ t.phase = .ready) ∨ (∃ e, t.reply = .error e) ∧ t.phase = .failed)) ∧
  (∀ (i : Instr) (s t : State), i ≠ .init → exec i s = .next t →
    ((∃ info, t.reply = .error (.e3 info)) ∧ t.phase = .failed) ∨
    ((¬ ∃ info, t.reply = .error (.e3 info)) ∧ t.phase = s.phase))

/-- The phase faults: in `Failed` every public operation but `is_command_supported` faults F2, and in `Constructed` every one
but `init`, `map_character`, `unmap_character` and `is_command_supported` faults F1, whatever its operands
(60_exceptions.md R178, R180, decision D24). -/
def Obligations.PhaseFaults : Prop :=
  ∀ (i : Instr) (s : State), isPublic i = true →
    (s.phase = .failed → (∀ c, i ≠ .isCommandSupported c) → exec i s = .fault .useAfterFailure) ∧
    (s.phase = .constructed → allowedBeforeInit i = false → exec i s = .fault .notReady)

/-- An operation that raises E1 or E2 leaves the state exactly as it was; the caller gets the error (60_exceptions.md R171,
R172, R176, decision D28). -/
def Obligations.ValidationErrorsChangeNothing : Prop :=
  ∀ (i : Instr) (s t : State), Inv s → exec i s = .next t →
    (∀ info, t.reply = .error (.e1 info) → t = { s with reply := .error (.e1 info) }) ∧
    (∀ info, t.reply = .error (.e2 info) → t = { s with reply := .error (.e2 info) })

/-- A platform failure is recorded as the last event before E3 `PlatformError` of that primitive, and only where
`PLATFORM_FAULTS` admits it (60_exceptions.md R174, decision D25). -/
def Obligations.PlatformFailureIsRecorded : Prop :=
  ∀ (i : Instr) (s t : State) (p : Primitive), exec i s = .next t → t.reply = .error (.e3 (.platformError p)) →
    s.cfg.platformFaults = true ∧ ∃ evs, t.trace = s.trace ++ evs ++ [.platformFail p]

/-- The trace is only appended to, also by an operation that ends in an error (10_state.md R31); the tick counter never goes
back (R32). -/
def Obligations.TraceAndTicksOnlyGrow : Prop :=
  ∀ s t : State, step s = .next t → s.trace <+: t.trace ∧ s.env.now ≤ t.env.now

/-- The configuration record is read-only, and `WIDTH`, `CAN_READ` and `CAN_BL` are functions of it (00_scope.md R5). -/
def Obligations.ConfigurationIsReadOnly : Prop :=
  (∀ s t : State, step s = .next t → t.cfg = s.cfg) ∧
  (∀ cfg : Config,
    cfg.width = (if cfg.variant = .parallel8 then 8 else 4) ∧
    cfg.canRead = (if cfg.variant = .i2cMux4 then cfg.i2cCanRead else cfg.rwWired) ∧
    cfg.canBl = (if cfg.variant = .i2cMux4 then true else cfg.blWired))

/-- Only `map_character` and `unmap_character` write the character map, and they do no bus I/O; the map keeps unique keys,
and it is its entries alone: two maps that give every character the same code are equal, so insertion order is irrelevant;
and its keys are Unicode scalar values after construction and stay so, since a step refuses a call with any other
(10_state.md R16; its codes are bytes by their type). -/
def Obligations.CharacterMapWriters : Prop :=
  (∀ (i : Instr) (s t : State), exec i s = .next t →
    ((∀ ch code, i ≠ .mapCharacter ch code) → (∀ ch, i ≠ .unmapCharacter ch) → t.cmap = s.cmap) ∧
    (∀ ch code, i = .mapCharacter ch code → t.trace = s.trace) ∧
    (∀ ch, i = .unmapCharacter ch → t.trace = s.trace) ∧
    (s.cmap.wf = true → t.cmap.wf = true)) ∧
  (∀ m m' : CharMap, m.wf = true → m'.wf = true → (∀ ch, m.get ch = m'.get ch) → m = m') ∧
  (∀ cfg : Config, ∀ cell ∈ (State.constructed cfg).cmap, isScalar cell.1 = true) ∧
  (∀ s t : State, step s = .next t → (∀ cell ∈ s.cmap, isScalar cell.1 = true) →
    ∀ cell ∈ t.cmap, isScalar cell.1 = true)

/-- Who writes the other registers: `EM` only its four mutators and `init`, `DC` only its three and `init`, `FS` only `init`
(10_state.md section 1, R15), `bl` only the backlight operations and `init` (R17), `i2c_addr` only `init` and
`bus.init` of I2C-Mux4 (R18). A raw entry-mode, display-control or function-set word writes none of them (decision D32). -/
def Obligations.RegisterWriters : Prop :=
  ∀ (i : Instr) (s t : State), exec i s = .next t →
    (i ≠ .init → i ≠ .setAutoscrollOn → i ≠ .setAutoscrollOff → i ≠ .setLeftToRight → i ≠ .setRightToLeft →
      t.em = s.em) ∧
    (i ≠ .init → i ≠ .setDisplayOn → i ≠ .setDisplayOff → (∀ c, i ≠ .setCursorType c) → t.dc = s.dc) ∧
    (i ≠ .init → t.fs = s.fs) ∧
    (i ≠ .init → i ≠ .setBacklightOn → i ≠ .setBacklightOff → (∀ b, i ≠ .busSetBacklightPar b) →
      (∀ b, i ≠ .busSetBacklightI2C b) → t.bl = s.bl) ∧
    (i ≠ .init → i ≠ .busInitI2C → t.i2cAddr = s.i2cAddr)

/-- Every expander byte goes to `i2c_addr` and carries the backlight flag, the one before the operation or the one it sets,
and every expander read is from `i2c_addr` (10_state.md R17, R18; 41_transport.md R113). -/
def Obligations.ExpanderBytesCarryTheBacklight : Prop :=
  ∀ (i : Instr) (s t : State), exec i s = .next t →
    ∃ evs, t.trace = s.trace ++ evs ∧
      ∀ e ∈ evs, e.i2cOk s.cfg.i2cMap t.i2cAddr (fun l => l = s.bl ∨ l = t.bl)

/-- The warning is raised only by the busy poll, so only when the bus can read; it leaves the operation's result alone: a word
whose poll timed out still completes (60_exceptions.md R175). -/
def Obligations.WarningsNeedReadableBus : Prop :=
  ∀ (i : Instr) (s t : State), exec i s = .next t → s.cfg.canRead = false →
    ∃ evs, t.trace = s.trace ++ evs ∧ ∀ e ∈ evs, e.isWarn = false

/-! ### Command words -/

/-- A write word completes: it is its transfer, whose events come first, and then its completion (`FixedDelayCompletion`,
`BusyPollEnds`); `ac_space` follows the word, nothing is returned, and no flag register or other field changes but what a
bus transfer drives (40_commands.md R80 to R87, R89, R91; 42_execute.md R131 to R134; 30_encoding.md R69). -/
def Obligations.WriteWordsComplete : Prop :=
  ∀ (i : Instr) (c : Cmd) (s : State), encode i = some c → c.getLsbD 8 = false → s.busOk = true →
    ∃ u evs, WordRun c s u ∧ exec i s = .next (returnValue .nothing u) ∧
      BusDone { s with acSpace := spaceAfter i s.acSpace, reply := .returned .nothing } (returnValue .nothing u) ∧
      u.trace = s.trace ++ writeEvents s c ++ evs

/-- On a write-only bus a word is its transfer and one delay, long for CLEAR and HOME and short for every other word
(40_commands.md examples of R80 to R89; 30_encoding.md R70, decision D9; 42_execute.md R134, R136). -/
def Obligations.WriteOnlyWordTrace : Prop :=
  ∀ (i : Instr) (c : Cmd) (s : State), encode i = some c → c.getLsbD 8 = false → s.busOk = true →
    s.cfg.canRead = false →
    ∃ t, exec i s = .next t ∧ t.reply = .returned .nothing ∧
      t.trace = s.trace ++ writeEvents s c ++
        [.sleepUs (if c = 0x001 ∨ c = 0x002 ∨ c = 0x003 then s.cfg.tLongUs else s.cfg.tShortUs)]

/-- A read word on a readable bus completes: it is its transfer, whose events come first, and then its completion, as for
every word (decision D38); it returns the 8 bits of its own transfer and leaves `ac_space` and every register alone; on a
write-only bus it raises E2 with no event (40_commands.md R88, R90, R91; 41_transport.md R111; 42_execute.md R131, R132,
R134, R137). -/
def Obligations.ReadWords : Prop :=
  ∀ (x : Byte) (s : State),
    (s.cfg.canRead = true → s.busOk = true →
      (∃ u evs, WordRun (0x100 ||| x.setWidth 10) s u ∧
        exec (.rdbf x) s = .next (returnValue (.byte s.nextRead) u) ∧
        BusDone { s with reply := .returned (.byte s.nextRead) } (returnValue (.byte s.nextRead) u) ∧
        u.trace = s.trace ++ readEvents s false ++ evs) ∧
      (∃ u evs, WordRun (0x300 ||| x.setWidth 10) s u ∧
        exec (.rddata x) s = .next (returnValue (.byte s.nextRead) u) ∧
        BusDone { s with reply := .returned (.byte s.nextRead) } (returnValue (.byte s.nextRead) u) ∧
        u.trace = s.trace ++ readEvents s true ++ evs)) ∧
    (s.cfg.canRead = false →
      exec (.rdbf x) s = .next { s with reply := .error (.e2 .readUnsupported) } ∧
      exec (.rddata x) s = .next { s with reply := .error (.e2 .readUnsupported) })

/-- Completion on a bus that cannot read is the fixed delay, with no tick read and no warning (42_execute.md R136). -/
def Obligations.FixedDelayCompletion : Prop :=
  ∀ (c : Cmd) (s : State), s.cfg.canRead = false →
    ∃ t, complete c s = .ok () t ∧ t.trace = s.trace ++ [.sleepUs (limitUs s.cfg c)] ∧
      t = { s with log := t.log }

/-- On a readable bus completion is the busy poll of 42_execute.md R135 from the start tick on, and it always ends: with the
busy flag clear, or at the first tick past the limit with a warning and no error (R32's fairness; how the model's ticks
meet it is log 8). -/
def Obligations.BusyPollEnds : Prop :=
  ∀ (c : Cmd) (s : State), s.cfg.canRead = true → s.busOk = true →
    ∃ start u t, ticks s = .ok start u ∧ complete c s = .ok () t ∧
      Polled c (if c = 0x001 ∨ c = 0x002 ∨ c = 0x003 then s.cfg.tLongUs else s.cfg.tShortUs) start u t ∧
      (∀ t', Polled c (if c = 0x001 ∨ c = 0x002 ∨ c = 0x003 then s.cfg.tLongUs else s.cfg.tShortUs) start u t' → t' = t)

/-! ### execute_command and is_command_supported -/

/-- `execute_command(c)` in `Ready`: E2 for a word above bit 9, E2 for a read word on a write-only bus, in that order and
with no event; otherwise it runs the word `c` spells (42_execute.md R131, R132, R137; 90_conflicts.md C1). -/
def Obligations.ExecuteCommandRunsTheWord : Prop :=
  ∀ (c : Nat) (s : State), s.phase = .ready →
    (1024 ≤ c → exec (.executeCommand c) s = .next { s with reply := .error (.e2 (.outOfRange c)) }) ∧
    (c < 1024 → c.testBit 8 = true → s.cfg.canRead = false →
      exec (.executeCommand c) s = .next { s with reply := .error (.e2 .readUnsupported) }) ∧
    (c < 1024 → c.testBit 8 = false ∨ s.cfg.canRead = true → s.busOk = true →
      ∃ u t, WordRun (BitVec.ofNat 10 c) s u ∧
        t = returnValue (if c.testBit 8 then .byte s.nextRead else .nothing) u ∧
        exec (.executeCommand c) s = .next t ∧ exec (decodeCmd (BitVec.ofNat 10 c)) s = .next t ∧
        BusDone { s with
          acSpace := spaceAfter (decodeCmd (BitVec.ofNat 10 c)) s.acSpace
          reply := .returned (if c.testBit 8 then .byte s.nextRead else .nothing) } t)

/-- `is_command_supported(c)` is pure and answers in every phase (42_execute.md R130, decision D24). -/
def Obligations.CommandSupportAnswer : Prop :=
  ∀ (c : Nat) (s : State),
    exec (.isCommandSupported c) s = .next { s with
      reply := .returned (.truth (decide (c < 1024 ∧ (c.testBit 8 = false ∨ s.cfg.canRead = true)))) }

/-! ### Cursor -/

/-- `set_cursor_position`: the SETDD word of the position, or E1 for the column before the line, with no event (43_cursor.md
R140, 20_memory.md R42, decision D28). -/
def Obligations.SetCursorPosition : Prop :=
  ∀ (col line : Nat) (s : State), s.phase = .ready →
    (col ≤ 39 → line ≤ 1 → s.busOk = true →
      ∃ u, Issued [0x080 ||| BitVec.ofNat 10 ((if line = 0 then 0x00 else 0x40) + col)] s u ∧ u.acSpace = .ddram ∧
        exec (.setCursorPosition col line) s = .next (returnValue .nothing u)) ∧
    (39 < col → exec (.setCursorPosition col line) s = .next { s with reply := .error (.e1 (.columnOutOfRange col)) }) ∧
    (col ≤ 39 → 1 < line →
      exec (.setCursorPosition col line) s = .next { s with reply := .error (.e1 (.lineOutOfRange line)) })

/-- `get_cursor_position`: E2 before F4, then the busy-flag/address read, whose 7 address bits give the position, or F3 in
neither window (43_cursor.md R141, 20_memory.md R43, decisions D27, D41). -/
def Obligations.GetCursorPosition : Prop :=
  ∀ s : State, s.phase = .ready →
    (s.cfg.canRead = false → exec .getCursorPosition s = .next { s with reply := .error (.e2 .readUnsupported) }) ∧
    (s.cfg.canRead = true → s.acSpace = .cgram → exec .getCursorPosition s = .fault .cgramPointerHazard) ∧
    (s.cfg.canRead = true → s.acSpace ≠ .cgram → s.busOk = true →
      ∃ u, execCmd 0x100 s = .ok (some s.nextRead) u ∧ WordRun 0x100 s u ∧ BusDone s u ∧
        (∀ col line, col ≤ 39 → line ≤ 1 → s.nextRead.toNat % 128 = (if line = 0 then 0x00 else 0x40) + col →
          exec .getCursorPosition s = .next (returnValue (.position col line) u)) ∧
        ((∀ col line, col ≤ 39 → line ≤ 1 → s.nextRead.toNat % 128 ≠ (if line = 0 then 0x00 else 0x40) + col) →
          exec .getCursorPosition s = .fault (.internalInvariant (s.nextRead.extractLsb' 0 7))))

/-- The position a busy-flag/address value stands for is the one `set_cursor_position` sends: the translations of
20_memory.md R42 and R43 are inverse to each other on the 80 positions, and no other address has a position. -/
def Obligations.AddressTranslationInverse : Prop :=
  (∀ col line, col ≤ 39 → line ≤ 1 → ddramInverse (ddramAddr col line) = some (col, line) ∧
    (ddramAddr col line ≤ 0x27 ∨ 0x40 ≤ ddramAddr col line ∧ ddramAddr col line ≤ 0x67)) ∧
  (∀ a col line, ddramInverse a = some (col, line) → col ≤ 39 ∧ line ≤ 1 ∧ ddramAddr col line = a)

/-- The cursor moves issue one shift word with the cursor target, and fault F4 while the address counter is in CGRAM
(43_cursor.md R142, R143, decision D27). -/
def Obligations.MoveCursor : Prop :=
  ∀ s : State, s.phase = .ready →
    (s.acSpace = .cgram → exec .moveCursorLeft s = .fault .cgramPointerHazard ∧
      exec .moveCursorRight s = .fault .cgramPointerHazard) ∧
    (s.acSpace ≠ .cgram → s.busOk = true →
      (∃ u, Issued [0x010] s u ∧ u.acSpace = s.acSpace ∧ exec .moveCursorLeft s = .next (returnValue .nothing u)) ∧
      (∃ u, Issued [0x014] s u ∧ u.acSpace = s.acSpace ∧ exec .moveCursorRight s = .next (returnValue .nothing u)))

/-- The scrolls issue one shift word with the display target, R/L by `SCROLL_RL_INVERTED`, in any address-counter space
(43_cursor.md R144, R145, decisions D27, D30). -/
def Obligations.ScrollDisplay : Prop :=
  ∀ s : State, s.phase = .ready → s.busOk = true →
    (∃ u, Issued [if s.cfg.scrollRlInverted then 0x01C else 0x018] s u ∧ u.acSpace = s.acSpace ∧
      exec .scrollDisplayLeft s = .next (returnValue .nothing u)) ∧
    (∃ u, Issued [if s.cfg.scrollRlInverted then 0x018 else 0x01C] s u ∧ u.acSpace = s.acSpace ∧
      exec .scrollDisplayRight s = .next (returnValue .nothing u))

/-! ### Glyphs, characters, text -/

/-- `create_character` issues the slot's CGRAM address and its eight rows, and leaves the address counter in CGRAM
(44_text.md R150, 20_memory.md R44, R45). -/
def Obligations.CreateCharacterIssuesTheGlyph : Prop :=
  ∀ (code : Nat) (rows : List Nat) (s : State), s.phase = .ready → code ≤ 7 → rows.length = 8 → (∀ v ∈ rows, v ≤ 31) →
    s.busOk = true →
    ∃ u, Issued ((0x040 ||| BitVec.ofNat 10 (8 * code)) :: rows.map fun v => 0x200 ||| BitVec.ofNat 10 v) s u ∧
      u.acSpace = .cgram ∧ exec (.createCharacter code rows) s = .next (returnValue .nothing u)

/-- The checks of `create_character`, in their order, each E1 with no event (44_text.md R150, decision D28). -/
def Obligations.CreateCharacterChecks : Prop :=
  ∀ (code : Nat) (rows : List Nat) (s : State), s.phase = .ready →
    (7 < code → exec (.createCharacter code rows) s = .next { s with reply := .error (.e1 (.cgSlotOutOfRange code)) }) ∧
    (code ≤ 7 → rows.length ≠ 8 →
      exec (.createCharacter code rows) s = .next { s with reply := .error (.e1 (.bitmapLength rows.length)) }) ∧
    (code ≤ 7 → rows.length = 8 → ∀ pre v post, rows = pre ++ v :: post → (∀ r ∈ pre, r ≤ 31) → 31 < v →
      exec (.createCharacter code rows) s =
        .next { s with reply := .error (.e1 (.bitmapRowOutOfRange pre.length v)) })

/-- After `create_character` the address counter is in CGRAM: reading or moving the cursor faults F4 until an operation that
positions it (70_reset_and_hazards.md R204, decision D27). -/
def Obligations.CgramPointerHazard : Prop :=
  ∀ (code : Nat) (rows : List Nat) (s t : State), exec (.createCharacter code rows) s = .next t →
    t.reply = .returned .nothing →
    exec .moveCursorLeft t = .fault .cgramPointerHazard ∧ exec .moveCursorRight t = .fault .cgramPointerHazard ∧
    (t.cfg.canRead = true → exec .getCursorPosition t = .fault .cgramPointerHazard) ∧
    (t.busOk = true → ∀ col line, col ≤ 39 → line ≤ 1 →
      ∃ u v, exec (.setCursorPosition col line) t = .next u ∧ exec .moveCursorLeft u = .next v)

/-- `map_character` adds or replaces one entry, with no event, in every phase but `Failed`; a code outside [0, 255] is E1
(44_text.md R151, decision D24). -/
def Obligations.MapCharacter : Prop :=
  ∀ (ch : Nat) (code : Int) (s : State), s.phase ≠ .failed →
    (0 ≤ code → code ≤ 255 →
      ∃ m : CharMap, exec (.mapCharacter ch code) s = .next { s with cmap := m, reply := .returned .nothing } ∧
        (∃ k, m.get ch = some k ∧ (k.toNat : Int) = code) ∧ (∀ c, c ≠ ch → m.get c = s.cmap.get c) ∧
        (s.cmap.wf = true → m.wf = true)) ∧
    (code < 0 ∨ 255 < code →
      exec (.mapCharacter ch code) s = .next { s with reply := .error (.e1 (.characterCodeOutOfRange code)) })

/-- `unmap_character` deletes the entry, with no event, in every phase but `Failed`; an absent key is E1 `NotMapped` or nothing,
by `UNMAP_ABSENT_ERROR` (44_text.md R152, decision D29). -/
def Obligations.UnmapCharacter : Prop :=
  ∀ (ch : Nat) (s : State), s.phase ≠ .failed → s.cmap.wf = true →
    (∀ k, s.cmap.get ch = some k →
      ∃ m : CharMap, exec (.unmapCharacter ch) s = .next { s with cmap := m, reply := .returned .nothing } ∧
        m.get ch = none ∧ (∀ c, c ≠ ch → m.get c = s.cmap.get c) ∧ m.wf = true) ∧
    (s.cmap.get ch = none → s.cfg.unmapAbsentError = false →
      exec (.unmapCharacter ch) s = .next { s with reply := .returned .nothing }) ∧
    (s.cmap.get ch = none → s.cfg.unmapAbsentError = true →
      exec (.unmapCharacter ch) s = .next { s with reply := .error (.e1 (.notMapped ch)) })

/-- Character resolution: the mapped code, else the scalar value, and the blank for any code above 255 (44_text.md R153). -/
def Obligations.CharacterResolution : Prop :=
  ∀ (m : CharMap) (ch : Nat),
    (∀ k, m.get ch = some k → resolve m ch = k.toNat) ∧
    (m.get ch = none → ch ≤ 255 → resolve m ch = ch) ∧
    (m.get ch = none → 255 < ch → resolve m ch = 0x20)

/-- `write_text` positions once and issues one data word per character, resolved; a bad position is E1 with no event
(44_text.md R153, R154, decision D28). -/
def Obligations.WriteText : Prop :=
  ∀ (col line : Nat) (text : List Nat) (s : State), s.phase = .ready →
    (col ≤ 39 → line ≤ 1 → s.busOk = true →
      ∃ u, Issued ((0x080 ||| BitVec.ofNat 10 ((if line = 0 then 0x00 else 0x40) + col)) ::
          text.map fun ch => 0x200 ||| BitVec.ofNat 10 (resolve s.cmap ch)) s u ∧
        u.acSpace = .ddram ∧ exec (.writeText col line text) s = .next (returnValue .nothing u)) ∧
    (39 < col → exec (.writeText col line text) s = .next { s with reply := .error (.e1 (.columnOutOfRange col)) }) ∧
    (col ≤ 39 → 1 < line →
      exec (.writeText col line text) s = .next { s with reply := .error (.e1 (.lineOutOfRange line)) })

/-- `write_code` and `write_codes` position once and issue one data word per code; the map is not consulted (44_text.md R155,
R156). -/
def Obligations.WriteCodes : Prop :=
  ∀ (col line : Nat) (s : State), s.phase = .ready → col ≤ 39 → line ≤ 1 → s.busOk = true →
    (∀ codes : List Int, (∀ k ∈ codes, 0 ≤ k ∧ k ≤ 255) →
      ∃ u, Issued ((0x080 ||| BitVec.ofNat 10 ((if line = 0 then 0x00 else 0x40) + col)) ::
          codes.map fun k => 0x200 ||| BitVec.ofNat 10 k.toNat) s u ∧
        u.acSpace = .ddram ∧ exec (.writeCodes col line codes) s = .next (returnValue .nothing u)) ∧
    (∀ k : Int, 0 ≤ k → k ≤ 255 →
      ∃ u, Issued [0x080 ||| BitVec.ofNat 10 ((if line = 0 then 0x00 else 0x40) + col), 0x200 ||| BitVec.ofNat 10 k.toNat]
          s u ∧
        u.acSpace = .ddram ∧ exec (.writeCode col line k) s = .next (returnValue .nothing u))

/-- The checks of `write_code` and `write_codes`, in their order and all before any event: column, line, then the first code
outside [0, 255] (44_text.md R155, R156, decision D28). -/
def Obligations.WriteCodesChecks : Prop :=
  ∀ (col line : Nat) (s : State), s.phase = .ready →
    (39 < col → ∀ codes k,
      exec (.writeCodes col line codes) s = .next { s with reply := .error (.e1 (.columnOutOfRange col)) } ∧
      exec (.writeCode col line k) s = .next { s with reply := .error (.e1 (.columnOutOfRange col)) }) ∧
    (col ≤ 39 → 1 < line → ∀ codes k,
      exec (.writeCodes col line codes) s = .next { s with reply := .error (.e1 (.lineOutOfRange line)) } ∧
      exec (.writeCode col line k) s = .next { s with reply := .error (.e1 (.lineOutOfRange line)) }) ∧
    (col ≤ 39 → line ≤ 1 → ∀ (pre : List Int) (k : Int) (post : List Int), (∀ j ∈ pre, 0 ≤ j ∧ j ≤ 255) →
      k < 0 ∨ 255 < k →
      exec (.writeCodes col line (pre ++ k :: post)) s =
        .next { s with reply := .error (.e1 (.characterCodeOutOfRange k)) } ∧
      exec (.writeCode col line k) s = .next { s with reply := .error (.e1 (.characterCodeOutOfRange k)) })

/-- `read_code`: E2 before the position's E1, then the position and the data read, whose 8 bits are returned (44_text.md R157,
decisions D36, D41). -/
def Obligations.ReadCode : Prop :=
  ∀ (col line : Nat) (s : State), s.phase = .ready →
    (s.cfg.canRead = false → exec (.readCode col line) s = .next { s with reply := .error (.e2 .readUnsupported) }) ∧
    (s.cfg.canRead = true → 39 < col →
      exec (.readCode col line) s = .next { s with reply := .error (.e1 (.columnOutOfRange col)) }) ∧
    (s.cfg.canRead = true → col ≤ 39 → 1 < line →
      exec (.readCode col line) s = .next { s with reply := .error (.e1 (.lineOutOfRange line)) }) ∧
    (s.cfg.canRead = true → col ≤ 39 → line ≤ 1 → s.busOk = true →
      ∃ u t, Issued [0x080 ||| BitVec.ofNat 10 ((if line = 0 then 0x00 else 0x40) + col)] s u ∧ u.acSpace = .ddram ∧
        execCmd 0x300 u = .ok (some u.nextRead) t ∧ WordRun 0x300 u t ∧ BusDone u t ∧
        exec (.readCode col line) s = .next (returnValue (.byte u.nextRead) t))

/-! ### Flag mutators and backlight -/

/-- `set_display_on` and `set_display_off` write bit D of `DC` and issue all of `DC`; nothing else of the state changes but the
bus and `ac_space`'s bookkeeping; the only error is E3, and the register is written also then (45_flags.md R160 to R162). -/
def Obligations.DisplayMutators : Prop :=
  ∀ s : State, s.phase = .ready → s.dc &&& 0x3F8 = 0x008 →
    (s.busOk = true →
      (∃ u, Issued [s.dc ||| 0x004] { s with dc := s.dc ||| 0x004 } u ∧ u.acSpace = s.acSpace ∧
        exec .setDisplayOn s = .next (returnValue .nothing u)) ∧
      (∃ u, Issued [s.dc &&& ~~~0x004] { s with dc := s.dc &&& ~~~0x004 } u ∧ u.acSpace = s.acSpace ∧
        exec .setDisplayOff s = .next (returnValue .nothing u))) ∧
    (∀ t, exec .setDisplayOn s = .next t → t.dc = s.dc ||| 0x004 ∧ t.em = s.em ∧ t.fs = s.fs ∧
      (t.reply = .returned .nothing ∨ ∃ p, t.reply = .error (.e3 (.platformError p)))) ∧
    (∀ t, exec .setDisplayOff s = .next t → t.dc = s.dc &&& ~~~0x004 ∧ t.em = s.em ∧ t.fs = s.fs ∧
      (t.reply = .returned .nothing ∨ ∃ p, t.reply = .error (.e3 (.platformError p))))

/-- `set_autoscroll_on` and `set_autoscroll_off` write bit S of `EM` and issue all of `EM` (45_flags.md R160, R163, R164). -/
def Obligations.AutoscrollMutators : Prop :=
  ∀ s : State, s.phase = .ready → s.em &&& 0x3FC = 0x004 →
    (s.busOk = true →
      (∃ u, Issued [s.em ||| 0x001] { s with em := s.em ||| 0x001 } u ∧ u.acSpace = s.acSpace ∧
        exec .setAutoscrollOn s = .next (returnValue .nothing u)) ∧
      (∃ u, Issued [s.em &&& ~~~0x001] { s with em := s.em &&& ~~~0x001 } u ∧ u.acSpace = s.acSpace ∧
        exec .setAutoscrollOff s = .next (returnValue .nothing u))) ∧
    (∀ t, exec .setAutoscrollOn s = .next t → t.em = s.em ||| 0x001 ∧ t.dc = s.dc ∧ t.fs = s.fs ∧
      (t.reply = .returned .nothing ∨ ∃ p, t.reply = .error (.e3 (.platformError p)))) ∧
    (∀ t, exec .setAutoscrollOff s = .next t → t.em = s.em &&& ~~~0x001 ∧ t.dc = s.dc ∧ t.fs = s.fs ∧
      (t.reply = .returned .nothing ∨ ∃ p, t.reply = .error (.e3 (.platformError p))))

/-- `set_left_to_right` and `set_right_to_left` write bit I/D of `EM` and issue all of `EM` (45_flags.md R160, R165, R166). -/
def Obligations.DirectionMutators : Prop :=
  ∀ s : State, s.phase = .ready → s.em &&& 0x3FC = 0x004 →
    (s.busOk = true →
      (∃ u, Issued [s.em ||| 0x002] { s with em := s.em ||| 0x002 } u ∧ u.acSpace = s.acSpace ∧
        exec .setLeftToRight s = .next (returnValue .nothing u)) ∧
      (∃ u, Issued [s.em &&& ~~~0x002] { s with em := s.em &&& ~~~0x002 } u ∧ u.acSpace = s.acSpace ∧
        exec .setRightToLeft s = .next (returnValue .nothing u))) ∧
    (∀ t, exec .setLeftToRight s = .next t → t.em = s.em ||| 0x002 ∧ t.dc = s.dc ∧ t.fs = s.fs ∧
      (t.reply = .returned .nothing ∨ ∃ p, t.reply = .error (.e3 (.platformError p)))) ∧
    (∀ t, exec .setRightToLeft s = .next t → t.em = s.em &&& ~~~0x002 ∧ t.dc = s.dc ∧ t.fs = s.fs ∧
      (t.reply = .returned .nothing ∨ ∃ p, t.reply = .error (.e3 (.platformError p))))

/-- `set_cursor_type` writes the bits C and B of `DC` by its table, keeps D, and issues all of `DC`; a value outside the table
is E1 with no event (45_flags.md R167, decisions D28, D31). -/
def Obligations.CursorTypeMutator : Prop :=
  ∀ s : State, s.phase = .ready → s.dc &&& 0x3F8 = 0x008 →
    (s.busOk = true → ∀ p ∈ [(CursorType.none, (0b00 : Cmd)), (.underscore, 0b10), (.blinkingBlock, 0b01), (.both, 0b11)],
      ∃ u, Issued [s.dc &&& ~~~0x003 ||| p.2] { s with dc := s.dc &&& ~~~0x003 ||| p.2 } u ∧ u.acSpace = s.acSpace ∧
        exec (.setCursorType (.known p.1)) s = .next (returnValue .nothing u)) ∧
    (∀ tag, exec (.setCursorType (.other tag)) s = .next { s with reply := .error (.e1 (.invalidCursorType tag)) })

/-- The backlight operations: E2 without the capability and with no event; else the flag, one `Drive(BL, …)` or one data-less
expander byte, and no completion step (45_flags.md R168, R169; 41_transport.md R112, R118; decisions D20, D22). -/
def Obligations.BacklightOperations : Prop :=
  ∀ s : State, s.phase = .ready →
    (s.cfg.canBl = false →
      exec .setBacklightOn s = .next { s with reply := .error (.e2 .backlightUnsupported) } ∧
      exec .setBacklightOff s = .next { s with reply := .error (.e2 .backlightUnsupported) }) ∧
    (s.cfg.canBl = true → s.busOk = true →
      (∃ t, exec .setBacklightOn s = .next t ∧ t.bl = true ∧ t.trace = s.trace ++ backlightEvents s true ∧
        t = { s with bl := true, reply := .returned .nothing, lvl := t.lvl, log := t.log, env := t.env } ∧
        t.env = { s.env with faults := t.env.faults }) ∧
      (∃ t, exec .setBacklightOff s = .next t ∧ t.bl = false ∧ t.trace = s.trace ++ backlightEvents s false ∧
        t = { s with bl := false, reply := .returned .nothing, lvl := t.lvl, log := t.log, env := t.env } ∧
        t.env = { s.env with faults := t.env.faults }))

/-! ### init -/

/-- `init` completes in `Constructed` and `Ready` where no primitive fails and the scan selects an address: it is the scan and
the power-on sequence, then its 77 words, each with its completion, then the backlight event, and it leaves the state of
the table of 70_reset_and_hazards.md R190: `Ready`, the three default flag words, the map kept, the backlight on
where it can be, the address selected, `ac_space` DDRAM (R192 to R203; 41_transport.md R119 to R123; decisions D7, D37). -/
def Obligations.InitReachesReady : Prop :=
  ∀ (s : State) (a : Option Addr7), s.phase ≠ .failed → s.quiet = true →
    (s.cfg.variant ≠ .i2cMux4 → a = s.i2cAddr) →
    (s.cfg.variant = .i2cMux4 → ∃ b, a = some b ∧ selects s.cfg s.nextScan b) →
    ∃ t, exec .init s = .next t ∧ t.reply = .returned .nothing ∧ t.phase = .ready ∧ t.em = 0x006 ∧ t.dc = 0x00C ∧
      t.fs = 0x020 ||| (if s.cfg.variant = .parallel8 then 0x010 else 0) ||| 0x008 |||
        (if s.cfg.fontF then 0x004 else 0) ∧
      t.cmap = s.cmap ∧ t.bl = (s.cfg.canBl || s.bl) ∧ t.i2cAddr = a ∧ t.acSpace = .ddram ∧
      (∀ i : Fin 8, t.dir[i] = s.dir[i] ∨ t.dir[i] = .out) ∧
      (s.cfg.variant ≠ .i2cMux4 → t.lvl.e = .driven false) ∧ (s.cfg.canBl = false → t.lvl.bl = s.lvl.bl) ∧
      t.cfg = s.cfg ∧ t.calls = s.calls ∧ s.trace <+: t.trace ∧
      ∃ p q, p.trace = s.trace ++ (if s.cfg.variant = .i2cMux4 then [.i2cScan s.nextScan] else [])
          ++ powerOnEvents { s with i2cAddr := a } ∧
        p.cfg = s.cfg ∧ Issued (initWordList s.cfg) p q ∧
        t.trace = q.trace ++ (if s.cfg.canBl then backlightEvents { s with i2cAddr := a } true else [])

/-- The whole trace of `init` on a write-only bus: the scan, the power-on sequence, the 77 words each with its delay, and the
backlight (70_reset_and_hazards.md R192 to R200; 41_transport.md R119 to R122; decisions D7, D8, D13, D14, D23). -/
def Obligations.InitTraceOnWriteOnlyBus : Prop :=
  ∀ (s : State) (a : Option Addr7), s.phase ≠ .failed → s.quiet = true → s.cfg.canRead = false →
    (s.cfg.variant ≠ .i2cMux4 → a = s.i2cAddr) →
    (s.cfg.variant = .i2cMux4 → ∃ b, a = some b ∧ selects s.cfg s.nextScan b) →
    ∃ t, exec .init s = .next t ∧
      t.trace = s.trace ++ (if s.cfg.variant = .i2cMux4 then [.i2cScan s.nextScan] else [])
        ++ powerOnEvents { s with i2cAddr := a }
        ++ (initWordList s.cfg).flatMap (fun c => writeEvents { s with i2cAddr := a } c ++
          [.sleepUs (if c = 0x001 ∨ c = 0x002 ∨ c = 0x003 then s.cfg.tLongUs else s.cfg.tShortUs)])
        ++ (if s.cfg.canBl then backlightEvents { s with i2cAddr := a } true else [])

/-- `init` on I2C-Mux4 with a scan that selects nothing: the scan is the only event, E3 names the reason, the phase is
`Failed`, and the flag registers hold the defaults written before (41_transport.md R119, R121; 70_reset_and_hazards.md R192,
R202; 60_exceptions.md R173, R176, R177). -/
def Obligations.InitScanFailure : Prop :=
  ∀ s : State, s.phase ≠ .failed → s.quiet = true → s.cfg.variant = .i2cMux4 →
    (∀ b, ¬ selects s.cfg s.nextScan b) →
    ∃ t info, exec .init s = .next t ∧ t.reply = .error (.e3 info) ∧ t.phase = .failed ∧
      t.trace = s.trace ++ [.i2cScan s.nextScan] ∧ t.em = 0x006 ∧ t.dc = 0x00C ∧ t.cmap = s.cmap ∧ t.bl = s.bl ∧
      t.i2cAddr = s.i2cAddr ∧
      (s.nextScan = [] → info = .noDevice) ∧
      (s.nextScan ≠ [] → s.cfg.i2cAddrCfg = none → info = .ambiguous s.nextScan) ∧
      (∀ n, s.nextScan ≠ [] → s.cfg.i2cAddrCfg = some n → info = .addressMissing n)

/-! ### Transport functions -/

/-- `bus.init` of I2C-Mux4 scans and selects the address, or raises E3 `NoDevice`, `Ambiguous` or `AddressMissing` before any
write (41_transport.md R119). -/
def Obligations.ScanSelectsTheAddress : Prop :=
  ∀ s : State, s.cfg.variant = .i2cMux4 → s.quiet = true →
    (s.nextScan = [] → ∃ t, exec .busInitI2C s = .next t ∧ t.reply = .error (.e3 .noDevice) ∧
      t.trace = s.trace ++ [.i2cScan []] ∧ t.i2cAddr = s.i2cAddr) ∧
    (s.cfg.i2cAddrCfg = none → 1 < s.nextScan.length → ∃ t, exec .busInitI2C s = .next t ∧
      t.reply = .error (.e3 (.ambiguous s.nextScan)) ∧ t.trace = s.trace ++ [.i2cScan s.nextScan] ∧
      t.i2cAddr = s.i2cAddr) ∧
    (s.cfg.i2cAddrCfg = none → ∀ a, s.nextScan = [a] → ∃ t, exec .busInitI2C s = .next t ∧
      t.reply = .returned .nothing ∧ t.i2cAddr = some a) ∧
    (∀ n, s.cfg.i2cAddrCfg = some n → s.nextScan ≠ [] → (∀ a ∈ s.nextScan, a.toNat ≠ n) →
      ∃ t, exec .busInitI2C s = .next t ∧ t.reply = .error (.e3 (.addressMissing n)) ∧
        t.trace = s.trace ++ [.i2cScan s.nextScan] ∧ t.i2cAddr = s.i2cAddr) ∧
    (∀ a, s.cfg.i2cAddrCfg = some a.toNat → a ∈ s.nextScan → ∃ t, exec .busInitI2C s = .next t ∧
      t.reply = .returned .nothing ∧ t.i2cAddr = some a)

/-- `bus.init` of a parallel transport and, after its scan, of I2C-Mux4 emits exactly the power-on sequence and changes nothing
but lines and levels (41_transport.md R120 to R122, decisions D13, D14, D23). -/
def Obligations.BusInitPowerOn : Prop :=
  ∀ s : State, s.quiet = true →
    (s.cfg.variant = .parallel8 → ∃ t, exec .busInitP8 s = .next t ∧
      BusDone { s with reply := .returned .nothing } t ∧ t.trace = s.trace ++ powerOnEvents s) ∧
    (s.cfg.variant = .parallel4 → ∃ t, exec .busInitP4 s = .next t ∧
      BusDone { s with reply := .returned .nothing } t ∧ t.trace = s.trace ++ powerOnEvents s) ∧
    (s.cfg.variant = .i2cMux4 → ∀ a, selects s.cfg s.nextScan a → ∃ t, exec .busInitI2C s = .next t ∧
      BusDone { s with i2cAddr := some a, reply := .returned .nothing } t ∧
      t.trace = s.trace ++ .i2cScan s.nextScan :: powerOnEvents { s with i2cAddr := some a })

/-- `bus.init` performs no read, no busy poll and no backlight change on any variant, and does not touch `EM`, `DC`, `FS` or
the map; a parallel one raises nothing but E3 platform errors (41_transport.md R123). -/
def Obligations.BusInitReadsNothing : Prop :=
  ∀ (i : Instr) (s t : State), i = .busInitP8 ∨ i = .busInitP4 ∨ i = .busInitI2C → exec i s = .next t →
    t.em = s.em ∧ t.dc = s.dc ∧ t.fs = s.fs ∧ t.cmap = s.cmap ∧ t.bl = s.bl ∧ t.lvl.bl = s.lvl.bl ∧
    (∃ evs, t.trace = s.trace ++ evs ∧ ∀ e ∈ evs, e.isRead = false ∧ e.isWarn = false) ∧
    (i ≠ .busInitI2C → t.reply = .returned .nothing ∨ ∃ p, t.reply = .error (.e3 (.platformError p)))

/-- Every bus cycle of a parallel transport has exactly one enable pulse, followed by the settle delay, and a read cycle takes
one sample of each data line, all of them after the hold time and before E falls (41_transport.md R102, R108, decision
D43). A parallel read that returns leaves the data lines' latches as they were and restores every line to `Out` (R108), with
the level each line carries unknown until it is driven again (93_implementation_defined.md U16; that the model holds it beside
the latch is log 25). -/
def Obligations.OneEnablePulsePerCycle : Prop :=
  ∀ (rs : Bool) (s : State), s.cfg.variant ≠ .i2cMux4 →
    (∀ (val : Byte) (t : State), parWriteCycle rs val s = .ok () t →
      ∃ pre, t.trace = s.trace ++ pre ++
          [.drive .e true, .sleepUs s.cfg.tPwUs, .drive .e false, .sleepUs s.cfg.tCycUs] ∧
        ∀ e ∈ pre, ∀ b, e ≠ .drive .e b) ∧
    (∀ (v : Byte) (t : State), parReadCycle rs s = .ok v t →
      ∃ pre bits, t.trace = s.trace ++ pre ++ [.drive .e true, .sleepUs s.cfg.tPwUs] ++
          List.zipWith (fun i b => Event.sample (.data i) b) s.cfg.dataLines bits ++
          [.drive .e false, .sleepUs s.cfg.tCycUs] ∧
        bits.length = s.cfg.dataLines.length ∧
        ∀ e ∈ pre, (∀ b, e ≠ .drive .e b) ∧ ∀ l b, e ≠ .sample l b) ∧
    (∀ (c : Nat) (i : Instr) (v : Byte) (t : State), i = .busReadP8 c ∨ i = .busReadP4 c → exec i s = .next t →
      t.reply = .returned (.byte v) →
      t.lvl.data = s.lvl.data ∧
      (∀ l : Fin 8, l ∈ s.cfg.dataLines → t.dir[l] = .out ∧ t.lvl.wire[l] = .unknown) ∧
      (∀ l : Fin 8, l ∉ s.cfg.dataLines → t.dir[l] = s.dir[l] ∧ t.lvl.wire[l] = s.lvl.wire[l]))

/-- `bus.write` of a write word emits exactly its cycles and leaves the lines, or the expander byte, at their last level
(41_transport.md R103 to R106, R114, R115; decisions D15, D18). -/
def Obligations.BusWriteTransfersTheWord : Prop :=
  ∀ (w : Cmd) (s : State), w.rw = false → s.quiet = true →
    (s.cfg.variant = .parallel8 → ∃ t, exec (.busWriteP8 w.toNat) s = .next t ∧
      BusDone { s with reply := .returned .nothing } t ∧ t.trace = s.trace ++ write8Events s.cfg w ∧
      t.lvl.rs = .driven w.rs ∧ (s.cfg.rwWired = true → t.lvl.rw = .driven false) ∧ t.lvl.e = .driven false ∧
      ∀ i : Fin 8, t.lvl.data[i] = .driven (w.getLsbD i) ∧ t.lvl.wire[i] = .driven (w.getLsbD i)) ∧
    (s.cfg.variant = .parallel4 → ∃ t, exec (.busWriteP4 w.toNat) s = .next t ∧
      BusDone { s with reply := .returned .nothing } t ∧ t.trace = s.trace ++ write4Events s.cfg w ∧
      t.lvl.rs = .driven w.rs ∧ (s.cfg.rwWired = true → t.lvl.rw = .driven false) ∧ t.lvl.e = .driven false ∧
      ∀ i : Fin 8, (t.lvl.data[i] = if 4 ≤ i.val then .driven (w.getLsbD (i - 4)) else s.lvl.data[i]) ∧
        t.lvl.wire[i] = if 4 ≤ i.val then .driven (w.getLsbD (i - 4)) else s.lvl.wire[i]) ∧
    (s.cfg.variant = .i2cMux4 → ∀ a, s.i2cAddr = some a → ∃ t, exec (.busWriteI2C w.toNat) s = .next t ∧
      BusDone { s with reply := .returned .nothing } t ∧ t.trace = s.trace ++ writeI2CEvents s.cfg a s.bl w ∧
      t.lvl.i2c = .driven (expByte s.cfg.i2cMap w.rs false false s.bl w.lo))

/-- The write checks: range before direction, both E1 with no event (41_transport.md R107, decision D36). -/
def Obligations.BusWriteChecks : Prop :=
  ∀ (v : Variant) (i : Nat → Instr), (v, i) ∈ [(Variant.parallel8, Instr.busWriteP8), (.parallel4, .busWriteP4),
      (.i2cMux4, .busWriteI2C)] → ∀ (c : Nat) (s : State), s.cfg.variant = v →
    (1024 ≤ c → exec (i c) s = .next { s with reply := .error (.e1 (.commandOutOfRange c)) }) ∧
    (c < 1024 → c.testBit 8 = true → exec (i c) s = .next { s with reply := .error (.e1 (.wrongDirection c)) })

/-- `bus.read` on Parallel-8 is one read cycle, and its eight samples D7..D0 are bits 7..0 of the result (41_transport.md
R108, R109). Where its events switch the directions and take the samples is the spec's own decision (D16, D43; log 23). -/
def Obligations.BusReadEightSamples : Prop :=
  ∀ (w : Cmd) (s : State), w.rw = true → s.cfg.variant = .parallel8 → s.cfg.canRead = true → s.quiet = true →
    ∃ t v, exec (.busReadP8 w.toNat) s = .next t ∧ BusDone { s with reply := .returned (.byte v) } t ∧
      (∀ k, k < 8 → v.getLsbD (7 - k) = s.sampleAt k) ∧ t.trace = s.trace ++ read8Events s w.rs

/-- `bus.read` on Parallel-4 is two read cycles: the first cycle's samples D7..D4 are bits 7..4 and the second's are bits 3..0
(41_transport.md R108, R110). That its events switch the directions once around both nibbles, and where they take the
samples, is the spec's own decision (D16, D43; log 23). -/
def Obligations.BusReadTwoNibbles : Prop :=
  ∀ (w : Cmd) (s : State), w.rw = true → s.cfg.variant = .parallel4 → s.cfg.canRead = true → s.quiet = true →
    ∃ t v, exec (.busReadP4 w.toNat) s = .next t ∧ BusDone { s with reply := .returned (.byte v) } t ∧
      (∀ k, k < 4 → v.getLsbD (7 - k) = s.sampleAt k ∧ v.getLsbD (3 - k) = s.sampleAt (4 + k)) ∧
      t.trace = s.trace ++ read4Events s w.rs

/-- `bus.read` on I2C-Mux4: two read cycles, each of whose bytes gives its four mapped bits (41_transport.md R116, R117;
decision D19). -/
def Obligations.BusReadExpander : Prop :=
  ∀ (w : Cmd) (s : State) (a : Addr7), w.rw = true → s.cfg.variant = .i2cMux4 → s.cfg.canRead = true → s.quiet = true →
    s.i2cAddr = some a →
    ∃ t v, exec (.busReadI2C w.toNat) s = .next t ∧ BusDone { s with reply := .returned (.byte v) } t ∧
      v.getLsbD 7 = (s.readAt 0).getLsbD s.cfg.i2cMap.d7 ∧ v.getLsbD 6 = (s.readAt 0).getLsbD s.cfg.i2cMap.d6 ∧
      v.getLsbD 5 = (s.readAt 0).getLsbD s.cfg.i2cMap.d5 ∧ v.getLsbD 4 = (s.readAt 0).getLsbD s.cfg.i2cMap.d4 ∧
      v.getLsbD 3 = (s.readAt 1).getLsbD s.cfg.i2cMap.d7 ∧ v.getLsbD 2 = (s.readAt 1).getLsbD s.cfg.i2cMap.d6 ∧
      v.getLsbD 1 = (s.readAt 1).getLsbD s.cfg.i2cMap.d5 ∧ v.getLsbD 0 = (s.readAt 1).getLsbD s.cfg.i2cMap.d4 ∧
      t.trace = s.trace ++ readI2CEvents s a w.rs

/-- The read checks: range, direction, capability, in that order and with no event (41_transport.md R111, decision D36). -/
def Obligations.BusReadChecks : Prop :=
  ∀ (v : Variant) (i : Nat → Instr), (v, i) ∈ [(Variant.parallel8, Instr.busReadP8), (.parallel4, .busReadP4),
      (.i2cMux4, .busReadI2C)] → ∀ (c : Nat) (s : State), s.cfg.variant = v →
    (1024 ≤ c → exec (i c) s = .next { s with reply := .error (.e1 (.commandOutOfRange c)) }) ∧
    (c < 1024 → c.testBit 8 = false → exec (i c) s = .next { s with reply := .error (.e1 (.wrongDirection c)) }) ∧
    (c < 1024 → c.testBit 8 = true → s.cfg.canRead = false →
      exec (i c) s = .next { s with reply := .error (.e2 .readUnsupported) })

/-- `bus.set_backlight`: on a parallel transport E2 without the line, else the flag and one `Drive(BL, …)`; on I2C-Mux4 the flag
and one data-less byte (41_transport.md R112, R118; decisions D20, D22). -/
def Obligations.BusSetBacklight : Prop :=
  ∀ (en : Bool) (s : State),
    (s.cfg.variant ≠ .i2cMux4 → s.cfg.blWired = false →
      exec (.busSetBacklightPar en) s = .next { s with reply := .error (.e2 .backlightUnsupported) }) ∧
    (s.cfg.variant ≠ .i2cMux4 → s.cfg.blWired = true → s.quiet = true →
      ∃ t, exec (.busSetBacklightPar en) s = .next t ∧ t.trace = s.trace ++ backlightEvents s en ∧
        t.lvl = { s.lvl with bl := .driven (if en then s.cfg.blActiveLevel else !s.cfg.blActiveLevel) } ∧
        t = { s with bl := en, reply := .returned .nothing, lvl := t.lvl, log := t.log, env := t.env } ∧
        t.env = { s.env with faults := t.env.faults }) ∧
    (s.cfg.variant = .i2cMux4 → s.busOk = true →
      ∃ t, exec (.busSetBacklightI2C en) s = .next t ∧ t.trace = s.trace ++ backlightEvents s en ∧
        t.lvl = { s.lvl with i2c := .driven (if en then 1#8 <<< s.cfg.i2cMap.bl else 0) } ∧
        t = { s with bl := en, reply := .returned .nothing, lvl := t.lvl, log := t.log, env := t.env } ∧
        t.env = { s.env with faults := t.env.faults })

/-- What the model refuses at a transport: a function of a variant the instance does not have (00_scope.md R1, 41_transport.md
R100; log 9), and an I2C word while no address is resolved (10_state.md R18; log 13). The model's choices. -/
def Obligations.TransportRefusals : Prop :=
  ∀ (s : State) (c : Nat) (en : Bool),
    (s.cfg.variant ≠ .parallel8 → ∀ i ∈ [Instr.busWriteP8 c, .busReadP8 c, .busInitP8],
      exec i s = .refused (.variantMismatch s.cfg.variant)) ∧
    (s.cfg.variant ≠ .parallel4 → ∀ i ∈ [Instr.busWriteP4 c, .busReadP4 c, .busInitP4],
      exec i s = .refused (.variantMismatch s.cfg.variant)) ∧
    (s.cfg.variant ≠ .i2cMux4 → ∀ i ∈ [Instr.busWriteI2C c, .busReadI2C c, .busSetBacklightI2C en, .busInitI2C],
      exec i s = .refused (.variantMismatch s.cfg.variant)) ∧
    (s.cfg.variant = .i2cMux4 → exec (.busSetBacklightPar en) s = .refused (.variantMismatch .i2cMux4)) ∧
    (s.cfg.variant = .i2cMux4 → s.i2cAddr = none →
      (∀ i w, encode i = some w → w.rw = false → exec i s = .refused .i2cAddressUnresolved) ∧
      (∀ w : Cmd, w.rw = false → exec (.busWriteI2C w.toNat) s = .refused .i2cAddressUnresolved) ∧
      exec (.busSetBacklightI2C en) s = .refused .i2cAddressUnresolved)

end
end

