-- ==== Sys2Proof/Laws/State.lean ====
section
/-! SUPPORT. Field lemmas of the named state updates, and the frames' small laws. -/

namespace Sys2Proof.Machine

open Sys2Proof

/-! ### returnValue -/

@[simp] theorem returnValue_cfg (v : Value) (s : State) : (returnValue v s).cfg = s.cfg := rfl
@[simp] theorem returnValue_phase (v : Value) (s : State) : (returnValue v s).phase = s.phase := rfl
@[simp] theorem returnValue_em (v : Value) (s : State) : (returnValue v s).em = s.em := rfl
@[simp] theorem returnValue_dc (v : Value) (s : State) : (returnValue v s).dc = s.dc := rfl
@[simp] theorem returnValue_fs (v : Value) (s : State) : (returnValue v s).fs = s.fs := rfl
@[simp] theorem returnValue_cmap (v : Value) (s : State) : (returnValue v s).cmap = s.cmap := rfl
@[simp] theorem returnValue_bl (v : Value) (s : State) : (returnValue v s).bl = s.bl := rfl
@[simp] theorem returnValue_i2cAddr (v : Value) (s : State) : (returnValue v s).i2cAddr = s.i2cAddr := rfl
@[simp] theorem returnValue_dir (v : Value) (s : State) : (returnValue v s).dir = s.dir := rfl
@[simp] theorem returnValue_lvl (v : Value) (s : State) : (returnValue v s).lvl = s.lvl := rfl
@[simp] theorem returnValue_acSpace (v : Value) (s : State) : (returnValue v s).acSpace = s.acSpace := rfl
@[simp] theorem returnValue_log (v : Value) (s : State) : (returnValue v s).log = s.log := rfl
@[simp] theorem returnValue_trace (v : Value) (s : State) : (returnValue v s).trace = s.trace := rfl
@[simp] theorem returnValue_reply (v : Value) (s : State) : (returnValue v s).reply = .returned v := rfl
@[simp] theorem returnValue_calls (v : Value) (s : State) : (returnValue v s).calls = s.calls := rfl
@[simp] theorem returnValue_env (v : Value) (s : State) : (returnValue v s).env = s.env := rfl

/-! ### raiseError -/

@[simp] theorem raiseError_cfg (e : Error) (s : State) : (raiseError e s).cfg = s.cfg := rfl
@[simp] theorem raiseError_phase (e : Error) (s : State) : (raiseError e s).phase = phaseAfter e s.phase := rfl
@[simp] theorem raiseError_em (e : Error) (s : State) : (raiseError e s).em = s.em := rfl
@[simp] theorem raiseError_dc (e : Error) (s : State) : (raiseError e s).dc = s.dc := rfl
@[simp] theorem raiseError_fs (e : Error) (s : State) : (raiseError e s).fs = s.fs := rfl
@[simp] theorem raiseError_cmap (e : Error) (s : State) : (raiseError e s).cmap = s.cmap := rfl
@[simp] theorem raiseError_bl (e : Error) (s : State) : (raiseError e s).bl = s.bl := rfl
@[simp] theorem raiseError_i2cAddr (e : Error) (s : State) : (raiseError e s).i2cAddr = s.i2cAddr := rfl
@[simp] theorem raiseError_dir (e : Error) (s : State) : (raiseError e s).dir = s.dir := rfl
@[simp] theorem raiseError_lvl (e : Error) (s : State) : (raiseError e s).lvl = s.lvl := rfl
@[simp] theorem raiseError_acSpace (e : Error) (s : State) : (raiseError e s).acSpace = s.acSpace := rfl
@[simp] theorem raiseError_log (e : Error) (s : State) : (raiseError e s).log = s.log := rfl
@[simp] theorem raiseError_trace (e : Error) (s : State) : (raiseError e s).trace = s.trace := rfl
@[simp] theorem raiseError_reply (e : Error) (s : State) : (raiseError e s).reply = .error e := rfl
@[simp] theorem raiseError_calls (e : Error) (s : State) : (raiseError e s).calls = s.calls := rfl
@[simp] theorem raiseError_env (e : Error) (s : State) : (raiseError e s).env = s.env := rfl

@[simp] theorem phaseAfter_e1 (i : E1Info) (p : Phase) : phaseAfter (.e1 i) p = p := rfl
@[simp] theorem phaseAfter_e2 (i : E2Info) (p : Phase) : phaseAfter (.e2 i) p = p := rfl
@[simp] theorem phaseAfter_e3 (i : E3Info) (p : Phase) : phaseAfter (.e3 i) p = .failed := rfl

/-! ### Levels.drive -/

@[simp] theorem drive_rs_rs (b : Bool) (v : Levels) : (v.drive .rs b).rs = .driven b := rfl
@[simp] theorem drive_e_e (b : Bool) (v : Levels) : (v.drive .e b).e = .driven b := rfl
@[simp] theorem drive_rw_rw (b : Bool) (v : Levels) : (v.drive .rw b).rw = .driven b := rfl
@[simp] theorem drive_bl_bl (b : Bool) (v : Levels) : (v.drive .bl b).bl = .driven b := rfl

@[simp] theorem drive_data_data (i : Fin 8) (b : Bool) (v : Levels) : (v.drive (.data i) b).data = v.data.set i (.driven b) := rfl
@[simp] theorem drive_data_wire (i : Fin 8) (b : Bool) (v : Levels) : (v.drive (.data i) b).wire = v.wire.set i (.driven b) := rfl
@[simp] theorem drive_rs_data (b : Bool) (v : Levels) : (v.drive .rs b).data = v.data := rfl
@[simp] theorem drive_rw_data (b : Bool) (v : Levels) : (v.drive .rw b).data = v.data := rfl
@[simp] theorem drive_e_data (b : Bool) (v : Levels) : (v.drive .e b).data = v.data := rfl
@[simp] theorem drive_rs_wire (b : Bool) (v : Levels) : (v.drive .rs b).wire = v.wire := rfl
@[simp] theorem drive_rw_wire (b : Bool) (v : Levels) : (v.drive .rw b).wire = v.wire := rfl
@[simp] theorem drive_e_wire (b : Bool) (v : Levels) : (v.drive .e b).wire = v.wire := rfl

@[simp] theorem release_rs (ls : List (Fin 8)) (v : Levels) : (v.release ls).rs = v.rs := rfl
@[simp] theorem release_rw (ls : List (Fin 8)) (v : Levels) : (v.release ls).rw = v.rw := rfl
@[simp] theorem release_e (ls : List (Fin 8)) (v : Levels) : (v.release ls).e = v.e := rfl
@[simp] theorem release_bl (ls : List (Fin 8)) (v : Levels) : (v.release ls).bl = v.bl := rfl
@[simp] theorem release_data (ls : List (Fin 8)) (v : Levels) : (v.release ls).data = v.data := rfl
@[simp] theorem release_i2c (ls : List (Fin 8)) (v : Levels) : (v.release ls).i2c = v.i2c := rfl
@[simp] theorem release_wire (ls : List (Fin 8)) (v : Levels) : (v.release ls).wire = setLines .unknown ls v.wire := rfl

/-- Driving a line writes no expander byte. -/
@[simp] theorem drive_i2c (l : Line) (b : Bool) (v : Levels) : (v.drive l b).i2c = v.i2c := by cases l <;> rfl

/-- Only `Drive(BL, …)` changes the level of the backlight line. -/
theorem drive_bl {l : Line} (h : l ≠ .bl) (b : Bool) (v : Levels) : (v.drive l b).bl = v.bl := by
  cases l <;> first | rfl | exact absurd rfl h

/-- Only `Drive(E, …)` changes the level of E. -/
theorem drive_e {l : Line} (h : l ≠ .e) (b : Bool) (v : Levels) : (v.drive l b).e = v.e := by
  cases l <;> first | rfl | exact absurd rfl h

/-! ### Trace -/

/-- A longer log is a longer trace. -/
theorem trace_prefix {s t : State} (h : s.log <:+ t.log) : s.trace <+: t.trace := List.reverse_prefix.mpr h

/-- Events put in front of the log newest first stand at the end of the trace in order. -/
theorem trace_append {s t : State} {evs : List Event} (h : t.log = evs.reverse ++ s.log) :
    t.trace = s.trace ++ evs := by
  simp [State.trace, h]

/-! ### Frames -/

theorem OnlyBus.refl (s : State) : OnlyBus s s where
  cfg := rfl
  phase := rfl
  em := rfl
  dc := rfl
  fs := rfl
  cmap := rfl
  bl := rfl
  i2cAddr := rfl
  reply := rfl
  calls := rfl
  log := List.suffix_refl _
  now := Nat.le_refl _
  faults := List.suffix_refl _
  samples := List.suffix_refl _
  reads := List.suffix_refl _
  scans := List.suffix_refl _
  ticks := List.suffix_refl _
  drawn := Nat.le_refl _

/-- Levels, directions and `ac_space` are not in the frame. -/
theorem OnlyBus.lines (s : State) (d : Vector Dir 8) (l : Levels) (a : AcSpace) :
    OnlyBus s { s with dir := d, lvl := l, acSpace := a } :=
  { OnlyBus.refl s with
    cfg := rfl, phase := rfl, em := rfl, dc := rfl, fs := rfl, cmap := rfl, bl := rfl, i2cAddr := rfl, reply := rfl,
    calls := rfl }

theorem OnlyBus.trans {s t u : State} (h : OnlyBus s t) (k : OnlyBus t u) : OnlyBus s u where
  cfg := k.cfg.trans h.cfg
  phase := k.phase.trans h.phase
  em := k.em.trans h.em
  dc := k.dc.trans h.dc
  fs := k.fs.trans h.fs
  cmap := k.cmap.trans h.cmap
  bl := k.bl.trans h.bl
  i2cAddr := k.i2cAddr.trans h.i2cAddr
  reply := k.reply.trans h.reply
  calls := k.calls.trans h.calls
  log := h.log.trans k.log
  now := Nat.le_trans h.now k.now
  faults := k.faults.trans h.faults
  samples := k.samples.trans h.samples
  reads := k.reads.trans h.reads
  scans := k.scans.trans h.scans
  ticks := k.ticks.trans h.ticks
  drawn := Nat.le_trans h.drawn k.drawn

/-- The frame does not look at `ac_space`. -/
theorem OnlyBus.setAcSpace {s t : State} (a : AcSpace) (h : OnlyBus s t) : OnlyBus { s with acSpace := a } t :=
  { h with }

theorem BusDone.refl (s : State) : BusDone s s where
  toOnlyBus := OnlyBus.refl s
  acSpace := rfl
  blLine := rfl
  eLow := .inl rfl
  dir _ := .inl rfl
  noByte _ := rfl
  noLine _ := ⟨rfl, rfl, rfl, rfl, rfl, rfl⟩

theorem BusDone.trans {s t u : State} (h : BusDone s t) (k : BusDone t u) : BusDone s u where
  toOnlyBus := h.toOnlyBus.trans k.toOnlyBus
  acSpace := k.acSpace.trans h.acSpace
  blLine := k.blLine.trans h.blLine
  eLow := by
    rcases k.eLow with k | k
    · rw [k]; exact h.eLow
    · exact .inr k
  dir i := by
    rcases k.dir i with k | k
    · rw [k]; exact h.dir i
    · exact .inr k
  noByte hv := (k.noByte (by rw [h.cfg]; exact hv)).trans (h.noByte hv)
  noLine hv := by
    have a := h.noLine hv
    have b := k.noLine (by rw [h.cfg]; exact hv)
    exact ⟨b.1.trans a.1, b.2.1.trans a.2.1, b.2.2.1.trans a.2.2.1, b.2.2.2.1.trans a.2.2.2.1,
      b.2.2.2.2.1.trans a.2.2.2.2.1, b.2.2.2.2.2.trans a.2.2.2.2.2⟩

/-- A state where no failure is drawn stays one: draws are taken from the front. -/
theorem OnlyBus.quiet {s t : State} (h : OnlyBus s t) (q : s.quiet = true) : t.quiet = true := by
  simp only [State.quiet, Bool.or_eq_true, List.all_eq_true, h.cfg] at q ⊢
  exact q.imp id fun q b hb => q b (h.faults.mem hb)

theorem OnlyBus.resolved {s t : State} (h : OnlyBus s t) (q : s.resolved = true) : t.resolved = true := by
  simpa only [State.resolved, h.cfg, h.i2cAddr] using q

theorem OnlyBus.busOk {s t : State} (h : OnlyBus s t) (q : s.busOk = true) : t.busOk = true := by
  simp only [State.busOk, Bool.and_eq_true] at q ⊢
  exact ⟨h.quiet q.1, h.resolved q.2⟩

end Sys2Proof.Machine
end

