-- ==== Sys2Proof/Laws/Ops.lean ====
section
/-! SUPPORT. The laws of the driver's monad and of the event primitives: what each can do, said once. -/

namespace Sys2Proof.Machine

open Sys2Proof

variable {α β : Type}

/-! ### Running -/

theorem bind_run (m : Drv α) (f : α → Drv β) (s : State) :
    (m >>= f) s = match m s with
      | .ok a t => f a t
      | .error e t => .error e t := by
  show EStateM.bind m f s = _
  unfold EStateM.bind
  cases m s <;> rfl

@[simp] theorem pure_run (a : α) (s : State) : (pure a : Drv α) s = .ok a s := rfl
@[simp] theorem get_run (s : State) : (get : Drv State) s = .ok s s := rfl
@[simp] theorem getCfg_run (s : State) : getCfg s = .ok s.cfg s := rfl
@[simp] theorem update_run (f : State → State) (s : State) : update f s = .ok () (f s) := rfl

theorem bind_ok {m : Drv α} {f : α → Drv β} {s t : State} {a : α} (h : m s = .ok a t) : (m >>= f) s = f a t := by
  rw [bind_run, h]

theorem bind_error {m : Drv α} {f : α → Drv β} {s t : State} {e : Stop} (h : m s = .error e t) :
    (m >>= f) s = .error e t := by
  rw [bind_run, h]

/-- A sequence completes exactly when both parts do. -/
theorem bind_eq_ok {m : Drv α} {f : α → Drv β} {s u : State} {b : β} :
    (m >>= f) s = .ok b u ↔ ∃ a t, m s = .ok a t ∧ f a t = .ok b u := by
  rw [bind_run]
  cases m s <;> simp

/-- A sequence stops exactly when its first part does, or the first completes and the second stops. -/
theorem bind_eq_error {m : Drv α} {f : α → Drv β} {s u : State} {e : Stop} :
    (m >>= f) s = .error e u ↔ m s = .error e u ∨ ∃ a t, m s = .ok a t ∧ f a t = .error e u := by
  rw [bind_run]
  cases m s <;> simp

@[simp] theorem bind_getCfg (f : Config → Drv β) (s : State) : (getCfg >>= f) s = f s.cfg s := rfl
@[simp] theorem bind_get (f : State → Drv β) (s : State) : (get >>= f) s = f s s := rfl
@[simp] theorem bind_update (g : State → State) (f : Unit → Drv β) (s : State) : (update g >>= f) s = f () (g s) := rfl
@[simp] theorem bind_pure_run (a : α) (f : α → Drv β) (s : State) : ((pure a : Drv α) >>= f) s = f a s := rfl

theorem require_true {c : Bool} (h : c = true) (e : Stop) (s : State) : require c e s = .ok () s := by simp [require, h]
theorem require_false {c : Bool} (h : c = false) (e : Stop) (s : State) : require c e s = .error e s := by
  simp [require, h]

theorem require_ok {c : Bool} {e : Stop} {s t : State} {u : Unit} :
    require c e s = .ok u t ↔ c = true ∧ t = s := by
  cases c <;> simp [require, eq_comm]

theorem require_error {c : Bool} {e e' : Stop} {s t : State} :
    require c e s = .error e' t ↔ c = false ∧ e' = e ∧ t = s := by
  cases c <;> simp [require, eq_comm]

@[simp] theorem onlyIf_true (m : Drv Unit) : onlyIf true m = m := rfl
@[simp] theorem onlyIf_false (m : Drv Unit) : onlyIf false m = pure () := rfl

/-! ### finish: how an operation's end becomes the step's outcome -/

theorem finish_ok {m : Drv Value} {s t : State} {v : Value} (h : m s = .ok v t) :
    finish m s = .next (returnValue v t) := by simp [finish, h]

theorem finish_error {m : Drv Value} {s t : State} {e : Error} (h : m s = .error (.error e) t) :
    finish m s = .next (raiseError e t) := by simp [finish, h]

theorem finish_fault {m : Drv Value} {s t : State} {f : Fault} (h : m s = .error (.fault f) t) :
    finish m s = .fault f := by simp [finish, h]

theorem finish_refused {m : Drv Value} {s t : State} {r : Refusal} (h : m s = .error (.refused r) t) :
    finish m s = .refused r := by simp [finish, h]

/-- An operation step with a next state returned a value or raised an error, and nothing else. -/
theorem finish_next {m : Drv Value} {s t : State} (h : finish m s = .next t) :
    (∃ v u, m s = .ok v u ∧ t = returnValue v u) ∨ (∃ e u, m s = .error (.error e) u ∧ t = raiseError e u) := by
  unfold finish at h
  split at h
  · exact .inl ⟨_, _, ‹_›, by simpa [eq_comm] using h⟩
  · exact .inr ⟨_, _, ‹_›, by simpa [eq_comm] using h⟩
  · simp at h
  · simp at h

/-! ### Phase checks -/

theorem phaseCheckReady_ready {s : State} (h : s.phase = .ready) : phaseCheckReady s = .ok () s := by
  simp [phaseCheckReady, h]

theorem phaseCheckReady_failed {s : State} (h : s.phase = .failed) :
    phaseCheckReady s = .error (.fault .useAfterFailure) s := by simp [phaseCheckReady, h]

theorem phaseCheckReady_constructed {s : State} (h : s.phase = .constructed) :
    phaseCheckReady s = .error (.fault .notReady) s := by simp [phaseCheckReady, h]

theorem phaseCheckLive_failed {s : State} (h : s.phase = .failed) :
    phaseCheckLive s = .error (.fault .useAfterFailure) s := by simp [phaseCheckLive, h]

theorem phaseCheckLive_live {s : State} (h : s.phase ≠ .failed) : phaseCheckLive s = .ok () s := by
  unfold phaseCheckLive
  split <;> first | rfl | exact absurd ‹_› h

theorem phaseCheckReady_ok {s t : State} {u : Unit} (h : phaseCheckReady s = .ok u t) :
    t = s ∧ s.phase ≠ .failed ∧ s.phase ≠ .constructed := by
  unfold phaseCheckReady at h
  split at h <;> simp_all

theorem phaseCheckReady_error {s t : State} {e : Stop} (h : phaseCheckReady s = .error e t) :
    t = s ∧ ∃ f, e = .fault f := by
  unfold phaseCheckReady at h
  split at h <;> first
    | exact ⟨(by simpa [eq_comm] using h : _ ∧ t = s).2, _, (by simpa [eq_comm] using h : e = _ ∧ _).1⟩
    | simp at h

theorem phaseCheckLive_ok {s t : State} {u : Unit} (h : phaseCheckLive s = .ok u t) :
    t = s ∧ s.phase ≠ .failed := by
  unfold phaseCheckLive at h
  split at h <;> simp_all

theorem phaseCheckLive_error {s t : State} {e : Stop} (h : phaseCheckLive s = .error e t) :
    t = s ∧ ∃ f, e = .fault f := by
  unfold phaseCheckLive at h
  split at h <;> first
    | exact ⟨(by simpa [eq_comm] using h : _ ∧ t = s).2, _, (by simpa [eq_comm] using h : e = _ ∧ _).1⟩
    | simp at h

/-! ### Bus operations: what they change and how they stop -/

/-- The state an operation ends in, however it ends. -/
def endState : EStateM.Result Stop State α → State
  | .ok _ t => t
  | .error _ t => t

/-- The two ways bus activity stops: a drawn platform failure, or an I2C transfer without an address. -/
def BusStop (cfg : Config) (s : State) (e : Stop) : Prop :=
  (∃ p, e = .error (.e3 (.platformError p)) ∧ s.quiet = false) ∨
    (e = .refused .i2cAddressUnresolved ∧ cfg.variant = .i2cMux4 ∧ s.i2cAddr = none)

/-- Bus activity under the configuration `cfg`: it changes only what `OnlyBus` lets it change, whether it completes or not,
and it stops in the two ways of `BusStop` only. -/
structure BusOp (cfg : Config) (m : Drv α) : Prop where
  frame : ∀ s, s.cfg = cfg → OnlyBus s (endState (m s))
  stops : ∀ s e t, s.cfg = cfg → m s = .error e t → BusStop cfg s e

theorem BusStop.mono {cfg : Config} {s t : State} {e : Stop} (h : OnlyBus s t) (k : BusStop cfg t e) :
    BusStop cfg s e := by
  rcases k with ⟨p, he, hq⟩ | ⟨he, hv, ha⟩
  · refine .inl ⟨p, he, ?_⟩
    cases hs : s.quiet with
    | false => rfl
    | true => exact absurd (h.quiet hs) (by simp [hq])
  · exact .inr ⟨he, hv, by rw [← h.i2cAddr]; exact ha⟩

/-- Where the environment lets it, bus activity does not stop. -/
theorem BusStop.not_busOk {cfg : Config} {s : State} {e : Stop} (hc : s.cfg = cfg) (k : BusStop cfg s e) :
    s.busOk = false := by
  rcases k with ⟨_, -, hq⟩ | ⟨-, hv, ha⟩
  · simp [State.busOk, hq]
  · simp [State.busOk, State.resolved, hc, hv, ha]

theorem BusOp.ok_frame {cfg : Config} {m : Drv α} (h : BusOp cfg m) {s t : State} {a : α} (hc : s.cfg = cfg)
    (k : m s = .ok a t) : OnlyBus s t := by
  have := h.frame s hc
  rwa [k] at this

theorem BusOp.error_frame {cfg : Config} {m : Drv α} (h : BusOp cfg m) {s t : State} {e : Stop} (hc : s.cfg = cfg)
    (k : m s = .error e t) : OnlyBus s t := by
  have := h.frame s hc
  rwa [k] at this

/-- Bus activity completes where no primitive fails and the address is resolved. -/
theorem BusOp.completes {cfg : Config} {m : Drv α} (h : BusOp cfg m) {s : State} (hc : s.cfg = cfg)
    (hb : s.busOk = true) : ∃ a t, m s = .ok a t ∧ OnlyBus s t ∧ t.busOk = true := by
  cases k : m s with
  | ok a t => exact ⟨a, t, rfl, h.ok_frame hc k, (h.ok_frame hc k).busOk hb⟩
  | error e t => exact absurd hb (by simp [(h.stops s e t hc k).not_busOk hc])

theorem BusOp.pure {cfg : Config} (a : α) : BusOp cfg (pure a : Drv α) where
  frame s _ := OnlyBus.refl s
  stops s e t _ h := by simp at h

theorem BusOp.bind {cfg : Config} {m : Drv α} {f : α → Drv β} (hm : BusOp cfg m) (hf : ∀ a, BusOp cfg (f a)) :
    BusOp cfg (m >>= f) where
  frame s hc := by
    rw [bind_run]
    cases k : m s with
    | ok a t =>
      have h1 := hm.ok_frame hc k
      exact h1.trans ((hf a).frame t (h1.cfg.trans hc))
    | error e t => exact hm.error_frame hc k
  stops s e u hc h := by
    rcases bind_eq_error.mp h with h | ⟨a, t, h1, h2⟩
    · exact hm.stops s e u hc h
    · have f1 := hm.ok_frame hc h1
      exact ((hf a).stops t e u (f1.cfg.trans hc) h2).mono f1

/-- Reading the configuration puts it in place. -/
theorem BusOp.bindCfg {cfg : Config} {f : Config → Drv β} (hf : BusOp cfg (f cfg)) : BusOp cfg (getCfg >>= f) where
  frame s hc := by rw [bind_getCfg, hc]; exact hf.frame s hc
  stops s e t hc h := hf.stops s e t hc (by rwa [bind_getCfg, hc] at h)

theorem BusOp.bindGet {cfg : Config} {f : State → Drv β} (hf : ∀ a, BusOp cfg (f a)) : BusOp cfg (get >>= f) where
  frame s hc := (hf s).frame s hc
  stops s e t hc h := (hf s).stops s e t hc h

theorem BusOp.require {cfg : Config} {c : Bool} (h : c = true) (e : Stop) : BusOp cfg (require c e) where
  frame s _ := by rw [require_true h]; exact OnlyBus.refl s
  stops s e t _ k := by rw [require_true h] at k; simp at k

theorem BusOp.onlyIf {cfg : Config} {b : Bool} {m : Drv Unit} (h : b = true → BusOp cfg m) : BusOp cfg (onlyIf b m) := by
  cases b with
  | true => simpa using h rfl
  | false => simpa using BusOp.pure ()

theorem BusOp.update {cfg : Config} {f : State → State} (h : ∀ s, OnlyBus s (f s)) : BusOp cfg (update f) where
  frame s _ := h s
  stops s e t _ k := by simp at k

theorem BusOp.emit {cfg : Config} (e : Event) : BusOp cfg (emit e) :=
  BusOp.update fun s => { OnlyBus.refl s with log := List.suffix_cons _ _ }

/-! ### Primitives -/

/-- A fallible primitive succeeds and takes a draw from the front, or fails with the failure recorded. -/
theorem platform_cases (p : Primitive) (s : State) :
    (∃ fs, fs <:+ s.env.faults ∧ platform p s = .ok () { s with env := { s.env with faults := fs } }) ∨
    (∃ fs, fs <:+ s.env.faults ∧ s.quiet = false ∧ platform p s = .error (.error (.e3 (.platformError p)))
      { s with env := { s.env with faults := fs }, log := .platformFail p :: s.log }) := by
  unfold platform
  by_cases hp : s.cfg.platformFaults = true
  · rw [if_pos hp]
    match hq : s.env.faults with
    | [] => exact .inl ⟨s.env.faults, hq ▸ List.suffix_refl _, rfl⟩
    | false :: rest => exact .inl ⟨rest, List.suffix_cons _ _, rfl⟩
    | true :: rest => exact .inr ⟨rest, List.suffix_cons _ _, by simp [State.quiet, hp, hq], rfl⟩
  · rw [if_neg hp]
    exact .inl ⟨s.env.faults, List.suffix_refl _, rfl⟩

theorem platform_busOp {cfg : Config} (p : Primitive) : BusOp cfg (platform p) where
  frame s _ := by
    rcases platform_cases p s with ⟨fs, hfs, h⟩ | ⟨fs, hfs, -, h⟩ <;> rw [h]
    · exact { OnlyBus.refl s with faults := hfs }
    · exact { OnlyBus.refl s with faults := hfs, log := List.suffix_cons _ _ }
  stops s e t _ k := by
    rcases platform_cases p s with ⟨fs, -, h⟩ | ⟨fs, -, hq, h⟩ <;> rw [h] at k
    · simp at k
    · obtain ⟨rfl, -⟩ : _ ∧ _ := by simpa using k
      exact .inl ⟨p, rfl, hq⟩

theorem platform_ok {p : Primitive} {s t : State} {u : Unit} (h : platform p s = .ok u t) :
    ∃ fs, fs <:+ s.env.faults ∧ t = { s with env := { s.env with faults := fs } } := by
  rcases platform_cases p s with ⟨fs, hfs, k⟩ | ⟨fs, -, -, k⟩ <;> rw [k] at h
  · exact ⟨fs, hfs, by simpa [eq_comm] using h⟩
  · simp at h

theorem drive_busOp {cfg : Config} (l : Line) (b : Bool) : BusOp cfg (drive l b) :=
  (platform_busOp _).bind fun _ => (BusOp.update fun s => OnlyBus.lines s _ _ _).bind fun _ => BusOp.emit _

theorem drive_ok {l : Line} {b : Bool} {s t : State} {u : Unit} (h : drive l b s = .ok u t) :
    ∃ fs, fs <:+ s.env.faults ∧ t = { s with
      lvl := s.lvl.drive l b, log := .drive l b :: s.log, env := { s.env with faults := fs } } := by
  obtain ⟨_, _, h1, h2⟩ := bind_eq_ok.mp h
  obtain ⟨fs, hfs, rfl⟩ := platform_ok h1
  refine ⟨fs, hfs, ?_⟩
  simpa [emit, eq_comm] using h2

theorem setDir_busOp {cfg : Config} (ls : List (Fin 8)) (d : Dir) : BusOp cfg (setDir ls d) :=
  (platform_busOp _).bind fun _ => (BusOp.update fun s => OnlyBus.lines s _ _ _).bind fun _ => BusOp.emit _

theorem setDir_ok {ls : List (Fin 8)} {d : Dir} {s t : State} {u : Unit} (h : setDir ls d s = .ok u t) :
    ∃ fs, fs <:+ s.env.faults ∧ t = { s with
      dir := setLines d ls s.dir, lvl := s.lvl.release ls, log := .setDir ls d :: s.log, env := { s.env with faults := fs } } := by
  obtain ⟨_, _, h1, h2⟩ := bind_eq_ok.mp h
  obtain ⟨fs, hfs, rfl⟩ := platform_ok h1
  refine ⟨fs, hfs, ?_⟩
  simpa [emit, eq_comm] using h2

theorem sleepUs_busOp {cfg : Config} (n : Nat) : BusOp cfg (sleepUs n) := BusOp.emit _
theorem sleepMs_busOp {cfg : Config} (n : Nat) : BusOp cfg (sleepMs n) := BusOp.emit _

@[simp] theorem sleepUs_run (n : Nat) (s : State) : sleepUs n s = .ok () { s with log := .sleepUs n :: s.log } := rfl
@[simp] theorem sleepMs_run (n : Nat) (s : State) : sleepMs n s = .ok () { s with log := .sleepMs n :: s.log } := rfl
@[simp] theorem warnBusyTimeout_run (c : Cmd) (s : State) :
    warnBusyTimeout c s = .ok () { s with log := .warn c :: s.log } := rfl

/-- Taking a draw changes the draws only. -/
theorem drawFrom_busOp {cfg : Config} {queue : Env → List α} {setQueue : List α → Env → Env} {free : Nat → α}
    (h : ∀ s a rest, queue s.env = a :: rest → OnlyBus s { s with env := setQueue rest s.env }) :
    BusOp cfg (drawFrom queue setQueue free) where
  frame s _ := by
    unfold drawFrom
    split
    · exact h s _ _ ‹_›
    · exact { OnlyBus.refl s with drawn := Nat.le_succ _ }
  stops s e t _ k := by
    unfold drawFrom at k
    split at k <;> simp at k

theorem sample_busOp {cfg : Config} (l : Line) : BusOp cfg (sample l) :=
  (platform_busOp _).bind fun _ => BusOp.bind
    (drawFrom_busOp (fun s _ _ h => { OnlyBus.refl s with samples := h ▸ List.suffix_cons _ _ })) fun _ => (BusOp.emit _).bind fun _ => BusOp.pure _

/-- A supplied sample is the bit read, and stands in the event. -/
theorem sample_supplied {l : Line} {s t : State} {a b : Bool} {rest : List Bool} (hs : s.env.samples = b :: rest)
    (h : sample l s = .ok a t) : a = b ∧ ∃ fs, fs <:+ s.env.faults ∧ t = { s with
      log := .sample l b :: s.log, env := { s.env with faults := fs, samples := rest } } := by
  obtain ⟨_, _, h1, h2⟩ := bind_eq_ok.mp h
  obtain ⟨fs, hfs, rfl⟩ := platform_ok h1
  rw [bind_ok (a := b) (t := { s with env := { s.env with faults := fs, samples := rest } })
    (by simp [drawFrom, hs])] at h2
  obtain ⟨rfl, rfl⟩ : b = a ∧ _ = t := by simpa [emit] using h2
  exact ⟨rfl, fs, hfs, rfl⟩

theorem sample_ok {l : Line} {s t : State} {b : Bool} (h : sample l s = .ok b t) :
    ∃ env, t = { s with log := .sample l b :: s.log, env := env } := by
  obtain ⟨_, _, h1, h2⟩ := bind_eq_ok.mp h
  obtain ⟨fs, hfs, rfl⟩ := platform_ok h1
  obtain ⟨a, u, h3, h4⟩ := bind_eq_ok.mp h2
  obtain ⟨rfl, rfl⟩ : a = b ∧ _ = t := by simpa [emit] using h4
  unfold drawFrom at h3
  split at h3 <;> (obtain ⟨rfl, rfl⟩ : _ ∧ _ = u := by simpa using h3) <;> exact ⟨_, rfl⟩

/-- `Ticks` never stops, records the value it returns, and does not go back; a supplied increment is used, and otherwise
the counter advances by at least 1 (10_state.md R32). -/
theorem ticks_cases (s : State) :
    ∃ env, ticks s = .ok env.now { s with log := .ticks env.now :: s.log, env := env } ∧
      s.env.now ≤ env.now ∧ env.faults = s.env.faults ∧ env.samples = s.env.samples ∧ env.reads = s.env.reads ∧
      env.scans = s.env.scans ∧ s.env.drawn ≤ env.drawn ∧
      ((∃ d, s.env.ticks = d :: env.ticks ∧ env.now = s.env.now + d) ∨
        (s.env.ticks = [] ∧ env.ticks = [] ∧ s.env.now < env.now)) := by
  cases h : s.env.ticks with
  | nil =>
    refine ⟨{ s.env with now := s.env.now + (Config.freeTick s.env.drawn + 1), drawn := s.env.drawn + 1 }, ?_, ?_⟩
    · simp only [ticks, bind_run, drawFrom, h]; simp [emit, update]
    · simp; omega
  | cons d rest =>
    refine ⟨{ s.env with now := s.env.now + d, ticks := rest }, ?_, ?_⟩
    · simp only [ticks, bind_run, drawFrom, h]; simp [emit, update]
    · simp

theorem ticks_busOp {cfg : Config} : BusOp cfg ticks where
  frame s _ := by
    obtain ⟨env, h, hn, hf, hs, hr, hc, hd, ht⟩ := ticks_cases s
    rw [h]
    refine { OnlyBus.refl s with log := List.suffix_cons _ _, now := hn, faults := ?_, samples := ?_, reads := ?_, scans := ?_, ticks := ?_, drawn := hd }
    · exact hf ▸ List.suffix_refl _
    · exact hs ▸ List.suffix_refl _
    · exact hr ▸ List.suffix_refl _
    · exact hc ▸ List.suffix_refl _
    · rcases ht with ⟨d, ht, -⟩ | ⟨ht, ht', -⟩
      · exact ht ▸ List.suffix_cons _ _
      · show env.ticks <:+ s.env.ticks
        rw [ht, ht']
  stops s e t _ k := by
    obtain ⟨env, h, -⟩ := ticks_cases s
    simp [h] at k

theorem i2cScan_busOp {cfg : Config} : BusOp cfg i2cScan :=
  (platform_busOp _).bind fun _ => BusOp.bind
    (drawFrom_busOp (fun s _ _ h => { OnlyBus.refl s with scans := h ▸ List.suffix_cons _ _ })) fun _ => (BusOp.emit _).bind fun _ => BusOp.pure _

/-- A supplied scan answer is the list read, without repeats, and stands in the event. -/
theorem i2cScan_supplied {s t : State} {a l : List Addr7} {rest : List (List Addr7)} (hs : s.env.scans = l :: rest)
    (h : i2cScan s = .ok a t) : a = distinctAddrs l ∧ ∃ fs, fs <:+ s.env.faults ∧ t = { s with
      log := .i2cScan (distinctAddrs l) :: s.log, env := { s.env with faults := fs, scans := rest } } := by
  obtain ⟨_, _, h1, h2⟩ := bind_eq_ok.mp h
  obtain ⟨fs, hfs, rfl⟩ := platform_ok h1
  rw [bind_ok (a := l) (t := { s with env := { s.env with faults := fs, scans := rest } })
    (by simp [drawFrom, hs])] at h2
  obtain ⟨rfl, rfl⟩ : distinctAddrs l = a ∧ _ = t := by simpa [emit] using h2
  exact ⟨rfl, fs, hfs, rfl⟩

theorem i2cTarget_ok {s t : State} {a : Addr7} (h : i2cTarget s = .ok a t) : s.i2cAddr = some a ∧ t = s := by
  unfold i2cTarget at h
  split at h <;> simp_all

theorem i2cTarget_some {s : State} {a : Addr7} (h : s.i2cAddr = some a) : i2cTarget s = .ok a s := by
  simp [i2cTarget, h]

theorem i2cTarget_busOp {cfg : Config} (hv : cfg.variant = .i2cMux4) : BusOp cfg i2cTarget where
  frame s _ := by unfold i2cTarget; split <;> exact OnlyBus.refl s
  stops s e t _ k := by
    unfold i2cTarget at k
    split at k
    · simp at k
    · obtain ⟨rfl, -⟩ : _ ∧ _ := by simpa using k
      exact .inr ⟨rfl, hv, ‹_›⟩

theorem i2cWrite_busOp {cfg : Config} (hv : cfg.variant = .i2cMux4) (b : Byte) : BusOp cfg (i2cWrite b) :=
  (i2cTarget_busOp hv).bind fun _ => (platform_busOp _).bind fun _ =>
    (BusOp.update fun s => OnlyBus.lines s _ _ _).bind fun _ => BusOp.emit _

theorem i2cWrite_ok {b : Byte} {s t : State} {u : Unit} (h : i2cWrite b s = .ok u t) :
    ∃ a fs, s.i2cAddr = some a ∧ fs <:+ s.env.faults ∧ t = { s with
      lvl := { s.lvl with i2c := .driven b }, log := .i2cWrite a b :: s.log, env := { s.env with faults := fs } } := by
  obtain ⟨a, _, h1, h2⟩ := bind_eq_ok.mp h
  obtain ⟨ha, rfl⟩ := i2cTarget_ok h1
  obtain ⟨_, _, h3, h4⟩ := bind_eq_ok.mp h2
  obtain ⟨fs, hfs, rfl⟩ := platform_ok h3
  exact ⟨a, fs, ha, hfs, by simpa [emit, eq_comm] using h4⟩

theorem i2cRead_busOp {cfg : Config} (hv : cfg.variant = .i2cMux4) : BusOp cfg i2cRead :=
  (i2cTarget_busOp hv).bind fun _ => (platform_busOp _).bind fun _ => BusOp.bind
    (drawFrom_busOp (fun s _ _ h => { OnlyBus.refl s with reads := h ▸ List.suffix_cons _ _ })) fun _ => (BusOp.emit _).bind fun _ => BusOp.pure _

theorem i2cRead_ok {b : Byte} {s t : State} (h : i2cRead s = .ok b t) :
    ∃ a env, s.i2cAddr = some a ∧ t = { s with log := .i2cRead a b :: s.log, env := env } := by
  obtain ⟨a, _, h1, h2⟩ := bind_eq_ok.mp h
  obtain ⟨ha, rfl⟩ := i2cTarget_ok h1
  obtain ⟨_, _, h3, h4⟩ := bind_eq_ok.mp h2
  obtain ⟨fs, hfs, rfl⟩ := platform_ok h3
  obtain ⟨c, u, h5, h6⟩ := bind_eq_ok.mp h4
  obtain ⟨rfl, rfl⟩ : c = b ∧ _ = t := by simpa [emit] using h6
  unfold drawFrom at h5
  split at h5 <;> (obtain ⟨rfl, rfl⟩ : _ ∧ _ = u := by simpa using h5) <;> exact ⟨_, _, ha, rfl⟩

/-- A supplied expander byte is the byte read, and stands in the event. -/
theorem i2cRead_supplied {s t : State} {a b : Byte} {rest : List Byte} (hs : s.env.reads = b :: rest)
    (h : i2cRead s = .ok a t) : a = b ∧ ∃ ad fs, s.i2cAddr = some ad ∧ fs <:+ s.env.faults ∧ t = { s with
      log := .i2cRead ad b :: s.log, env := { s.env with faults := fs, reads := rest } } := by
  obtain ⟨ad, s', h1, h2⟩ := bind_eq_ok.mp h
  obtain ⟨ha, hs'⟩ := i2cTarget_ok h1
  rw [hs'] at h2
  obtain ⟨_, _, h3, h4⟩ := bind_eq_ok.mp h2
  obtain ⟨fs, hfs, rfl⟩ := platform_ok h3
  rw [bind_ok (a := b) (t := { s with env := { s.env with faults := fs, reads := rest } })
    (by simp [drawFrom, hs])] at h4
  obtain ⟨rfl, rfl⟩ : b = a ∧ _ = t := by simpa [emit] using h4
  exact ⟨rfl, ad, fs, ha, hfs, rfl⟩

/-! ### Fetching a call -/

/-- A call that runs is not an overlapping one, and its arguments have their types. -/
theorem fetch_run {c : Call} {i : Instr} (h : fetch c = .run i) : c.overlaps = false ∧ i.wf = true := by
  have typed : ∀ {j : Instr}, checkTypes j = .run i → i.wf = true := by
    intro j hj
    unfold checkTypes at hj
    split at hj
    · next hw => exact (Fetched.run.inj hj) ▸ hw
    · simp at hj
  unfold fetch at h
  split at h
  · simp at h
  · next ho =>
    refine ⟨by simpa using ho, ?_⟩
    split at h
    · split at h
      · exact typed h
      · simp at h
    · exact typed h
    · simp at h

end Sys2Proof.Machine
end

