-- ==== Sys2Proof/Laws/Bus.lean ====
section
/-! SUPPORT. The laws of the transports: every function's frame and stops (`BusOp`), what a completed one leaves alone
(`BusDone`), and the exact events of the write functions (`WriteOp`). -/

namespace Sys2Proof.Machine

open Sys2Proof

variable {α β : Type} {cfg : Config}

/-! ### Frames and stops of the parallel functions -/

theorem pulse_busOp : BusOp cfg pulse :=
  BusOp.bindCfg <| (drive_busOp _ _).bind fun _ => (sleepUs_busOp _).bind fun _ => (drive_busOp _ _).bind fun _ =>
    sleepUs_busOp _

theorem driveData_busOp (val : Byte) (low : Nat) (ls : List (Fin 8)) : BusOp cfg (driveData val low ls) := by
  induction ls with
  | nil => exact BusOp.pure ()
  | cons i is ih => exact (drive_busOp _ _).bind fun _ => ih

theorem parWriteCycle_busOp (rs : Bool) (val : Byte) : BusOp cfg (parWriteCycle rs val) :=
  BusOp.bindCfg <| (drive_busOp _ _).bind fun _ => (BusOp.onlyIf fun _ => drive_busOp _ _).bind fun _ =>
    (driveData_busOp _ _ _).bind fun _ => (sleepUs_busOp _).bind fun _ => pulse_busOp

theorem sampleLines_busOp (p : Byte) (ls : List (Fin 8)) : BusOp cfg (sampleLines p ls) := by
  induction ls generalizing p with
  | nil => exact BusOp.pure p
  | cons i is ih => exact (sample_busOp _).bind fun _ => ih _

theorem parReadCycle_busOp (rs : Bool) : BusOp cfg (parReadCycle rs) :=
  BusOp.bindCfg <| (drive_busOp _ _).bind fun _ => (drive_busOp _ _).bind fun _ => (sleepUs_busOp _).bind fun _ =>
    (drive_busOp _ _).bind fun _ => (sleepUs_busOp _).bind fun _ => (sampleLines_busOp _ _).bind fun _ =>
    (drive_busOp _ _).bind fun _ => (sleepUs_busOp _).bind fun _ => BusOp.pure _

theorem parReadCycles_busOp (rs : Bool) : BusOp cfg (parReadCycles rs) :=
  BusOp.bindCfg <| (parReadCycle_busOp _).bind fun p => by
    split
    · exact BusOp.pure p
    · exact (parReadCycle_busOp _).bind fun _ => BusOp.pure _

/-! ### Checks -/

theorem writeChecks_pass {c : Nat} (hc : c < 1024) (hw : c.testBit 8 = false) (s : State) :
    writeChecks c s = .ok () s := by
  simp [writeChecks, bind_run, require, hc, hw]

theorem readChecks_pass {c : Nat} (hc : c < 1024) (hr : c.testBit 8 = true) {s : State} (h : s.cfg.canRead = true) :
    readChecks c s = .ok () s := by
  simp [readChecks, bind_run, require, hc, hr, h]

theorem readChecks_unsupported {c : Nat} (hc : c < 1024) (hr : c.testBit 8 = true) {s : State}
    (h : s.cfg.canRead = false) : readChecks c s = .error (.error (.e2 .readUnsupported)) s := by
  simp [readChecks, bind_run, require, hc, hr, h]

/-- The write checks change nothing, and stop with E1 only. -/
theorem writeChecks_cases (c : Nat) (s : State) :
    (writeChecks c s = .ok () s ∧ c < 1024 ∧ c.testBit 8 = false) ∨
      (∃ i, writeChecks c s = .error (.error (.e1 i)) s) := by
  by_cases hc : c < 1024
  · cases hw : c.testBit 8 with
    | false => exact .inl ⟨writeChecks_pass hc hw s, hc, rfl⟩
    | true => exact .inr ⟨.wrongDirection c, by simp [writeChecks, bind_run, require, hc, hw]⟩
  · exact .inr ⟨.commandOutOfRange c, by simp [writeChecks, bind_run, require, hc]⟩

/-- The read checks change nothing, and stop with E1 or E2 only. -/
theorem readChecks_cases (c : Nat) (s : State) :
    (readChecks c s = .ok () s ∧ c < 1024 ∧ c.testBit 8 = true ∧ s.cfg.canRead = true) ∨
      (∃ i, readChecks c s = .error (.error (.e1 i)) s) ∨ (∃ i, readChecks c s = .error (.error (.e2 i)) s) := by
  by_cases hc : c < 1024
  · cases hr : c.testBit 8 with
    | true =>
      cases h : s.cfg.canRead with
      | true => exact .inl ⟨readChecks_pass hc hr h, hc, rfl, rfl⟩
      | false => exact .inr (.inr ⟨_, readChecks_unsupported hc hr h⟩)
    | false => exact .inr (.inl ⟨.wrongDirection c, by simp [readChecks, bind_run, require, hc, hr]⟩)
  · exact .inr (.inl ⟨.commandOutOfRange c, by simp [readChecks, bind_run, require, hc]⟩)

/-! ### The words of the transports -/

@[simp] theorem Cmd.testBit8 (c : Cmd) : c.toNat.testBit 8 = c.rw := BitVec.testBit_toNat c
@[simp] theorem Cmd.testBit9 (c : Cmd) : c.toNat.testBit 9 = c.rs := BitVec.testBit_toNat c


theorem parWrite8_busOp (w : Cmd) : BusOp cfg (parWrite8 w) := parWriteCycle_busOp _ _

theorem parWrite4_busOp (w : Cmd) : BusOp cfg (parWrite4 w) :=
  (parWriteCycle_busOp _ _).bind fun _ => parWriteCycle_busOp _ _

/-- The body of a parallel read, after its checks. -/
def parReadBody (rs : Bool) : Drv Byte := do
  let cfg ← getCfg
  setDir cfg.dataLines .inp
  let v ← parReadCycles rs
  setDir cfg.dataLines .out
  pure v

theorem parReadBody_busOp (rs : Bool) : BusOp cfg (parReadBody rs) :=
  BusOp.bindCfg <| (setDir_busOp _ _).bind fun _ => (parReadCycles_busOp _).bind fun _ =>
    (setDir_busOp _ _).bind fun _ => BusOp.pure _

theorem i2cPut_busOp (hv : cfg.variant = .i2cMux4) (b : Byte) (n : Nat) : BusOp cfg (i2cPut b n) :=
  (i2cWrite_busOp hv _).bind fun _ => sleepUs_busOp _

theorem getBl_busOp : BusOp cfg getBl where
  frame s _ := OnlyBus.refl s
  stops s e t _ k := by simp [getBl] at k

theorem i2cWriteCycle_busOp (hv : cfg.variant = .i2cMux4) (rs : Bool) (nib : Nibble) :
    BusOp cfg (i2cWriteCycle rs nib) :=
  BusOp.bindCfg <| getBl_busOp.bind fun _ => (i2cPut_busOp hv _ _).bind fun _ => (i2cPut_busOp hv _ _).bind fun _ =>
    i2cPut_busOp hv _ _

theorem i2cWriteWord_busOp (hv : cfg.variant = .i2cMux4) (w : Cmd) : BusOp cfg (i2cWriteWord w) :=
  (i2cWriteCycle_busOp hv _ _).bind fun _ => i2cWriteCycle_busOp hv _ _

theorem i2cReadCycle_busOp (hv : cfg.variant = .i2cMux4) (rs : Bool) : BusOp cfg (i2cReadCycle rs) :=
  BusOp.bindCfg <| getBl_busOp.bind fun _ => (i2cPut_busOp hv _ _).bind fun _ => (i2cPut_busOp hv _ _).bind fun _ =>
    (i2cRead_busOp hv).bind fun _ => (i2cPut_busOp hv _ _).bind fun _ => BusOp.pure _

/-- The body of an I2C read, after its checks. -/
def i2cReadBody (rs : Bool) : Drv Byte := do
  let hi ← i2cReadCycle rs
  let lo ← i2cReadCycle rs
  pure (joinNibbles hi lo)

theorem i2cReadBody_busOp (hv : cfg.variant = .i2cMux4) (rs : Bool) : BusOp cfg (i2cReadBody rs) :=
  (i2cReadCycle_busOp hv _).bind fun _ => (i2cReadCycle_busOp hv _).bind fun _ => BusOp.pure _

/-- The transfer of a word on the transport of a configuration, after the checks. -/
def writeBody (v : Variant) (w : Cmd) : Drv Unit :=
  match v with
  | .parallel8 => parWrite8 w
  | .parallel4 => parWrite4 w
  | .i2cMux4 => i2cWriteWord w

/-- A read on the transport of a configuration, after the checks. -/
def readBody (v : Variant) (rs : Bool) : Drv Byte :=
  match v with
  | .parallel8 => parReadBody rs
  | .parallel4 => parReadBody rs
  | .i2cMux4 => i2cReadBody rs

theorem writeBody_busOp (w : Cmd) : BusOp cfg (writeBody cfg.variant w) := by
  cases hv : cfg.variant with
  | parallel8 => exact parWrite8_busOp w
  | parallel4 => exact parWrite4_busOp w
  | i2cMux4 => exact i2cWriteWord_busOp hv w

theorem readBody_busOp (rs : Bool) : BusOp cfg (readBody cfg.variant rs) := by
  cases hv : cfg.variant with
  | parallel8 => exact parReadBody_busOp rs
  | parallel4 => exact parReadBody_busOp rs
  | i2cMux4 => exact i2cReadBody_busOp hv rs

/-- `bus.write` of a write word is its transfer. -/
theorem busWrite_eq {c : Cmd} (h : c.rw = false) (s : State) :
    busWrite c.toNat s = writeBody s.cfg.variant c s := by
  have hw : c.toNat.testBit 8 = false := by simpa using h
  rw [busWrite, bind_getCfg]
  cases s.cfg.variant <;>
    simp only [busWriteP8, busWriteP4, busWriteI2C, bind_ok (writeChecks_pass c.isLt hw s), BitVec.ofNat_toNat,
      BitVec.setWidth_eq, writeBody]

/-- `bus.read` of a read word on a readable bus is its transfer. -/
theorem busRead_eq {c : Nat} (hc : c < 1024) (hr : c.testBit 8 = true) {s : State} (h : s.cfg.canRead = true) :
    busRead c s = readBody s.cfg.variant (c.testBit 9) s := by
  rw [busRead, bind_getCfg]
  cases s.cfg.variant <;>
    simp only [parRead, i2cBusRead, bind_ok (readChecks_pass hc hr h), readBody, parReadBody, i2cReadBody]

/-- `bus.read` of a read word on a write-only bus stops before any event. -/
theorem busRead_unsupported {c : Nat} (hc : c < 1024) (hr : c.testBit 8 = true) {s : State}
    (h : s.cfg.canRead = false) : busRead c s = .error (.error (.e2 .readUnsupported)) s := by
  rw [busRead, bind_getCfg]
  cases s.cfg.variant <;> simp only [parRead, i2cBusRead, bind_error (readChecks_unsupported hc hr h)]

theorem busWrite_busOp {c : Cmd} (h : c.rw = false) : BusOp cfg (busWrite c.toNat) where
  frame s hc := by
    have := (writeBody_busOp (cfg := cfg) c).frame s hc
    rw [busWrite_eq h, hc]; exact this
  stops s e t hc k := by
    rw [busWrite_eq h, hc] at k
    exact (writeBody_busOp c).stops s e t hc k

theorem busRead_busOp {c : Nat} (hc : c < 1024) (hr : c.testBit 8 = true) (h : cfg.canRead = true) :
    BusOp cfg (busRead c) where
  frame s hs := by
    have := (readBody_busOp (cfg := cfg) (c.testBit 9)).frame s hs
    rw [busRead_eq hc hr (by rw [hs]; exact h), hs]; exact this
  stops s e t hs k := by
    rw [busRead_eq hc hr (by rw [hs]; exact h), hs] at k
    exact (readBody_busOp _).stops s e t hs k

/-! ### What a completed part of a transfer leaves alone -/

/-- What the parts of a transfer leave alone, beside `OnlyBus`; E and the directions may be in use. -/
structure Part (s t : State) : Prop extends OnlyBus s t where
  acSpace : t.acSpace = s.acSpace
  blLine : t.lvl.bl = s.lvl.bl
  dir : t.dir = s.dir
  noByte : s.cfg.variant ≠ .i2cMux4 → t.lvl.i2c = s.lvl.i2c
  noLine : s.cfg.variant = .i2cMux4 →
    t.lvl.rs = s.lvl.rs ∧ t.lvl.rw = s.lvl.rw ∧ t.lvl.e = s.lvl.e ∧ t.lvl.data = s.lvl.data ∧
      t.lvl.wire = s.lvl.wire

/-- A completed run of `m` is such a part. -/
def PartOp (cfg : Config) (m : Drv α) : Prop := ∀ s a t, s.cfg = cfg → m s = .ok a t → Part s t

/-- A completed run of `m` is a whole transfer. -/
def DoneOp (cfg : Config) (m : Drv α) : Prop := ∀ s a t, s.cfg = cfg → m s = .ok a t → BusDone s t

theorem Part.refl (s : State) : Part s s where
  toOnlyBus := OnlyBus.refl s
  acSpace := rfl
  blLine := rfl
  dir := rfl
  noByte _ := rfl
  noLine _ := ⟨rfl, rfl, rfl, rfl, rfl⟩

theorem Part.trans {s t u : State} (h : Part s t) (k : Part t u) : Part s u where
  toOnlyBus := h.toOnlyBus.trans k.toOnlyBus
  acSpace := k.acSpace.trans h.acSpace
  blLine := k.blLine.trans h.blLine
  dir := k.dir.trans h.dir
  noByte hv := (k.noByte (by rw [h.cfg]; exact hv)).trans (h.noByte hv)
  noLine hv := by
    have a := h.noLine hv
    have b := k.noLine (by rw [h.cfg]; exact hv)
    exact ⟨b.1.trans a.1, b.2.1.trans a.2.1, b.2.2.1.trans a.2.2.1, b.2.2.2.1.trans a.2.2.2.1,
      b.2.2.2.2.trans a.2.2.2.2⟩

/-- A part after which E is low or as before is a whole transfer. -/
theorem Part.done {s t : State} (h : Part s t) (e : t.lvl.e = s.lvl.e ∨ t.lvl.e = .driven false) : BusDone s t where
  toOnlyBus := h.toOnlyBus
  acSpace := h.acSpace
  blLine := h.blLine
  eLow := e
  dir i := .inl (by rw [h.dir])
  noByte := h.noByte
  noLine hv := ⟨(h.noLine hv).1, (h.noLine hv).2.1, (h.noLine hv).2.2.1, (h.noLine hv).2.2.2.1,
    (h.noLine hv).2.2.2.2, h.dir⟩

theorem PartOp.pure (a : α) : PartOp cfg (pure a : Drv α) := by
  rintro s b t - h
  obtain ⟨-, rfl⟩ : _ ∧ s = t := by simpa using h
  exact Part.refl s

theorem PartOp.bind {m : Drv α} {f : α → Drv β} (hm : PartOp cfg m) (hf : ∀ a, PartOp cfg (f a)) :
    PartOp cfg (m >>= f) := by
  intro s b u hc h
  obtain ⟨a, t, h1, h2⟩ := bind_eq_ok.mp h
  have p1 := hm s a t hc h1
  exact p1.trans (hf a t b u (p1.cfg.trans hc) h2)

theorem PartOp.bindCfg {f : Config → Drv β} (hf : PartOp cfg (f cfg)) : PartOp cfg (getCfg >>= f) := by
  intro s b u hc h
  exact hf s b u hc (by rwa [bind_getCfg, hc] at h)

theorem DoneOp.pure (a : α) : DoneOp cfg (pure a : Drv α) := by
  rintro s b t - h
  obtain ⟨-, rfl⟩ : _ ∧ s = t := by simpa using h
  exact BusDone.refl s

theorem DoneOp.bind {m : Drv α} {f : α → Drv β} (hm : DoneOp cfg m) (hf : ∀ a, DoneOp cfg (f a)) :
    DoneOp cfg (m >>= f) := by
  intro s b u hc h
  obtain ⟨a, t, h1, h2⟩ := bind_eq_ok.mp h
  have p1 := hm s a t hc h1
  exact p1.trans (hf a t b u (p1.cfg.trans hc) h2)

theorem DoneOp.bindCfg {f : Config → Drv β} (hf : DoneOp cfg (f cfg)) : DoneOp cfg (getCfg >>= f) := by
  intro s b u hc h
  exact hf s b u hc (by rwa [bind_getCfg, hc] at h)

theorem DoneOp.onlyIf {b : Bool} {m : Drv Unit} (h : b = true → DoneOp cfg m) : DoneOp cfg (onlyIf b m) := by
  cases b with
  | true => simpa using h rfl
  | false => simpa using DoneOp.pure ()

theorem emit_partOp (e : Event) : PartOp cfg (emit e) := by
  rintro s u t - h
  obtain rfl : _ = t := by simpa [emit] using h
  exact { Part.refl s with toOnlyBus := { OnlyBus.refl s with log := List.suffix_cons _ _ } }

theorem sleepUs_partOp (n : Nat) : PartOp cfg (sleepUs n) := emit_partOp _

theorem drive_partOp (hv : cfg.variant ≠ .i2cMux4) {l : Line} (hl : l ≠ .bl) (b : Bool) : PartOp cfg (drive l b) := by
  rintro s u t hc h
  have hb := (drive_busOp (cfg := cfg) l b).ok_frame hc h
  obtain ⟨fs, -, rfl⟩ := drive_ok h
  exact
    { toOnlyBus := hb
      acSpace := rfl
      blLine := drive_bl hl b s.lvl
      dir := rfl
      noByte := fun _ => drive_i2c l b s.lvl
      noLine := fun h => absurd (hc ▸ h) hv }

theorem sample_partOp (l : Line) : PartOp cfg (sample l) := by
  rintro s b t hc h
  have hb := (sample_busOp (cfg := cfg) l).ok_frame hc h
  obtain ⟨env, rfl⟩ := sample_ok h
  exact { Part.refl s with toOnlyBus := hb }

theorem sampleLines_partOp (p : Byte) (ls : List (Fin 8)) : PartOp cfg (sampleLines p ls) := by
  induction ls generalizing p with
  | nil => exact PartOp.pure p
  | cons i is ih => exact (sample_partOp _).bind fun _ => ih _

theorem i2cWrite_partOp (hv : cfg.variant = .i2cMux4) (b : Byte) : PartOp cfg (i2cWrite b) := by
  rintro s u t hc h
  have hb := (i2cWrite_busOp hv b).ok_frame hc h
  obtain ⟨a, fs, -, -, rfl⟩ := i2cWrite_ok h
  exact
    { toOnlyBus := hb
      acSpace := rfl
      blLine := rfl
      dir := rfl
      noByte := fun h => absurd (hc ▸ hv) h
      noLine := fun _ => ⟨rfl, rfl, rfl, rfl, rfl⟩ }

theorem i2cRead_partOp (hv : cfg.variant = .i2cMux4) : PartOp cfg i2cRead := by
  rintro s b t hc h
  have hb := (i2cRead_busOp hv).ok_frame hc h
  obtain ⟨a, env, -, rfl⟩ := i2cRead_ok h
  exact { Part.refl s with toOnlyBus := hb }

theorem getBl_partOp : PartOp cfg getBl := by
  rintro s u t - h
  obtain ⟨-, rfl⟩ : _ ∧ s = t := by simpa [getBl] using h
  exact Part.refl s

theorem i2cPut_partOp (hv : cfg.variant = .i2cMux4) (b : Byte) (n : Nat) : PartOp cfg (i2cPut b n) :=
  (i2cWrite_partOp hv _).bind fun _ => sleepUs_partOp _

/-- On I2C-Mux4 every part is a whole transfer: no line is driven. -/
theorem PartOp.done (hv : cfg.variant = .i2cMux4) {m : Drv α} (h : PartOp cfg m) : DoneOp cfg m :=
  fun s a t hc k => (h s a t hc k).done (.inl ((h s a t hc k).noLine (by rw [hc]; exact hv)).2.2.1)

theorem i2cWriteCycle_done (hv : cfg.variant = .i2cMux4) (rs : Bool) (nib : Nibble) :
    DoneOp cfg (i2cWriteCycle rs nib) :=
  PartOp.done hv <| PartOp.bindCfg <| getBl_partOp.bind fun _ => (i2cPut_partOp hv _ _).bind fun _ =>
    (i2cPut_partOp hv _ _).bind fun _ => i2cPut_partOp hv _ _

theorem i2cReadCycle_done (hv : cfg.variant = .i2cMux4) (rs : Bool) : DoneOp cfg (i2cReadCycle rs) :=
  PartOp.done hv <| PartOp.bindCfg <| getBl_partOp.bind fun _ => (i2cPut_partOp hv _ _).bind fun _ =>
    (i2cPut_partOp hv _ _).bind fun _ => (i2cRead_partOp hv).bind fun _ => (i2cPut_partOp hv _ _).bind fun _ =>
    PartOp.pure _

theorem i2cReadBody_done (hv : cfg.variant = .i2cMux4) (rs : Bool) : DoneOp cfg (i2cReadBody rs) :=
  (i2cReadCycle_done hv _).bind fun _ => (i2cReadCycle_done hv _).bind fun _ => DoneOp.pure _

theorem driveData_partOp (hv : cfg.variant ≠ .i2cMux4) (val : Byte) (low : Nat) (ls : List (Fin 8)) :
    PartOp cfg (driveData val low ls) := by
  induction ls with
  | nil => exact PartOp.pure ()
  | cons i is ih => exact (drive_partOp hv (by simp) _).bind fun _ => ih

theorem pulse_partOp (hv : cfg.variant ≠ .i2cMux4) : PartOp cfg pulse :=
  PartOp.bindCfg <| (drive_partOp hv (by simp) _).bind fun _ => (sleepUs_partOp _).bind fun _ =>
    (drive_partOp hv (by simp) _).bind fun _ => sleepUs_partOp _

/-- E is low after the last fall of E and a delay. -/
theorem fallE_low {n : Nat} {f : Unit → Drv α} (hf : ∀ u s a t, f u s = .ok a t → t.lvl = s.lvl) {s t : State} {a : α}
    (h : (drive .e false >>= fun _ => sleepUs n >>= f) s = .ok a t) : t.lvl.e = .driven false := by
  obtain ⟨_, u, h1, h2⟩ := bind_eq_ok.mp h
  obtain ⟨fs, -, rfl⟩ := drive_ok h1
  obtain ⟨_, w, h3, h4⟩ := bind_eq_ok.mp h2
  obtain rfl : _ = w := by simpa using h3
  rw [hf _ _ _ _ h4]
  rfl

theorem pulse_low {s t : State} {u : Unit} (h : pulse s = .ok u t) : t.lvl.e = .driven false := by
  rw [pulse, bind_getCfg] at h
  obtain ⟨_, _, -, h⟩ := bind_eq_ok.mp h
  obtain ⟨_, _, -, h⟩ := bind_eq_ok.mp h
  obtain ⟨_, _, h1, h2⟩ := bind_eq_ok.mp h
  obtain ⟨fs, -, rfl⟩ := drive_ok h1
  obtain rfl : _ = t := by simpa using h2
  rfl

theorem parWriteCycle_done (hv : cfg.variant ≠ .i2cMux4) (rs : Bool) (val : Byte) :
    DoneOp cfg (parWriteCycle rs val) := by
  intro s a t hc h
  have hp : Part s t := (PartOp.bindCfg <| (drive_partOp hv (by simp) rs).bind fun _ =>
    PartOp.bind (m := onlyIf cfg.rwWired (drive .rw false)) (by
      cases cfg.rwWired with
      | true => exact drive_partOp hv (by simp) _
      | false => exact PartOp.pure ()) fun _ =>
    (driveData_partOp hv val (8 - cfg.width) cfg.dataLines).bind fun _ => (sleepUs_partOp cfg.tAsUs).bind fun _ =>
    pulse_partOp hv) s a t hc h
  refine hp.done (.inr ?_)
  rw [parWriteCycle, bind_getCfg] at h
  obtain ⟨_, _, -, h⟩ := bind_eq_ok.mp h
  obtain ⟨_, _, -, h⟩ := bind_eq_ok.mp h
  obtain ⟨_, _, -, h⟩ := bind_eq_ok.mp h
  obtain ⟨_, _, -, h⟩ := bind_eq_ok.mp h
  exact pulse_low h

/-- A completed read cycle is a part, with E low at its end. -/
theorem parReadCycle_part (hv : cfg.variant ≠ .i2cMux4) {rs : Bool} {s t : State} {v : Byte} (hc : s.cfg = cfg)
    (h : parReadCycle rs s = .ok v t) : Part s t ∧ t.lvl.e = .driven false := by
  constructor
  · exact (PartOp.bindCfg <| (drive_partOp hv (by simp) rs).bind fun _ => (drive_partOp hv (by simp) true).bind fun _ =>
      (sleepUs_partOp cfg.tAsUs).bind fun _ => (drive_partOp hv (by simp) true).bind fun _ =>
      (sleepUs_partOp cfg.tPwUs).bind fun _ => (sampleLines_partOp 0 cfg.dataLines).bind fun _ =>
      (drive_partOp hv (by simp) false).bind fun _ => (sleepUs_partOp cfg.tCycUs).bind fun _ =>
      PartOp.pure _) s v t hc h
  · rw [parReadCycle, bind_getCfg] at h
    obtain ⟨_, _, -, h⟩ := bind_eq_ok.mp h
    obtain ⟨_, _, -, h⟩ := bind_eq_ok.mp h
    obtain ⟨_, _, -, h⟩ := bind_eq_ok.mp h
    obtain ⟨_, _, -, h⟩ := bind_eq_ok.mp h
    obtain ⟨_, _, -, h⟩ := bind_eq_ok.mp h
    obtain ⟨_, _, -, h⟩ := bind_eq_ok.mp h
    exact fallE_low (fun _ _ _ _ k => by
      obtain ⟨-, rfl⟩ : _ ∧ _ = _ := by simpa using k
      rfl) h

theorem parReadCycles_part (hv : cfg.variant ≠ .i2cMux4) {rs : Bool} {s t : State} {v : Byte} (hc : s.cfg = cfg)
    (h : parReadCycles rs s = .ok v t) : Part s t ∧ t.lvl.e = .driven false := by
  rw [parReadCycles, bind_getCfg] at h
  obtain ⟨p, u, h1, h2⟩ := bind_eq_ok.mp h
  have ⟨p1, e1⟩ := parReadCycle_part hv hc h1
  split at h2
  · obtain ⟨-, rfl⟩ : _ ∧ u = t := by simpa using h2
    exact ⟨p1, e1⟩
  · obtain ⟨q, w, h3, h4⟩ := bind_eq_ok.mp h2
    have ⟨p2, e2⟩ := parReadCycle_part hv (p1.cfg.trans hc) h3
    obtain ⟨-, rfl⟩ : _ ∧ w = t := by simpa using h4
    exact ⟨p1.trans p2, e2⟩

/-- The listed lines have the new entry, and every other line its own. -/
theorem setLines_get {α : Type} (d : α) (ls : List (Fin 8)) (v : Vector α 8) (i : Fin 8) :
    (setLines d ls v)[i] = if i ∈ ls then d else v[i] := by
  induction ls generalizing v with
  | nil => simp [setLines]
  | cons j js ih =>
    simp only [setLines, ih, List.mem_cons]
    by_cases hij : i = j
    · subst hij
      simp
    · have : (v.set j d)[i] = v[i] := by
        simp only [Fin.getElem_fin]
        exact Vector.getElem_set_ne _ _ fun h => hij (Fin.ext h.symm)
      simp [hij, this]

theorem parReadBody_done (hv : cfg.variant ≠ .i2cMux4) (rs : Bool) : DoneOp cfg (parReadBody rs) := by
  intro s a t hc h
  have hb := (parReadBody_busOp (cfg := cfg) rs).ok_frame hc h
  rw [parReadBody, bind_getCfg] at h
  obtain ⟨_, u, h1, h2⟩ := bind_eq_ok.mp h
  obtain ⟨fs, -, rfl⟩ := setDir_ok h1
  obtain ⟨v, w, h3, h4⟩ := bind_eq_ok.mp h2
  have ⟨p, e⟩ := parReadCycles_part hv (s := _) (by exact hc) h3
  obtain ⟨_, x, h5, h6⟩ := bind_eq_ok.mp h4
  obtain ⟨gs, -, rfl⟩ := setDir_ok h5
  obtain ⟨-, rfl⟩ : _ ∧ _ = t := by simpa using h6
  exact
    { toOnlyBus := hb
      acSpace := p.acSpace
      blLine := p.blLine
      eLow := .inr e
      dir := fun i => by
        show (setLines _ _ w.dir)[i] = _ ∨ _
        rw [setLines_get, p.dir]
        show (if _ then _ else (setLines _ _ s.dir)[i]) = _ ∨ _
        rw [setLines_get]
        split <;> simp
      noByte := fun h => p.noByte h
      noLine := fun h => absurd (hc ▸ h) hv }

theorem writeBody_done (w : Cmd) : DoneOp cfg (writeBody cfg.variant w) := by
  cases hv : cfg.variant with
  | parallel8 => exact parWriteCycle_done (by simp [hv]) _ _
  | parallel4 =>
    exact DoneOp.bind (parWriteCycle_done (by simp [hv]) _ _) fun _ => parWriteCycle_done (by simp [hv]) _ _
  | i2cMux4 => exact DoneOp.bind (i2cWriteCycle_done hv _ _) fun _ => i2cWriteCycle_done hv _ _

theorem readBody_done (rs : Bool) : DoneOp cfg (readBody cfg.variant rs) := by
  cases hv : cfg.variant with
  | parallel8 => exact parReadBody_done (by simp [hv]) rs
  | parallel4 => exact parReadBody_done (by simp [hv]) rs
  | i2cMux4 => exact i2cReadBody_done hv rs

theorem busWrite_done {c : Cmd} (h : c.rw = false) : DoneOp cfg (busWrite c.toNat) := by
  intro s a t hc k
  rw [busWrite_eq h, hc] at k
  exact writeBody_done c s a t hc k

theorem busRead_done {c : Nat} (hc : c < 1024) (hr : c.testBit 8 = true) (h : cfg.canRead = true) :
    DoneOp cfg (busRead c) := by
  intro s a t hs k
  rw [busRead_eq hc hr (by rw [hs]; exact h), hs] at k
  exact readBody_done _ s a t hs k

/-! ### The exact events of the write functions -/

/-- `t` is `s` after the events `evs` with the levels changed by `f`; only draws of failures were taken beside that. -/
def Emits (evs : List Event) (f : Levels → Levels) (s t : State) : Prop :=
  ∃ fs, fs <:+ s.env.faults ∧ t = { s with
    lvl := f s.lvl, log := evs.reverse ++ s.log, env := { s.env with faults := fs } }

/-- With the address `a` and the backlight flag `bl`, a completed run of `m` emits exactly `evs`. -/
def WriteOp (cfg : Config) (a : Option Addr7) (bl : Bool) (evs : List Event) (f : Levels → Levels) (m : Drv Unit) :
    Prop :=
  ∀ s u t, s.cfg = cfg → s.i2cAddr = a → s.bl = bl → m s = .ok u t → Emits evs f s t

variable {ad : Option Addr7} {bl : Bool}

theorem Emits.trace {evs : List Event} {f : Levels → Levels} {s t : State} (h : Emits evs f s t) :
    t.trace = s.trace ++ evs := by
  obtain ⟨fs, -, rfl⟩ := h
  exact trace_append rfl

theorem WriteOp.pure : WriteOp cfg ad bl [] id (pure () : Drv Unit) := by
  rintro s u t - - - h
  obtain rfl : s = t := by simpa using h
  exact ⟨s.env.faults, List.suffix_refl _, rfl⟩

theorem WriteOp.bind {e1 e2 : List Event} {f g : Levels → Levels} {m n : Drv Unit} (hm : WriteOp cfg ad bl e1 f m)
    (hn : WriteOp cfg ad bl e2 g n) : WriteOp cfg ad bl (e1 ++ e2) (fun v => g (f v)) (m >>= fun _ => n) := by
  intro s u w hc ha hb h
  obtain ⟨_, t, h1, h2⟩ := bind_eq_ok.mp h
  obtain ⟨fs, hfs, rfl⟩ := hm s _ t hc ha hb h1
  obtain ⟨gs, hgs, rfl⟩ := hn _ _ w (by exact hc) (by exact ha) (by exact hb) h2
  exact ⟨gs, hgs.trans hfs, by simp [List.append_assoc]⟩

theorem WriteOp.bindCfg {evs : List Event} {f : Levels → Levels} {m : Config → Drv Unit}
    (h : WriteOp cfg ad bl evs f (m cfg)) : WriteOp cfg ad bl evs f (getCfg >>= m) := by
  intro s u t hc ha hb k
  exact h s u t hc ha hb (by rwa [bind_getCfg, hc] at k)

theorem WriteOp.bindBl {evs : List Event} {f : Levels → Levels} {m : Bool → Drv Unit}
    (h : WriteOp cfg ad bl evs f (m bl)) : WriteOp cfg ad bl evs f (getBl >>= m) := by
  intro s u t hc ha hb k
  have e : (getBl >>= m) s = m s.bl s := rfl
  exact h s u t hc ha hb (by rwa [e, hb] at k)

theorem drive_writeOp (l : Line) (b : Bool) : WriteOp cfg ad bl [.drive l b] (Levels.drive l b) (drive l b) := by
  intro s u t _ _ _ h
  obtain ⟨fs, hfs, rfl⟩ := drive_ok h
  exact ⟨fs, hfs, rfl⟩

theorem sleepUs_writeOp (n : Nat) : WriteOp cfg ad bl [.sleepUs n] id (sleepUs n) := by
  intro s u t _ _ _ h
  obtain rfl : _ = t := by simpa using h
  exact ⟨s.env.faults, List.suffix_refl _, rfl⟩

theorem sleepMs_writeOp (n : Nat) : WriteOp cfg ad bl [.sleepMs n] id (sleepMs n) := by
  intro s u t _ _ _ h
  obtain rfl : _ = t := by simpa using h
  exact ⟨s.env.faults, List.suffix_refl _, rfl⟩

theorem i2cWrite_writeOp (a : Addr7) (b : Byte) :
    WriteOp cfg (some a) bl [.i2cWrite a b] (fun v => { v with i2c := .driven b }) (i2cWrite b) := by
  intro s u t _ ha _ h
  obtain ⟨a', fs, ha', hfs, rfl⟩ := i2cWrite_ok h
  obtain rfl : a' = a := by simpa [ha'] using ha
  exact ⟨fs, hfs, rfl⟩

theorem onlyIf_writeOp (c : Bool) {evs : List Event} {f : Levels → Levels} {m : Drv Unit}
    (h : WriteOp cfg ad bl evs f m) :
    WriteOp cfg ad bl (if c then evs else []) (if c then f else id) (onlyIf c m) := by
  cases c with
  | true => simpa using h
  | false => simpa using WriteOp.pure

/-- The levels after the data lines are driven. -/
def dataLevels (val : Byte) (low : Nat) : List (Fin 8) → Levels → Levels
  | [], v => v
  | i :: is, v => dataLevels val low is (v.drive (.data i) (val.getLsbD (i.val - low)))

theorem driveData_writeOp (val : Byte) (low : Nat) (ls : List (Fin 8)) :
    WriteOp cfg ad bl (ls.map fun i => .drive (.data i) (val.getLsbD (i.val - low))) (dataLevels val low ls)
      (driveData val low ls) := by
  induction ls with
  | nil => exact WriteOp.pure
  | cons i is ih => exact (drive_writeOp _ _).bind ih

theorem pulse_writeOp :
    WriteOp cfg ad bl (pulseEvents cfg) (fun v => (v.drive .e true).drive .e false) pulse :=
  WriteOp.bindCfg <| (drive_writeOp _ _).bind <| (sleepUs_writeOp _).bind <| (drive_writeOp _ _).bind <|
    sleepUs_writeOp _

/-- The levels after a parallel write cycle. -/
def parCycleLevels (cfg : Config) (rs : Bool) (val : Byte) (v : Levels) : Levels :=
  ((dataLevels val (8 - cfg.width) cfg.dataLines
    ((if cfg.rwWired then Levels.drive .rw false else id) (v.drive .rs rs))).drive .e true).drive .e false

theorem parWriteCycle_writeOp (rs : Bool) (val : Byte) :
    WriteOp cfg ad bl (parCycleEvents cfg rs val) (parCycleLevels cfg rs val) (parWriteCycle rs val) := by
  have h : WriteOp cfg ad bl _ _ (parWriteCycle rs val) := WriteOp.bindCfg <| (drive_writeOp .rs rs).bind <|
    (onlyIf_writeOp cfg.rwWired (drive_writeOp .rw false)).bind <|
    (driveData_writeOp val (8 - cfg.width) cfg.dataLines).bind <| (sleepUs_writeOp cfg.tAsUs).bind pulse_writeOp
  have e : parCycleEvents cfg rs val = [.drive .rs rs] ++ ((if cfg.rwWired then [.drive .rw false] else []) ++
      ((cfg.dataLines.map fun i => .drive (.data i) (val.getLsbD (i.val - (8 - cfg.width)))) ++
      ([.sleepUs cfg.tAsUs] ++ pulseEvents cfg))) := by
    simp [parCycleEvents]
  rw [e]
  exact h

theorem i2cPut_writeOp (a : Addr7) (b : Byte) (n : Nat) :
    WriteOp cfg (some a) bl [.i2cWrite a b, .sleepUs n] (fun v => { v with i2c := .driven b }) (i2cPut b n) :=
  (i2cWrite_writeOp a b).bind (sleepUs_writeOp n)

theorem i2cWriteCycle_writeOp (a : Addr7) (rs : Bool) (nib : Nibble) :
    WriteOp cfg (some a) bl (i2cCycleEvents cfg a bl rs nib)
      (fun v => { v with i2c := .driven (expByte cfg.i2cMap rs false false bl nib) }) (i2cWriteCycle rs nib) :=
  WriteOp.bindCfg <| WriteOp.bindBl <| (i2cPut_writeOp a _ _).bind <| (i2cPut_writeOp a _ _).bind <|
    i2cPut_writeOp a _ _

/-- Without an address no I2C write cycle completes. -/
theorem i2cWriteCycle_noAddr {rs : Bool} {nib : Nibble} {s t : State} {u : Unit} (ha : s.i2cAddr = none) :
    i2cWriteCycle rs nib s ≠ .ok u t := by
  intro h
  rw [i2cWriteCycle, bind_getCfg] at h
  obtain ⟨_, _, h2, h3⟩ := bind_eq_ok.mp h
  obtain ⟨-, rfl⟩ : _ ∧ s = _ := by simpa [getBl] using h2
  obtain ⟨_, _, h4, -⟩ := bind_eq_ok.mp h3
  obtain ⟨_, _, h5, -⟩ := bind_eq_ok.mp h4
  obtain ⟨a, -, h6, -⟩ := i2cWrite_ok h5
  simp [ha] at h6

/-- The levels after `bus.write(c)`. -/
def writeLevels (cfg : Config) (bl : Bool) (c : Cmd) (v : Levels) : Levels :=
  match cfg.variant with
  | .parallel8 => parCycleLevels cfg c.rs c.db v
  | .parallel4 => parCycleLevels cfg c.rs (c.lo.setWidth 8) (parCycleLevels cfg c.rs (c.hi.setWidth 8) v)
  | .i2cMux4 => { v with i2c := .driven (expByte cfg.i2cMap c.rs false false bl c.lo) }

/-- A completed transfer of a write word emits exactly the events of 41_transport.md R105, R106, R115. -/
theorem writeBody_emits {w : Cmd} {s t : State} {u : Unit} (h : writeBody s.cfg.variant w s = .ok u t) :
    Emits (writeEvents s w) (writeLevels s.cfg s.bl w) s t := by
  unfold writeEvents writeLevels
  cases hv : s.cfg.variant with
  | parallel8 =>
    rw [hv] at h
    exact parWriteCycle_writeOp (ad := s.i2cAddr) (bl := s.bl) _ _ s u t rfl rfl rfl h
  | parallel4 =>
    rw [hv] at h
    exact ((parWriteCycle_writeOp (ad := s.i2cAddr) (bl := s.bl) _ _).bind (parWriteCycle_writeOp _ _))
      s u t rfl rfl rfl h
  | i2cMux4 =>
    rw [hv] at h
    cases ha : s.i2cAddr with
    | none =>
      obtain ⟨_, _, h1, -⟩ := bind_eq_ok.mp h
      exact absurd h1 (i2cWriteCycle_noAddr ha)
    | some a =>
      exact ((i2cWriteCycle_writeOp (cfg := s.cfg) (bl := s.bl) a w.rs w.hi).bind
        (i2cWriteCycle_writeOp a w.rs w.lo)) s u t rfl ha rfl h

end Sys2Proof.Machine
end

