-- ==== Sys2Proof/Laws/CharMap.lean ====
section
/-! SUPPORT. The laws of the character map: reading after writing, and that every operation keeps the canonical form. -/

namespace Sys2Proof

/-- Every key of a canonical tail is above the head's. -/
theorem CharMap.wf_cons {a : Host.Cell} {rest : CharMap} :
    CharMap.wf (a :: rest) = true ↔ (∀ b ∈ rest, a.1 < b.1) ∧ CharMap.wf rest = true := by
  induction rest generalizing a with
  | nil => simp [CharMap.wf]
  | cons b rest ih =>
    simp only [CharMap.wf, Bool.and_eq_true, decide_eq_true_eq, List.mem_cons, forall_eq_or_imp]
    constructor
    · rintro ⟨hab, h⟩
      exact ⟨⟨hab, fun c hc => hab.trans ((ih.mp h).1 c hc)⟩, h⟩
    · rintro ⟨⟨hab, -⟩, h⟩
      exact ⟨hab, h⟩

theorem CharMap.mem_put {m : CharMap} {ch : Nat} {code : Byte} {b : Host.Cell} (h : b ∈ m.put ch code) :
    b = (ch, code) ∨ b ∈ m := by
  induction m with
  | nil => simpa [CharMap.put] using h
  | cons a rest ih =>
    simp only [CharMap.put] at h
    split at h
    · simpa using h
    · split at h
      · rcases List.mem_cons.mp h with h | h
        · exact .inl h
        · exact .inr (List.mem_cons_of_mem _ h)
      · rcases List.mem_cons.mp h with h | h
        · exact .inr (h ▸ List.mem_cons_self)
        · exact (ih h).imp id (List.mem_cons_of_mem _)

theorem CharMap.mem_del {m : CharMap} {ch : Nat} {b : Host.Cell} (h : b ∈ m.del ch) : b ∈ m := by
  induction m with
  | nil => simp [CharMap.del] at h
  | cons a rest ih =>
    simp only [CharMap.del] at h
    split at h
    · exact List.mem_cons_of_mem _ h
    · rcases List.mem_cons.mp h with h | h
      · exact h ▸ List.mem_cons_self
      · exact List.mem_cons_of_mem _ (ih h)

/-- `MapPut` keeps the canonical form. -/
theorem CharMap.wf_put {m : CharMap} (h : m.wf = true) (ch : Nat) (code : Byte) : (m.put ch code).wf = true := by
  induction m with
  | nil => rfl
  | cons a rest ih =>
    have ⟨hlt, hr⟩ := CharMap.wf_cons.mp h
    simp only [CharMap.put]
    split
    · next hk =>
      refine CharMap.wf_cons.mpr ⟨fun b hb => ?_, h⟩
      rcases List.mem_cons.mp hb with hb | hb
      · exact hb ▸ hk
      · exact hk.trans (hlt b hb)
    · split
      · next hk =>
        subst hk
        exact CharMap.wf_cons.mpr ⟨hlt, hr⟩
      · refine CharMap.wf_cons.mpr ⟨fun b hb => ?_, ih hr⟩
        rcases CharMap.mem_put hb with hb | hb
        · subst hb
          show a.1 < ch
          omega
        · exact hlt b hb

/-- `MapDel` keeps the canonical form. -/
theorem CharMap.wf_del {m : CharMap} (h : m.wf = true) (ch : Nat) : (m.del ch).wf = true := by
  induction m with
  | nil => rfl
  | cons a rest ih =>
    have ⟨hlt, hr⟩ := CharMap.wf_cons.mp h
    simp only [CharMap.del]
    split
    · exact hr
    · exact CharMap.wf_cons.mpr ⟨fun b hb => hlt b (CharMap.mem_del hb), ih hr⟩

/-- The code just put is the one read back. -/
@[simp] theorem CharMap.get_put_self (m : CharMap) (ch : Nat) (code : Byte) : (m.put ch code).get ch = some code := by
  induction m with
  | nil => simp [CharMap.put, CharMap.get]
  | cons a rest ih =>
    simp only [CharMap.put]
    split
    · simp [CharMap.get]
    · split
      · simp [CharMap.get]
      · next h => simp [CharMap.get, ih, Ne.symm h]

/-- `MapPut` leaves every other key alone. -/
theorem CharMap.get_put_other (m : CharMap) {ch k : Nat} (code : Byte) (h : k ≠ ch) :
    (m.put ch code).get k = m.get k := by
  induction m with
  | nil => simp [CharMap.put, CharMap.get, Ne.symm h]
  | cons a rest ih =>
    simp only [CharMap.put]
    split
    · simp [CharMap.get, Ne.symm h]
    · split
      · next hk => simp [CharMap.get, ← hk, Ne.symm h]
      · simp [CharMap.get, ih]

/-- A key below every listed one is absent. -/
theorem CharMap.get_none_of_lt {m : CharMap} {ch : Nat} (h : ∀ b ∈ m, ch < b.1) : m.get ch = none := by
  induction m with
  | nil => rfl
  | cons a rest ih =>
    have ha := h a List.mem_cons_self
    simp only [CharMap.get]
    rw [if_neg (by omega)]
    exact ih fun b hb => h b (List.mem_cons_of_mem _ hb)

/-- After `MapDel` the key is absent. -/
theorem CharMap.get_del_self {m : CharMap} (h : m.wf = true) (ch : Nat) : (m.del ch).get ch = none := by
  induction m with
  | nil => rfl
  | cons a rest ih =>
    have ⟨hlt, hr⟩ := CharMap.wf_cons.mp h
    simp only [CharMap.del]
    split
    · next hk => exact CharMap.get_none_of_lt fun b hb => hk ▸ hlt b hb
    · next hk => simp [CharMap.get, hk, ih hr]

/-- `MapDel` leaves every other key alone. -/
theorem CharMap.get_del_other (m : CharMap) {ch k : Nat} (h : k ≠ ch) : (m.del ch).get k = m.get k := by
  induction m with
  | nil => rfl
  | cons a rest ih =>
    simp only [CharMap.del]
    split
    · next hk => simp [CharMap.get, hk, Ne.symm h]
    · simp [CharMap.get, ih]

end Sys2Proof
end

