-- ==== Sys2Proof/Laws/Encoding.lean ====
section
/-! SUPPORT. The words the driver builds: each is a write word, and what it does to `ac_space`. -/

namespace Sys2Proof

/-! ### Words with operands -/

theorem setddWord_facts {col line : Nat} (hc : col < colCount) (hl : line < lineCount) :
    (setddWord col line).rw = false ∧ decodeCmd (setddWord col line) = .setdd (BitVec.ofNat 7 (ddramAddr col line)) := by
  have h : ∀ l < lineCount, ∀ c < colCount, (setddWord c l).rw = false ∧
      decodeCmd (setddWord c l) = .setdd (BitVec.ofNat 7 (ddramAddr c l)) := by decide +kernel
  exact h line hl col hc

theorem setcgWord_facts {code : Nat} (h : code < cgSlots) :
    (setcgWord code).rw = false ∧ decodeCmd (setcgWord code) = .setcg (BitVec.ofNat 6 (code <<< 3)) := by
  have h' : ∀ c < cgSlots, (setcgWord c).rw = false ∧ decodeCmd (setcgWord c) = .setcg (BitVec.ofNat 6 (c <<< 3)) := by
    decide +kernel
  exact h' code h

theorem wrdataWord_facts {v : Nat} (h : v < 256) :
    (wrdataWord v).rw = false ∧ decodeCmd (wrdataWord v) = .wrdata (BitVec.ofNat 8 v) := by
  have h' : ∀ v < 256, (wrdataWord v).rw = false ∧ decodeCmd (wrdataWord v) = .wrdata (BitVec.ofNat 8 v) := by
    decide +kernel
  exact h' v h

theorem shiftWord_facts (sc rl : Bool) :
    (shiftWord sc rl).rw = false ∧ decodeCmd (shiftWord sc rl) = .shift sc rl 0 := by
  revert sc rl
  decide +kernel

/-! ### Flag words -/

/-- The legal words of EM: base 0x004, and only the bits I/D and S free (10_state.md R12). -/
theorem em_facts {w : Cmd} (h : w &&& 0x3FC = 0x004) :
    w.rw = false ∧ decodeCmd w = .entry (w.getLsbD 1) (w.getLsbD 0) := by
  revert w
  decide +kernel

/-- The legal words of DC: base 0x008, and only the bits D, C and B free (10_state.md R13). -/
theorem dc_facts {w : Cmd} (h : w &&& 0x3F8 = 0x008) :
    w.rw = false ∧ decodeCmd w = .dispctl (w.getLsbD 2) (w.getLsbD 1) (w.getLsbD 0) := by
  revert w
  decide +kernel

theorem fsDefault_facts (cfg : Config) :
    (fsDefault cfg).rw = false ∧ decodeCmd (fsDefault cfg) = .funcset (cfg.width == 8) true cfg.fontF 0 := by
  unfold fsDefault
  generalize (cfg.width == 8) = a
  generalize cfg.fontF = b
  revert a b
  decide +kernel

/-- The mutators of EM keep its legal form. -/
theorem em_mutators {w : Cmd} (h : w &&& 0x3FC = 0x004) :
    flagAutoscrollOn w &&& 0x3FC = 0x004 ∧ flagAutoscrollOff w &&& 0x3FC = 0x004 ∧
      flagLeftToRight w &&& 0x3FC = 0x004 ∧ flagRightToLeft w &&& 0x3FC = 0x004 := by
  revert w
  decide +kernel

/-- The mutators of DC keep its legal form. -/
theorem dc_mutators {w : Cmd} (h : w &&& 0x3F8 = 0x008) :
    flagDisplayOn w &&& 0x3F8 = 0x008 ∧ flagDisplayOff w &&& 0x3F8 = 0x008 := by
  revert w
  decide +kernel

theorem dc_cursorType {w : Cmd} (t : CursorType) (h : w &&& 0x3F8 = 0x008) : flagCursorType t w &&& 0x3F8 = 0x008 := by
  revert w
  cases t <;> decide +kernel

/-! ### Characters and glyphs -/

/-- A resolved code fits a data word (44_text.md R153). -/
theorem resolve_lt (m : CharMap) (ch : Nat) : resolve m ch < 256 := by
  unfold resolve
  dsimp only
  split <;> split <;> omega

theorem codeInRange_toNat {k : Int} (h : codeInRange k = true) : k.toNat < 256 := by
  simp [codeInRange] at h
  omega

theorem firstBadCode_none {ks : List Int} (h : firstBadCode ks = none) : ∀ k ∈ ks, codeInRange k = true := by
  induction ks with
  | nil => simp
  | cons k ks ih =>
    simp only [firstBadCode] at h
    split at h
    · simpa using ⟨‹_›, ih h⟩
    · simp at h

theorem firstBadRow_none {vs : List Nat} {i : Nat} (h : firstBadRow i vs = none) : ∀ v ∈ vs, v ≤ 31 := by
  induction vs generalizing i with
  | nil => simp
  | cons v vs ih =>
    simp only [firstBadRow] at h
    split at h
    · simp at h
    · simpa using ⟨by omega, ih h⟩

end Sys2Proof
end

