-- ==== Sys2Proof/Laws/Execute.lean ====
section
/-! SUPPORT. The laws of the internal `exec`: its frame and stops, what a completed word or sequence of words leaves alone,
the exact trace on a write-only bus, and that the busy poll's fuel is always enough. -/

namespace Sys2Proof.Machine

open Sys2Proof

variable {α β : Type} {cfg : Config}

/-! ### The busy poll -/

/-- The word 0x100 is a read of the busy flag (30_encoding.md R65). -/
theorem pollWord : (0x100 : Nat) < 1024 ∧ (0x100 : Nat).testBit 8 = true := by decide

theorem pollRead_busOp (h : cfg.canRead = true) : BusOp cfg (busRead 0x100) := busRead_busOp pollWord.1 pollWord.2 h

theorem pollRead_done (h : cfg.canRead = true) : DoneOp cfg (busRead 0x100) := busRead_done pollWord.1 pollWord.2 h

theorem ticks_done : DoneOp cfg ticks := by
  rintro s a t hc h
  have hb := (ticks_busOp (cfg := cfg)).ok_frame hc h
  obtain ⟨env, k, -⟩ := ticks_cases s
  obtain ⟨-, rfl⟩ : _ ∧ _ = t := by simpa [k] using h
  exact { BusDone.refl s with toOnlyBus := hb }

theorem emit_done (e : Event) : DoneOp cfg (emit e) := by
  rintro s u t - h
  obtain rfl : _ = t := by simpa [emit] using h
  exact { BusDone.refl s with toOnlyBus := { OnlyBus.refl s with log := List.suffix_cons _ _ } }

theorem pollLoop_busOp (h : cfg.canRead = true) (c : Cmd) (limit start fuel : Nat) :
    BusOp cfg (pollLoop c limit start fuel) := by
  induction fuel with
  | zero => exact BusOp.pure ()
  | succ n ih =>
    exact (pollRead_busOp h).bind fun v => by
      split
      · exact BusOp.pure ()
      · exact ticks_busOp.bind fun now => by
          split
          · exact BusOp.emit _
          · exact ih

theorem pollLoop_done (h : cfg.canRead = true) (c : Cmd) (limit start fuel : Nat) :
    DoneOp cfg (pollLoop c limit start fuel) := by
  induction fuel with
  | zero => exact DoneOp.pure ()
  | succ n ih =>
    exact (pollRead_done h).bind fun v => by
      split
      · exact DoneOp.pure ()
      · exact ticks_done.bind fun now => by
          split
          · exact emit_done _
          · exact ih

/-- While the poll has not timed out, what is left of the supplied increments and of the limit bounds the iterations:
more fuel changes nothing. -/
theorem pollLoop_succ_of_enough {c : Cmd} {limit start fuel : Nat} {s : State} (h : s.cfg.canRead = true)
    (hs : start ≤ s.env.now) (hl : s.env.now - start ≤ limit / 1000)
    (hf : s.env.ticks.length + (limit / 1000 + 1 - (s.env.now - start)) ≤ fuel) :
    pollLoop c limit start (fuel + 1) s = pollLoop c limit start fuel s := by
  induction fuel generalizing s with
  | zero => omega
  | succ n ih =>
    rw [pollLoop, pollLoop, bind_run, bind_run]
    cases hr : busRead 0x100 s with
    | error e t => rfl
    | ok v t =>
      have f1 := (pollRead_busOp h).ok_frame rfl hr
      dsimp only
      split
      · rfl
      · obtain ⟨env, k, hn, -, -, -, -, -, ht⟩ := ticks_cases t
        rw [bind_ok k, bind_ok k]
        have hle : t.env.ticks.length ≤ s.env.ticks.length := f1.ticks.length_le
        have hnow := f1.now
        split
        · rfl
        · next hlim =>
          refine ih (by show t.cfg.canRead = true; rw [f1.cfg]; exact h) (by show start ≤ env.now; omega)
            (by show env.now - start ≤ _; omega) ?_
          show env.ticks.length + (limit / 1000 + 1 - (env.now - start)) ≤ n
          rcases ht with ⟨d, hd, -⟩ | ⟨he, he', hlt⟩
          · have : t.env.ticks.length = env.ticks.length + 1 := by rw [hd]; rfl
            omega
          · have : env.ticks.length = 0 := by rw [he']; rfl
            omega

/-- Any fuel from `pollFuel` on gives the same poll. -/
theorem pollLoop_fuel {c : Cmd} {limit fuel : Nat} {s : State} (h : s.cfg.canRead = true)
    (hf : pollFuel limit s ≤ fuel) :
    pollLoop c limit s.env.now fuel s = pollLoop c limit s.env.now (pollFuel limit s) s := by
  induction fuel, hf using Nat.le_induction with
  | base => rfl
  | succ n hn ih =>
    rw [pollLoop_succ_of_enough h (Nat.le_refl _) (by simp) (by simp [pollFuel] at hn ⊢; omega), ih]

theorem busyPoll_busOp (h : cfg.canRead = true) (c : Cmd) (limit : Nat) : BusOp cfg (busyPoll c limit) :=
  ticks_busOp.bind fun _ => BusOp.bindGet fun _ => pollLoop_busOp h _ _ _ _

theorem DoneOp.bindGet {f : State → Drv β} (hf : ∀ a, DoneOp cfg (f a)) : DoneOp cfg (get >>= f) :=
  fun s a t hc h => hf s s a t hc h

theorem busyPoll_done (h : cfg.canRead = true) (c : Cmd) (limit : Nat) : DoneOp cfg (busyPoll c limit) :=
  ticks_done.bind fun _ => DoneOp.bindGet fun _ => pollLoop_done h _ _ _ _

/-! ### complete -/

theorem complete_busOp (c : Cmd) : BusOp cfg (complete c) :=
  BusOp.bindCfg <| by
    split
    · exact busyPoll_busOp ‹_› _ _
    · exact sleepUs_busOp _

theorem complete_done (c : Cmd) : DoneOp cfg (complete c) :=
  DoneOp.bindCfg <| by
    split
    · exact busyPoll_done ‹_› _ _
    · exact emit_done _

/-- On a write-only bus completion is one delay (42_execute.md R134). -/
theorem complete_writeOnly {s : State} (h : s.cfg.canRead = false) (c : Cmd) :
    complete c s = .ok () { s with log := .sleepUs (limitUs s.cfg c) :: s.log } := by
  simp [complete, h]

/-! ### transfer and exec -/

theorem updateAcSpace_busOp (c : Cmd) : BusOp cfg (updateAcSpace c) := BusOp.update fun s => OnlyBus.lines s _ _ _

theorem transfer_busOp {c : Cmd} (h : c.rw = false ∨ cfg.canRead = true) : BusOp cfg (transfer c) := by
  unfold transfer
  split
  · next hr =>
    have hc : cfg.canRead = true := h.resolve_left (by simp [hr])
    exact (busRead_busOp c.isLt (by simpa using hr) hc).bind fun _ => BusOp.pure _
  · next hr => exact (busWrite_busOp (by simpa using hr)).bind fun _ => BusOp.pure _

/-- A completed transfer returned 8 bits exactly when the word is a read. -/
theorem transfer_done {c : Cmd} {s t : State} {v : Option Byte} (h : c.rw = false ∨ s.cfg.canRead = true)
    (k : transfer c s = .ok v t) : BusDone s t ∧ v.isSome = c.rw := by
  unfold transfer at k
  split at k
  · next hr =>
    have hc : s.cfg.canRead = true := h.resolve_left (by simp [hr])
    obtain ⟨b, u, h1, h2⟩ := bind_eq_ok.mp k
    obtain ⟨rfl, rfl⟩ : some b = v ∧ u = t := by simpa using h2
    exact ⟨busRead_done c.isLt (by simpa using hr) hc s b u rfl h1, by simp [hr]⟩
  · next hr =>
    obtain ⟨b, u, h1, h2⟩ := bind_eq_ok.mp k
    obtain ⟨rfl, rfl⟩ : none = v ∧ u = t := by simpa using h2
    exact ⟨busWrite_done (by simpa using hr) s b u rfl h1, by simpa using hr⟩

/-- The frame of a transfer does not look at `ac_space`. -/
theorem BusDone.setAcSpace {s t : State} (a : AcSpace) (h : BusDone s t) :
    BusDone { s with acSpace := a } { t with acSpace := a } :=
  { h with
    cfg := h.cfg, phase := h.phase, em := h.em, dc := h.dc, fs := h.fs, cmap := h.cmap, bl := h.bl,
    i2cAddr := h.i2cAddr, reply := h.reply, calls := h.calls, acSpace := rfl }

theorem execCmd_busOp {c : Cmd} (h : c.rw = false ∨ cfg.canRead = true) : BusOp cfg (execCmd c) :=
  (transfer_busOp h).bind fun _ => (updateAcSpace_busOp c).bind fun _ => (complete_busOp c).bind fun _ => BusOp.pure _

/-- What a completed `exec` leaves alone, and what it does to `ac_space` (42_execute.md R132, R133). -/
theorem execCmd_done {c : Cmd} {s t : State} {v : Option Byte} (h : c.rw = false ∨ s.cfg.canRead = true)
    (k : execCmd c s = .ok v t) :
    BusDone { s with acSpace := acSpaceAfter c s.acSpace } t ∧ v.isSome = c.rw := by
  obtain ⟨w, u, h1, h2⟩ := bind_eq_ok.mp k
  have ⟨d1, hv⟩ := transfer_done h h1
  rw [updateAcSpace, bind_update] at h2
  obtain ⟨_, x, h3, h4⟩ := bind_eq_ok.mp h2
  obtain ⟨rfl, rfl⟩ : w = v ∧ x = t := by simpa using h4
  have d2 := complete_done (cfg := s.cfg) c _ _ _ (by exact d1.cfg) h3
  rw [d1.acSpace] at d2
  exact ⟨(d1.setAcSpace _).trans d2, hv⟩

/-- A read word on a write-only bus stops before any event (41_transport.md R111). -/
theorem execCmd_unsupported {c : Cmd} {s : State} (hr : c.rw = true) (h : s.cfg.canRead = false) :
    execCmd c s = .error (.error (.e2 .readUnsupported)) s := by
  refine bind_error ?_
  unfold transfer
  rw [if_pos hr]
  exact bind_error (busRead_unsupported c.isLt (by simpa using hr) h)

/-- Where the environment lets it, `exec` completes. -/
theorem execCmd_completes {c : Cmd} {s : State} (h : c.rw = false ∨ s.cfg.canRead = true) (hb : s.busOk = true) :
    ∃ v t, execCmd c s = .ok v t ∧ v.isSome = c.rw ∧ BusDone { s with acSpace := acSpaceAfter c s.acSpace } t := by
  obtain ⟨v, t, k, -⟩ := (execCmd_busOp h).completes rfl hb
  exact ⟨v, t, k, (execCmd_done h k).2, (execCmd_done h k).1⟩

/-! ### Sequences of words -/

/-- A write word. -/
abbrev AllWrites (ws : List Cmd) : Prop := ∀ c ∈ ws, c.rw = false

theorem issue_busOp {c : Cmd} (h : c.rw = false ∨ cfg.canRead = true) : BusOp cfg (issue c) :=
  (execCmd_busOp h).bind fun _ => BusOp.pure ()

theorem issue_ok {c : Cmd} {s t : State} {u : Unit} : issue c s = .ok u t ↔ ∃ v, execCmd c s = .ok v t := by
  rw [issue, bind_eq_ok]
  simp

theorem issueAll_busOp {ws : List Cmd} (h : AllWrites ws) : BusOp cfg (issueAll ws) := by
  induction ws with
  | nil => exact BusOp.pure ()
  | cons c cs ih =>
    exact (issue_busOp (.inl (h c List.mem_cons_self))).bind fun _ => ih fun d hd => h d (List.mem_cons_of_mem _ hd)

/-- A completed sequence of write words. -/
theorem issueAll_done {ws : List Cmd} {s t : State} {u : Unit} (h : AllWrites ws) (k : issueAll ws s = .ok u t) :
    BusDone { s with acSpace := acSpaceAfterAll ws s.acSpace } t := by
  induction ws generalizing s with
  | nil =>
    obtain rfl : s = t := by simpa [issueAll] using k
    exact BusDone.refl s
  | cons c cs ih =>
    obtain ⟨_, x, h1, h2⟩ := bind_eq_ok.mp k
    obtain ⟨v, h1⟩ := issue_ok.mp h1
    have d1 := (execCmd_done (.inl (h c List.mem_cons_self)) h1).1
    have d2 := ih (fun d hd => h d (List.mem_cons_of_mem _ hd)) h2
    rw [d1.acSpace] at d2
    exact (d1.setAcSpace _).trans d2

/-- The model's `ac_space` bookkeeping is that of the words' names. -/
theorem acSpaceAfter_decodeCmd (c : Cmd) (a : AcSpace) : acSpaceAfter c a = spaceAfter (decodeCmd c) a := by
  unfold acSpaceAfter
  cases decodeCmd c <;> rfl

/-- A completed `exec` is its transfer and, from the state with `ac_space` updated, its completion. -/
theorem execCmd_parts {c : Cmd} {s t : State} {v : Option Byte} (k : execCmd c s = .ok v t) :
    ∃ m, transfer c s = .ok v m ∧ complete c { m with acSpace := spaceAfter (decodeCmd c) m.acSpace } = .ok () t := by
  obtain ⟨w, m, h1, h2⟩ := bind_eq_ok.mp k
  rw [updateAcSpace, bind_update] at h2
  obtain ⟨_, x, h3, h4⟩ := bind_eq_ok.mp h2
  obtain ⟨rfl, rfl⟩ : w = v ∧ x = t := by simpa using h4
  exact ⟨m, h1, by rw [← acSpaceAfter_decodeCmd]; exact h3⟩

/-- A completed write word ran as its transfer and its completion. -/
theorem execCmd_wordRun_write {c : Cmd} {s t : State} {v : Option Byte} (hr : c.rw = false)
    (k : execCmd c s = .ok v t) : WordRun c s t := by
  obtain ⟨m, h, hc⟩ := execCmd_parts k
  have d := (transfer_done (.inl hr) h).1
  rw [transfer, if_neg (ne_true_of_eq_false hr)] at h
  obtain ⟨_, x, h1, h2⟩ := bind_eq_ok.mp h
  obtain ⟨-, rfl⟩ : _ ∧ x = m := by simpa using h2
  exact ⟨x, { write := fun _ => ⟨h1, (writeBody_emits (by rwa [busWrite_eq hr] at h1)).trace⟩
              read := fun h => absurd (hr.symm.trans h) (by simp)
              frame := d }, hc⟩

/-- A completed sequence of write words ran word by word. -/
theorem issueAll_wordsRun {ws : List Cmd} {s t : State} {u : Unit} (h : AllWrites ws) (k : issueAll ws s = .ok u t) :
    WordsRun ws s t := by
  induction ws generalizing s with
  | nil =>
    obtain rfl : s = t := by simpa [issueAll] using k
    exact .nil s
  | cons c cs ih =>
    obtain ⟨_, x, h1, h2⟩ := bind_eq_ok.mp k
    obtain ⟨v, h1⟩ := issue_ok.mp h1
    exact .cons (execCmd_wordRun_write (h c List.mem_cons_self) h1) (ih (fun d hd => h d (List.mem_cons_of_mem _ hd)) h2)

theorem issueAll_issued {ws : List Cmd} {s t : State} {u : Unit} (h : AllWrites ws) (k : issueAll ws s = .ok u t) :
    Issued ws s t := ⟨k, issueAll_wordsRun h k, issueAll_done h k⟩

/-- Where the environment lets it, a sequence of write words is issued. -/
theorem issueAll_completes {ws : List Cmd} {s : State} (h : AllWrites ws) (hb : s.busOk = true) :
    ∃ t, Issued ws s t ∧ t.busOk = true := by
  obtain ⟨_, t, k, -, hb'⟩ := (issueAll_busOp h).completes rfl hb
  exact ⟨t, issueAll_issued h k, hb'⟩

/-- One word is a sequence of one. -/
theorem issueAll_one (c : Cmd) (s : State) : issueAll [c] s = issue c s := by
  rw [issueAll, bind_run]
  cases issue c s <;> rfl

theorem issueAll_append (ws vs : List Cmd) (s : State) :
    issueAll (ws ++ vs) s = (issueAll ws >>= fun _ => issueAll vs) s := by
  induction ws generalizing s with
  | nil => rfl
  | cons c cs ih =>
    rw [List.cons_append, issueAll, issueAll, bind_run, bind_run, bind_run]
    cases issue c s with
    | ok _ t =>
      dsimp only
      rw [ih, bind_run]
    | error e t => rfl

theorem acSpaceAfterAll_append (ws vs : List Cmd) (a : AcSpace) :
    acSpaceAfterAll (ws ++ vs) a = acSpaceAfterAll vs (acSpaceAfterAll ws a) := by
  induction ws generalizing a with
  | nil => rfl
  | cons c cs ih => exact ih _

/-! ### The exact trace on a write-only bus -/

/-- A word on a write-only bus: the transfer's events, then the delay, and the levels of 41_transport.md. -/
theorem execCmd_writeOnly {c : Cmd} {s t : State} {v : Option Byte} (hr : c.rw = false) (h : s.cfg.canRead = false)
    (k : execCmd c s = .ok v t) :
    ∃ fs, fs <:+ s.env.faults ∧ t = { s with
      lvl := writeLevels s.cfg s.bl c s.lvl
      acSpace := acSpaceAfter c s.acSpace
      log := (writeEvents s c ++ [Event.sleepUs (limitUs s.cfg c)]).reverse ++ s.log
      env := { s.env with faults := fs } } := by
  obtain ⟨w, x, h1, h2⟩ := bind_eq_ok.mp k
  rw [transfer, if_neg (ne_true_of_eq_false hr)] at h1
  obtain ⟨_, y, h3, h4⟩ := bind_eq_ok.mp h1
  obtain ⟨-, rfl⟩ : _ ∧ y = x := by simpa using h4
  rw [busWrite_eq hr] at h3
  obtain ⟨fs, hfs, rfl⟩ := writeBody_emits h3
  rw [updateAcSpace, bind_update, bind_ok (complete_writeOnly (by exact h) c)] at h2
  obtain ⟨-, rfl⟩ : _ ∧ _ = t := by simpa using h2
  exact ⟨fs, hfs, by simp⟩

/-- A sequence of words on a write-only bus: the events of each, in order. -/
theorem issueAll_writeOnly_trace {ws : List Cmd} {s t : State} {u : Unit} (hw : AllWrites ws)
    (h : s.cfg.canRead = false) (k : issueAll ws s = .ok u t) :
    t.trace = s.trace ++ ws.flatMap fun c => writeEvents s c ++ [Event.sleepUs (limitUs s.cfg c)] := by
  induction ws generalizing s with
  | nil =>
    obtain rfl : s = t := by simpa [issueAll] using k
    simp
  | cons c cs ih =>
    obtain ⟨_, x, h1, h2⟩ := bind_eq_ok.mp k
    obtain ⟨v, h1⟩ := issue_ok.mp h1
    obtain ⟨fs, -, rfl⟩ := execCmd_writeOnly (hw c List.mem_cons_self) h h1
    rw [ih (fun d hd => hw d (List.mem_cons_of_mem _ hd)) (by exact h) h2, trace_append rfl, List.flatMap_cons,
      List.append_assoc]
    rfl

end Sys2Proof.Machine
end

