-- ==== Sys2Proof/Laws/Init.lean ====
section
/-! SUPPORT. The laws of the power-on sequence, of the I2C address selection, of the backlight and of `init`'s words. -/

namespace Sys2Proof.Machine

open Sys2Proof

variable {cfg : Config}

/-! ### Power-on -/

theorem initPulse_busOp (nib : Nibble) : BusOp cfg (initPulse nib) :=
  BusOp.bindCfg <| by
    cases hv : cfg.variant with
    | parallel8 => exact parWriteCycle_busOp _ _
    | parallel4 => exact parWriteCycle_busOp _ _
    | i2cMux4 => exact i2cWriteCycle_busOp hv _ _

theorem initPulse_done (nib : Nibble) : DoneOp cfg (initPulse nib) :=
  DoneOp.bindCfg <| by
    cases hv : cfg.variant with
    | parallel8 => exact parWriteCycle_done (by simp [hv]) _ _
    | parallel4 => exact parWriteCycle_done (by simp [hv]) _ _
    | i2cMux4 => exact i2cWriteCycle_done hv _ _

theorem powerOn_busOp : BusOp cfg powerOn :=
  BusOp.bindCfg <| (sleepMs_busOp _).bind fun _ => (initPulse_busOp _).bind fun _ => (sleepMs_busOp _).bind fun _ =>
    (initPulse_busOp _).bind fun _ => (sleepMs_busOp _).bind fun _ => (initPulse_busOp _).bind fun _ => sleepMs_busOp _

theorem powerOn_done : DoneOp cfg powerOn :=
  DoneOp.bindCfg <| DoneOp.bind (emit_done _) fun _ => (initPulse_done _).bind fun _ => DoneOp.bind (emit_done _) fun _ =>
    (initPulse_done _).bind fun _ => DoneOp.bind (emit_done _) fun _ => (initPulse_done _).bind fun _ => emit_done _

theorem parInit_busOp : BusOp cfg parInit :=
  powerOn_busOp.bind fun _ => BusOp.bindCfg <| BusOp.onlyIf fun _ => initPulse_busOp _

theorem parInit_done : DoneOp cfg parInit :=
  powerOn_done.bind fun _ => DoneOp.bindCfg <| DoneOp.onlyIf fun _ => initPulse_done _

/-- The part of `i2cInit` after the address is selected. -/
def i2cPowerOn : Drv Unit := do
  powerOn
  initPulse 0x2

theorem i2cPowerOn_busOp : BusOp cfg i2cPowerOn := powerOn_busOp.bind fun _ => initPulse_busOp _

theorem i2cPowerOn_done : DoneOp cfg i2cPowerOn := powerOn_done.bind fun _ => initPulse_done _

/-! ### The exact events of power-on -/

variable {ad : Option Addr7} {bl : Bool}

/-- The events of a pulse from any state with this configuration, address and backlight flag. -/
def pulseEventsOf (cfg : Config) (ad : Option Addr7) (bl : Bool) (nib : Nibble) : List Event :=
  match cfg.variant with
  | .parallel8 => parCycleEvents cfg false (nib.setWidth 8 <<< 4)
  | .parallel4 => parCycleEvents cfg false (nib.setWidth 8)
  | .i2cMux4 => match ad with
    | some a => i2cCycleEvents cfg a bl false nib
    | none => []

/-- The levels after a pulse. -/
def initPulseLevels (cfg : Config) (bl : Bool) (nib : Nibble) (v : Levels) : Levels :=
  match cfg.variant with
  | .parallel8 => parCycleLevels cfg false (nib.setWidth 8 <<< 4) v
  | .parallel4 => parCycleLevels cfg false (nib.setWidth 8) v
  | .i2cMux4 => { v with i2c := .driven (expByte cfg.i2cMap false false false bl nib) }

theorem initPulse_writeOp (nib : Nibble) :
    WriteOp cfg ad bl (pulseEventsOf cfg ad bl nib) (initPulseLevels cfg bl nib) (initPulse nib) :=
  WriteOp.bindCfg <| by
    unfold pulseEventsOf initPulseLevels
    cases cfg.variant with
    | parallel8 => exact parWriteCycle_writeOp _ _
    | parallel4 => exact parWriteCycle_writeOp _ _
    | i2cMux4 =>
      cases ad with
      | some a => exact i2cWriteCycle_writeOp a _ _
      | none =>
        intro s u t _ ha _ h
        exact absurd h (i2cWriteCycle_noAddr ha)

/-- The events of the waits and of the three pulses, as `WriteOp` composes them. -/
theorem powerOn_writeOp : ∃ f, WriteOp cfg ad bl
    ([.sleepMs cfg.tPowerMs] ++ (pulseEventsOf cfg ad bl 0x3 ++ ([.sleepMs cfg.tInit1Ms] ++ (pulseEventsOf cfg ad bl 0x3 ++
      ([.sleepMs cfg.tInit2Ms] ++ (pulseEventsOf cfg ad bl 0x3 ++ [.sleepMs cfg.tInit3Ms])))))) f powerOn :=
  ⟨_, WriteOp.bindCfg <| (sleepMs_writeOp _).bind <| (initPulse_writeOp _).bind <| (sleepMs_writeOp _).bind <|
    (initPulse_writeOp _).bind <| (sleepMs_writeOp _).bind <| (initPulse_writeOp _).bind <| sleepMs_writeOp _⟩

theorem powerOnEvents_eq (s : State) : powerOnEvents s =
    ([.sleepMs s.cfg.tPowerMs] ++ (pulseEventsOf s.cfg s.i2cAddr s.bl 0x3 ++ ([.sleepMs s.cfg.tInit1Ms] ++
      (pulseEventsOf s.cfg s.i2cAddr s.bl 0x3 ++ ([.sleepMs s.cfg.tInit2Ms] ++ (pulseEventsOf s.cfg s.i2cAddr s.bl 0x3 ++
      [.sleepMs s.cfg.tInit3Ms])))))) ++ (if s.cfg.width = 4 then pulseEventsOf s.cfg s.i2cAddr s.bl 0x2 else []) := by
  have e : ∀ nib, initPulseEvents s nib = pulseEventsOf s.cfg s.i2cAddr s.bl nib := fun nib => rfl
  simp [powerOnEvents, e]

/-- A completed `bus.init` of a parallel transport emits exactly the events of R120. -/
theorem parInit_trace {s t : State} {u : Unit} (h : parInit s = .ok u t) : t.trace = s.trace ++ powerOnEvents s := by
  obtain ⟨f, hf⟩ := powerOn_writeOp (cfg := s.cfg) (ad := s.i2cAddr) (bl := s.bl)
  have k := (hf.bind (WriteOp.bindCfg (onlyIf_writeOp (s.cfg.width == 4) (initPulse_writeOp 0x2)))) s u t rfl rfl rfl h
  rw [k.trace, powerOnEvents_eq]
  congr 2
  by_cases hw : s.cfg.width = 4 <;> simp [hw]

/-- The power-on part of `bus.init` on I2C-Mux4 emits exactly the events of R121 after the scan. -/
theorem i2cPowerOn_trace {s t : State} {u : Unit} (hv : s.cfg.variant = .i2cMux4) (h : i2cPowerOn s = .ok u t) :
    t.trace = s.trace ++ powerOnEvents s := by
  obtain ⟨f, hf⟩ := powerOn_writeOp (cfg := s.cfg) (ad := s.i2cAddr) (bl := s.bl)
  have k := (hf.bind (initPulse_writeOp 0x2)) s u t rfl rfl rfl h
  rw [k.trace, powerOnEvents_eq, if_pos (by simp [Config.width, hv])]

/-! ### Address selection -/

/-- A completed scan reports the next answer. -/
theorem i2cScan_ok {s t : State} {l : List Addr7} (h : i2cScan s = .ok l t) :
    l = s.nextScan ∧ ∃ env, t = { s with log := .i2cScan l :: s.log, env := env } := by
  obtain ⟨_, _, h1, h2⟩ := bind_eq_ok.mp h
  obtain ⟨fs, hfs, rfl⟩ := platform_ok h1
  obtain ⟨a, u, h3, h4⟩ := bind_eq_ok.mp h2
  obtain ⟨rfl, rfl⟩ : distinctAddrs a = l ∧ _ = t := by simpa [emit] using h4
  unfold drawFrom at h3
  split at h3
  · next rest hq =>
    obtain ⟨rfl, rfl⟩ : _ ∧ _ = u := by simpa using h3
    replace hq : s.env.scans = _ := hq
    exact ⟨by simp [State.nextScan, hq], _, rfl⟩
  · next hq =>
    obtain ⟨rfl, rfl⟩ : _ ∧ _ = u := by simpa using h3
    replace hq : s.env.scans = [] := hq
    exact ⟨by simp [State.nextScan, hq], _, rfl⟩

/-- What `i2c_select` does after the scan (R119). -/
theorem i2cSelect_cases (s : State) :
    (∃ a t env, i2cSelect s = .ok () t ∧ selects s.cfg s.nextScan a ∧ OnlyBus s { t with i2cAddr := s.i2cAddr } ∧
      t = { s with i2cAddr := some a, log := .i2cScan s.nextScan :: s.log, env := env }) ∨
    (∃ i t env, i2cSelect s = .error (.error (.e3 i)) t ∧ OnlyBus s t ∧ (∀ a, ¬ selects s.cfg s.nextScan a) ∧
      t = { s with log := .i2cScan s.nextScan :: s.log, env := env } ∧
      ((s.nextScan = [] ∧ i = .noDevice) ∨
        (s.nextScan ≠ [] ∧ s.cfg.i2cAddrCfg = none ∧ i = .ambiguous s.nextScan) ∨
        (∃ n, s.nextScan ≠ [] ∧ s.cfg.i2cAddrCfg = some n ∧ i = .addressMissing n))) ∨
    (∃ t, i2cSelect s = .error (.error (.e3 (.platformError .i2cScan))) t ∧ s.quiet = false ∧ OnlyBus s t) := by
  cases hs : i2cScan s with
  | error e t =>
    refine .inr (.inr ⟨t, ?_, ?_, (i2cScan_busOp (cfg := s.cfg)).error_frame rfl hs⟩)
    · obtain hp | ⟨_, u, h1, h2⟩ := bind_eq_error.mp hs
      · rcases platform_cases .i2cScan s with ⟨fs, -, k⟩ | ⟨fs, -, -, k⟩
        · simp [k] at hp
        · rw [k] at hp
          obtain ⟨rfl, -⟩ : _ = e ∧ _ := by simpa using hp
          exact bind_error hs
      · obtain hp | ⟨_, w, h3, h4⟩ := bind_eq_error.mp h2
        · exact absurd hp (by unfold drawFrom; split <;> simp)
        · simp [emit] at h4
    · rcases platform_cases .i2cScan s with ⟨fs, -, k⟩ | ⟨fs, -, hq, -⟩
      · exfalso
        rw [i2cScan, bind_ok k] at hs
        obtain hp | ⟨_, w, h3, h4⟩ := bind_eq_error.mp hs
        · exact absurd hp (by unfold drawFrom; split <;> simp)
        · simp [emit] at h4
      · exact hq
  | ok l t =>
    have fr := (i2cScan_busOp (cfg := s.cfg)).ok_frame rfl hs
    obtain ⟨rfl, env, rfl⟩ := i2cScan_ok hs
    rw [i2cSelect, bind_ok hs]
    generalize s.nextScan = l at fr ⊢
    match l with
    | [] =>
      refine .inr (.inl ⟨.noDevice, _, env, by exact bind_error (require_false rfl _ _), fr, ?_, rfl, .inl ⟨rfl, rfl⟩⟩)
      intro a
      unfold selects
      split <;> simp
    | a :: rest =>
      cases hc : s.cfg.i2cAddrCfg with
      | none =>
        match rest with
        | [] => exact .inl ⟨a, _, env, by simp [bind_run, require, hc], by simp [selects, hc], fr, rfl⟩
        | b :: rest =>
          exact .inr (.inl ⟨.ambiguous (a :: b :: rest), _, env, by simp [bind_run, require, hc], fr,
            by simp [selects, hc], rfl, .inr (.inl ⟨by simp, rfl, rfl⟩)⟩)
      | some n =>
        cases hm : (a :: rest).any (·.toNat == n) with
        | true =>
          exact .inl ⟨BitVec.ofNat 7 n, _, env, by
            simp only [bind_run, require, getCfg_run, List.isEmpty_cons, Bool.not_false, if_true, hc, hm]; rfl,
            by simp only [selects, hc, hm, and_self], fr, rfl⟩
        | false =>
          exact .inr (.inl ⟨.addressMissing n, _, env, by
            simp only [bind_run, require, getCfg_run, List.isEmpty_cons, Bool.not_false, if_true, hc, hm]; rfl, fr,
            by simp [selects, hc, hm], rfl, .inr (.inr ⟨n, by simp, rfl, rfl⟩)⟩)

/-! ### Backlight -/

/-- A transport's `set_backlight` after its flag is written. -/
def blBody (cfg : Config) (en : Bool) : Drv Unit :=
  match cfg.variant with
  | .parallel8 => drive .bl (if en then cfg.blActiveLevel else !cfg.blActiveLevel)
  | .parallel4 => drive .bl (if en then cfg.blActiveLevel else !cfg.blActiveLevel)
  | .i2cMux4 => i2cWrite (expByte cfg.i2cMap false false false en 0)

/-- `set_backlight` writes the flag, then the line or the byte (R112, R118). -/
theorem busSetBacklight_eq {s : State} (h : s.cfg.canBl = true) (en : Bool) :
    busSetBacklight en s = blBody s.cfg en { s with bl := en } := by
  rw [busSetBacklight, bind_getCfg]
  unfold blBody
  cases hv : s.cfg.variant with
  | parallel8 => simp only [parSetBacklight, bind_getCfg, bind_ok (require_true h _ _), bind_update]
  | parallel4 => simp only [parSetBacklight, bind_getCfg, bind_ok (require_true h _ _), bind_update]
  | i2cMux4 =>
    simp only [i2cSetBacklight, bind_getCfg, bind_update]
    rfl

theorem blBody_busOp (en : Bool) : BusOp cfg (blBody cfg en) := by
  unfold blBody
  cases hv : cfg.variant with
  | parallel8 => exact drive_busOp _ _
  | parallel4 => exact drive_busOp _ _
  | i2cMux4 => exact i2cWrite_busOp hv _

/-! ### The words of init -/

theorem glyphWords_writes {code : Nat} {rows : List Nat} (hc : code < cgSlots) (hr : ∀ v ∈ rows, v ≤ 31) :
    AllWrites (glyphWords code rows) := by
  intro c h
  rcases List.mem_cons.mp h with rfl | h
  · exact (setcgWord_facts hc).1
  · obtain ⟨v, hv, rfl⟩ := List.mem_map.mp h
    exact (wrdataWord_facts (by have := hr v hv; omega)).1

theorem zeroGlyphs_writes : AllWrites (zeroGlyphs 0 cgSlots) := by decide +kernel

/-- With legal flag registers all 77 words are write words. -/
theorem initWords_writes {s : State} (he : s.em.rw = false) (hd : s.dc.rw = false) (hf : s.fs.rw = false) :
    AllWrites (initWords s) := by
  intro c h
  simp only [initWords, List.mem_append, List.mem_cons, List.not_mem_nil, or_false] at h
  rcases h with ((rfl | rfl | rfl | rfl) | h) | rfl
  · exact hf
  · rfl
  · exact he
  · exact hd
  · exact zeroGlyphs_writes c h
  · rfl

end Sys2Proof.Machine
end

