-- ==== Sys2Proof/Laws/Reads.lean ====
section
/-! SUPPORT. The laws of reading: which answers of the environment a read consumes, the exact events, and the value. -/

namespace Sys2Proof.Machine

open Sys2Proof

variable {cfg : Config}

/-! ### Answers -/

/-- Failure draws are not answers. -/
theorem sampleAt_eq {s t : State} (h1 : t.env.samples = s.env.samples) (h2 : t.env.drawn = s.env.drawn) (k : Nat) :
    t.sampleAt k = s.sampleAt k := by
  simp [State.sampleAt, h1, h2]

theorem readAt_eq {s t : State} (h1 : t.env.reads = s.env.reads) (h2 : t.env.drawn = s.env.drawn) (k : Nat) :
    t.readAt k = s.readAt k := by
  simp [State.readAt, h1, h2]

/-- `t` is `s` after the events `evs`, the levels and directions changed by `f` and `d`, and `n` sample answers used. -/
def Samples (evs : List Event) (f : Levels → Levels) (d : Vector Dir 8 → Vector Dir 8) (n : Nat) (s t : State) : Prop :=
  (∃ env, t = { s with lvl := f s.lvl, dir := d s.dir, log := evs.reverse ++ s.log, env := env }) ∧
    ∀ k, t.sampleAt k = s.sampleAt (k + n)

theorem Samples.trans {e1 e2 : List Event} {f g : Levels → Levels} {d1 d2 : Vector Dir 8 → Vector Dir 8} {n m : Nat}
    {s t u : State} (h : Samples e1 f d1 n s t) (k : Samples e2 g d2 m t u) :
    Samples (e1 ++ e2) (fun v => g (f v)) (fun v => d2 (d1 v)) (n + m) s u := by
  obtain ⟨⟨e, rfl⟩, hs⟩ := h
  obtain ⟨⟨e', rfl⟩, ht⟩ := k
  refine ⟨⟨e', by simp [List.append_assoc]⟩, fun k => ?_⟩
  rw [ht, hs]
  congr 1
  omega

theorem Samples.trace {e : List Event} {f : Levels → Levels} {d : Vector Dir 8 → Vector Dir 8} {n : Nat} {s t : State}
    (h : Samples e f d n s t) : t.trace = s.trace ++ e := by
  obtain ⟨⟨env, rfl⟩, -⟩ := h
  exact trace_append rfl

theorem Emits.samples {evs : List Event} {f : Levels → Levels} {s t : State} (h : Emits evs f s t) :
    Samples evs f id 0 s t := by
  obtain ⟨fs, -, rfl⟩ := h
  exact ⟨⟨_, rfl⟩, fun k => sampleAt_eq rfl rfl k⟩

theorem setDir_samples {ls : List (Fin 8)} {d : Dir} {s t : State} {u : Unit} (h : setDir ls d s = .ok u t) :
    Samples [.setDir ls d] (Levels.release ls) (setLines d ls) 0 s t := by
  obtain ⟨fs, -, rfl⟩ := setDir_ok h
  exact ⟨⟨_, rfl⟩, fun k => sampleAt_eq rfl rfl k⟩

theorem sample_samples {l : Line} {s t : State} {b : Bool} (h : sample l s = .ok b t) :
    b = s.sampleAt 0 ∧ Samples [.sample l b] id id 1 s t := by
  obtain ⟨_, _, h1, h2⟩ := bind_eq_ok.mp h
  obtain ⟨fs, hfs, rfl⟩ := platform_ok h1
  obtain ⟨a, u, h3, h4⟩ := bind_eq_ok.mp h2
  obtain ⟨rfl, rfl⟩ : a = b ∧ _ = t := by simpa [emit] using h4
  unfold drawFrom at h3
  split at h3
  · next rest hq =>
    obtain ⟨rfl, rfl⟩ : _ ∧ _ = u := by simpa using h3
    replace hq : s.env.samples = _ := hq
    refine ⟨by simp [State.sampleAt, hq], ⟨_, rfl⟩, fun k => ?_⟩
    simp [State.sampleAt, hq]
  · next hq =>
    obtain ⟨rfl, rfl⟩ : _ ∧ _ = u := by simpa using h3
    replace hq : s.env.samples = [] := hq
    refine ⟨by simp [State.sampleAt, hq], ⟨_, rfl⟩, fun k => ?_⟩
    simp [State.sampleAt, hq]
    congr 1
    omega

/-- The value the samples `bits` make after `p`, first bit highest (R108). -/
def shiftIn (p : Byte) (bits : List Bool) : Byte := bits.foldl (fun p b => (p <<< 1) ||| (BitVec.ofBool b).setWidth 8) p

theorem sampleLines_samples {ls : List (Fin 8)} {p v : Byte} {s t : State} (h : sampleLines p ls s = .ok v t) :
    v = shiftIn p ((List.range ls.length).map s.sampleAt) ∧
      Samples (List.zipWith (fun i b => Event.sample (.data i) b) ls ((List.range ls.length).map s.sampleAt)) id id
        ls.length s t := by
  induction ls generalizing p s with
  | nil =>
    obtain ⟨rfl, rfl⟩ : p = v ∧ s = t := by simpa [sampleLines] using h
    exact ⟨rfl, ⟨s.env, rfl⟩, fun k => rfl⟩
  | cons i is ih =>
    obtain ⟨b, u, h1, h2⟩ := bind_eq_ok.mp h
    obtain ⟨rfl, k1⟩ := sample_samples h1
    obtain ⟨rfl, k2⟩ := ih h2
    have e : (List.range is.length).map u.sampleAt = (List.range is.length).map fun k => s.sampleAt (k + 1) :=
      List.map_congr_left fun k _ => k1.2 k
    have e' : (List.range (i :: is).length).map s.sampleAt =
        s.sampleAt 0 :: (List.range is.length).map fun k => s.sampleAt (k + 1) := by
      rw [List.length_cons, List.range_succ_eq_map, List.map_cons, List.map_map]
      rfl
    rw [e', e]
    refine ⟨rfl, ?_⟩
    have := k1.trans k2
    rw [e, Nat.add_comm 1] at this
    exact this

/-- The levels after a parallel read cycle. -/
def parReadLevels (rs : Bool) (v : Levels) : Levels :=
  (((v.drive .rs rs).drive .rw true).drive .e true).drive .e false

/-- One completed cycle of a parallel read. -/
theorem parReadCycle_samples {rs : Bool} {s t : State} {v : Byte} (h : parReadCycle rs s = .ok v t) :
    v = shiftIn 0 ((List.range s.cfg.dataLines.length).map s.sampleAt) ∧
      Samples (parReadCycleEvents s.cfg rs ((List.range s.cfg.dataLines.length).map s.sampleAt)) (parReadLevels rs) id
        s.cfg.dataLines.length s t := by
  rw [parReadCycle, bind_getCfg] at h
  have pre : WriteOp s.cfg s.i2cAddr s.bl _ _ _ := (drive_writeOp .rs rs).bind <| (drive_writeOp .rw true).bind <|
    (sleepUs_writeOp s.cfg.tAsUs).bind <| (drive_writeOp .e true).bind <| sleepUs_writeOp s.cfg.tPwUs
  obtain ⟨_, s1, h1, h⟩ := bind_eq_ok.mp h
  obtain ⟨_, s2, h2, h⟩ := bind_eq_ok.mp h
  obtain ⟨_, s3, h3, h⟩ := bind_eq_ok.mp h
  obtain ⟨_, s4, h4, h⟩ := bind_eq_ok.mp h
  obtain ⟨_, s5, h5, h⟩ := bind_eq_ok.mp h
  have k1 := (pre s () s5 rfl rfl rfl (by
    rw [bind_ok h1, bind_ok h2, bind_ok h3, bind_ok h4, h5])).samples
  obtain ⟨w, s6, h6, h⟩ := bind_eq_ok.mp h
  obtain ⟨rfl, k2⟩ := sampleLines_samples h6
  have hb : ∀ n, (List.range n).map s5.sampleAt = (List.range n).map s.sampleAt := fun n =>
    List.map_congr_left fun k _ => k1.2 k
  rw [hb] at k2 h
  obtain ⟨_, s7, h7, h⟩ := bind_eq_ok.mp h
  obtain ⟨_, s8, h8, h⟩ := bind_eq_ok.mp h
  obtain ⟨rfl, rfl⟩ : _ = v ∧ s8 = t := by simpa using h
  have post : WriteOp s.cfg s.i2cAddr s.bl _ _ _ := (drive_writeOp .e false).bind (sleepUs_writeOp s.cfg.tCycUs)
  obtain ⟨e5, r5⟩ := k1.1
  obtain ⟨e6, r6⟩ := k2.1
  have k3 := (post s6 () s8 (by rw [r6, r5]) (by rw [r6, r5]) (by rw [r6, r5]) (by rw [bind_ok h7, h8])).samples
  refine ⟨rfl, ?_⟩
  have := (k1.trans k2).trans k3
  simp only [Nat.zero_add, Nat.add_zero] at this
  exact this

/-- A completed parallel read on an 8-bit bus (R109). -/
theorem parReadBody8 {rs : Bool} {s t : State} {v : Byte} (hv : s.cfg.variant = .parallel8)
    (h : parReadBody rs s = .ok v t) :
    v = shiftIn 0 ((List.range 8).map s.sampleAt) ∧
      Samples (read8Events s rs)
        (fun l => (parReadLevels rs (l.release s.cfg.dataLines)).release s.cfg.dataLines) (fun d => setLines .out s.cfg.dataLines (setLines .inp s.cfg.dataLines d))
        8 s t := by
  have hl : s.cfg.dataLines.length = 8 := by simp [Config.dataLines, hv]
  have hw : s.cfg.width = 8 := by simp [Config.width, hv]
  rw [parReadBody, bind_getCfg] at h
  obtain ⟨_, s1, h1, h⟩ := bind_eq_ok.mp h
  have k1 := setDir_samples h1
  obtain ⟨w, s2, h2, h⟩ := bind_eq_ok.mp h
  have c1 : s1.cfg = s.cfg := by obtain ⟨e, r⟩ := k1.1; rw [r]
  rw [parReadCycles, bind_getCfg, c1] at h2
  obtain ⟨p, s3, h3, h2⟩ := bind_eq_ok.mp h2
  rw [if_pos hw] at h2
  obtain ⟨rfl, rfl⟩ : p = w ∧ s3 = s2 := by simpa using h2
  obtain ⟨rfl, k2⟩ := parReadCycle_samples h3
  obtain ⟨_, s4, h4, h⟩ := bind_eq_ok.mp h
  obtain ⟨rfl, rfl⟩ : _ = v ∧ s4 = t := by simpa using h
  have k3 := setDir_samples h4
  have hb : (List.range 8).map s1.sampleAt = (List.range 8).map s.sampleAt := List.map_congr_left fun k _ => k1.2 k
  rw [c1, hl, hb] at k2 ⊢
  refine ⟨rfl, ?_⟩
  have := (k1.trans k2).trans k3
  simp only [Nat.zero_add, Nat.add_zero] at this
  exact this

/-- A completed parallel read on a 4-bit bus (R110). -/
theorem parReadBody4 {rs : Bool} {s t : State} {v : Byte} (hv : s.cfg.variant = .parallel4)
    (h : parReadBody rs s = .ok v t) :
    v = (shiftIn 0 ((List.range 4).map s.sampleAt) <<< 4) ||| shiftIn 0 ((List.range' 4 4).map s.sampleAt) ∧
      Samples (read4Events s rs) 
        (fun l => (parReadLevels rs (parReadLevels rs (l.release s.cfg.dataLines))).release s.cfg.dataLines)
        (fun d => setLines .out s.cfg.dataLines (setLines .inp s.cfg.dataLines d)) 8 s t := by
  have hl : s.cfg.dataLines.length = 4 := by simp [Config.dataLines, hv]
  have hw : s.cfg.width ≠ 8 := by simp [Config.width, hv]
  rw [parReadBody, bind_getCfg] at h
  obtain ⟨_, s1, h1, h⟩ := bind_eq_ok.mp h
  have k1 := setDir_samples h1
  obtain ⟨w, s2, h2, h⟩ := bind_eq_ok.mp h
  have c1 : s1.cfg = s.cfg := by obtain ⟨e, r⟩ := k1.1; rw [r]
  rw [parReadCycles, bind_getCfg, c1] at h2
  obtain ⟨p, s3, h3, h2⟩ := bind_eq_ok.mp h2
  rw [if_neg hw] at h2
  obtain ⟨rfl, k2⟩ := parReadCycle_samples h3
  obtain ⟨q, s4, h4, h2⟩ := bind_eq_ok.mp h2
  obtain ⟨rfl, rfl⟩ : _ = w ∧ s4 = s2 := by simpa using h2
  obtain ⟨rfl, k3⟩ := parReadCycle_samples h4
  have c3 : s3.cfg = s.cfg := by obtain ⟨e, r⟩ := k2.1; rw [r, c1]
  obtain ⟨_, s5, h5, h⟩ := bind_eq_ok.mp h
  obtain ⟨rfl, rfl⟩ : _ = v ∧ s5 = t := by simpa using h
  have k4 := setDir_samples h5
  have hb : (List.range 4).map s1.sampleAt = (List.range 4).map s.sampleAt := List.map_congr_left fun k _ => k1.2 k
  have hb3 : (List.range 4).map s3.sampleAt = (List.range' 4 4).map s.sampleAt := by
    have : List.range' 4 4 = (List.range 4).map fun k => k + 4 := by decide
    rw [this, List.map_map]
    refine List.map_congr_left fun k _ => ?_
    rw [k2.2, k1.2, c1, hl]
    rfl
  rw [c1, hl, hb] at k2 ⊢
  rw [c3, hl, hb3] at k3 ⊢
  refine ⟨rfl, ?_⟩
  have := ((k1.trans k2).trans k3).trans k4
  simp only [Nat.zero_add, Nat.add_zero] at this
  exact this

/-- The data lines after a completed parallel read: the latches as before, the lines outputs again that carry an unknown level,
every other line as before (R108, 93_implementation_defined.md U16). -/
theorem parReadBody_lines {rs : Bool} {s t : State} {v : Byte} (hv : s.cfg.variant ≠ .i2cMux4)
    (h : parReadBody rs s = .ok v t) :
    t.lvl.data = s.lvl.data ∧
      ∀ i : Fin 8, t.dir[i] = (if i ∈ s.cfg.dataLines then .out else s.dir[i]) ∧
        t.lvl.wire[i] = if i ∈ s.cfg.dataLines then .unknown else s.lvl.wire[i] := by
  have lines : ∀ {v : Levels}, v.wire = setLines .unknown s.cfg.dataLines s.lvl.wire →
      ∀ i : Fin 8, (setLines Dir.out s.cfg.dataLines (setLines Dir.inp s.cfg.dataLines s.dir))[i] =
          (if i ∈ s.cfg.dataLines then .out else s.dir[i]) ∧
        (v.release s.cfg.dataLines).wire[i] = if i ∈ s.cfg.dataLines then .unknown else s.lvl.wire[i] := by
    intro v hw i
    rw [release_wire, hw, setLines_get, setLines_get, setLines_get, setLines_get]
    split <;> exact ⟨rfl, rfl⟩
  cases hvar : s.cfg.variant with
  | i2cMux4 => exact absurd hvar hv
  | parallel8 =>
    obtain ⟨-, ⟨env, rfl⟩, -⟩ := parReadBody8 hvar h
    exact ⟨rfl, lines rfl⟩
  | parallel4 =>
    obtain ⟨-, ⟨env, rfl⟩, -⟩ := parReadBody4 hvar h
    exact ⟨rfl, lines rfl⟩

/-- Bit 7 - k of eight shifted-in samples is the k-th of them. -/
theorem shiftIn_eight (f : Nat → Bool) (k : Nat) (hk : k < 8) :
    (shiftIn 0 ((List.range 8).map f)).getLsbD (7 - k) = f k := by
  have h : ∀ a b c d e g i j : Bool, ∀ k < 8,
      (shiftIn 0 [a, b, c, d, e, g, i, j]).getLsbD (7 - k) = [a, b, c, d, e, g, i, j].getD k false := by decide +kernel
  have := h (f 0) (f 1) (f 2) (f 3) (f 4) (f 5) (f 6) (f 7) k hk
  rw [show (List.range 8).map f = [f 0, f 1, f 2, f 3, f 4, f 5, f 6, f 7] from rfl, this]
  interval_cases k <;> rfl

/-- The same for two nibbles. -/
theorem shiftIn_nibbles (f : Nat → Bool) (k : Nat) (hk : k < 8) :
    ((shiftIn 0 ((List.range 4).map f) <<< 4) ||| shiftIn 0 ((List.range' 4 4).map f)).getLsbD (7 - k) = f k := by
  have h : ∀ a b c d e g i j : Bool, ∀ k < 8,
      ((shiftIn 0 [a, b, c, d] <<< 4) ||| shiftIn 0 [e, g, i, j]).getLsbD (7 - k) =
        [a, b, c, d, e, g, i, j].getD k false := by decide +kernel
  have := h (f 0) (f 1) (f 2) (f 3) (f 4) (f 5) (f 6) (f 7) k hk
  rw [show (List.range 4).map f = [f 0, f 1, f 2, f 3] from rfl,
    show (List.range' 4 4).map f = [f 4, f 5, f 6, f 7] from rfl, this]
  interval_cases k <;> rfl

/-! ### I2C-Mux4 -/

/-- An expander byte write of a completed part, to the device `a`. -/
theorem i2cPut_ok {b : Byte} {n : Nat} {s t : State} {u : Unit} (h : i2cPut b n s = .ok u t) :
    ∃ a fs, s.i2cAddr = some a ∧ t = { s with
      lvl := { s.lvl with i2c := .driven b }, log := .sleepUs n :: .i2cWrite a b :: s.log,
      env := { s.env with faults := fs } } := by
  obtain ⟨_, x, h1, h2⟩ := bind_eq_ok.mp h
  obtain ⟨a, fs, ha, -, rfl⟩ := i2cWrite_ok h1
  obtain rfl : _ = t := by simpa using h2
  exact ⟨a, fs, ha, rfl⟩

theorem i2cRead_reads {s t : State} {b : Byte} (h : i2cRead s = .ok b t) :
    b = s.readAt 0 ∧ ∃ a env, s.i2cAddr = some a ∧ t = { s with log := .i2cRead a b :: s.log, env := env } ∧
      ∀ k, t.readAt k = s.readAt (k + 1) := by
  obtain ⟨ad, s', h1, h2⟩ := bind_eq_ok.mp h
  obtain ⟨ha, hs'⟩ := i2cTarget_ok h1
  rw [hs'] at h2
  obtain ⟨_, _, h3, h4⟩ := bind_eq_ok.mp h2
  obtain ⟨fs, hfs, rfl⟩ := platform_ok h3
  obtain ⟨c, u, h5, h6⟩ := bind_eq_ok.mp h4
  obtain ⟨rfl, rfl⟩ : c = b ∧ _ = t := by simpa [emit] using h6
  unfold drawFrom at h5
  split at h5
  · next rest hq =>
    obtain ⟨rfl, rfl⟩ : _ ∧ _ = u := by simpa using h5
    replace hq : s.env.reads = _ := hq
    refine ⟨by simp [State.readAt, hq], _, _, ha, rfl, fun k => ?_⟩
    simp [State.readAt, hq]
  · next hq =>
    obtain ⟨rfl, rfl⟩ : _ ∧ _ = u := by simpa using h5
    replace hq : s.env.reads = [] := hq
    refine ⟨by simp [State.readAt, hq], _, _, ha, rfl, fun k => ?_⟩
    simp [State.readAt, hq]
    congr 1
    omega

/-- One completed I2C read cycle (R116). -/
theorem i2cReadCycle_reads {rs : Bool} {s t : State} {v : Nibble} (h : i2cReadCycle rs s = .ok v t) :
    v = expNibble s.cfg.i2cMap (s.readAt 0) ∧ ∃ a env, s.i2cAddr = some a ∧
      t = { s with
        lvl := { s.lvl with i2c := .driven (expByte s.cfg.i2cMap rs true false s.bl 0xF) }
        log := (i2cReadCycleEvents s.cfg a s.bl rs (s.readAt 0)).reverse ++ s.log, env := env } ∧
      ∀ k, t.readAt k = s.readAt (k + 1) := by
  rw [i2cReadCycle, bind_getCfg] at h
  obtain ⟨b, s0, h0, h⟩ := bind_eq_ok.mp h
  obtain ⟨rfl, rfl⟩ : s.bl = b ∧ s = s0 := by simpa [getBl] using h0
  obtain ⟨_, s1, h1, h⟩ := bind_eq_ok.mp h
  obtain ⟨a, f1, ha, r1⟩ := i2cPut_ok h1
  obtain ⟨_, s2, h2, h⟩ := bind_eq_ok.mp h
  obtain ⟨a2, f2, ha2, r2⟩ := i2cPut_ok h2
  obtain ⟨r, s3, h3, h⟩ := bind_eq_ok.mp h
  obtain ⟨hr, a3, env, ha3, r3, k3⟩ := i2cRead_reads h3
  obtain ⟨_, s4, h4, h⟩ := bind_eq_ok.mp h
  obtain ⟨a4, f4, ha4, r4⟩ := i2cPut_ok h4
  obtain ⟨rfl, rfl⟩ : _ = v ∧ s4 = t := by simpa using h
  have i1 : s1.i2cAddr = some a := by rw [r1]; exact ha
  have i2 : s2.i2cAddr = some a := by rw [r2]; exact i1
  have i3 : s3.i2cAddr = some a := by rw [r3]; exact i2
  obtain rfl : a = a2 := by simpa [i1] using ha2
  obtain rfl : a = a3 := by simpa [i2] using ha3
  obtain rfl : a = a4 := by simpa [i3] using ha4
  have e2 : ∀ k, s2.readAt k = s.readAt k := fun k => readAt_eq (by rw [r2, r1]) (by rw [r2, r1]) k
  have e4 : ∀ k, s4.readAt k = s.readAt (k + 1) := fun k => by
    rw [readAt_eq (s := s3) (by rw [r4]) (by rw [r4]), k3, e2]
  rw [e2] at hr
  subst hr
  refine ⟨rfl, a, s4.env, ha, ?_, e4⟩
  rw [r4, r3, r2, r1]
  simp [i2cReadCycleEvents, expBit]

/-- A completed I2C read (R117). -/
theorem i2cReadBody_reads {rs : Bool} {s t : State} {v : Byte} (h : i2cReadBody rs s = .ok v t) :
    v = joinNibbles (expNibble s.cfg.i2cMap (s.readAt 0)) (expNibble s.cfg.i2cMap (s.readAt 1)) ∧
      ∃ a env, s.i2cAddr = some a ∧ t = { s with
        lvl := { s.lvl with i2c := .driven (expByte s.cfg.i2cMap rs true false s.bl 0xF) }
        log := (readI2CEvents s a rs).reverse ++ s.log, env := env } := by
  obtain ⟨hi, s1, h1, h⟩ := bind_eq_ok.mp h
  obtain ⟨rfl, a, env, ha, r1, k1⟩ := i2cReadCycle_reads h1
  obtain ⟨lo, s2, h2, h⟩ := bind_eq_ok.mp h
  obtain ⟨rfl, a', env', ha', r2, -⟩ := i2cReadCycle_reads h2
  obtain ⟨rfl, rfl⟩ : _ = v ∧ s2 = t := by simpa using h
  obtain rfl : a = a' := by rw [r1] at ha'; exact Option.some.inj (ha.symm.trans ha')
  have c1 : s1.cfg = s.cfg := by rw [r1]
  have b1 : s1.bl = s.bl := by rw [r1]
  rw [k1, c1] at *
  refine ⟨rfl, a, s2.env, ha, ?_⟩
  rw [r2, b1, r1]
  simp [readI2CEvents]

/-! ### Any transport -/

theorem nextRead_parallel {s : State} (hv : s.cfg.variant ≠ .i2cMux4) :
    s.nextRead = shiftIn 0 ((List.range 8).map s.sampleAt) := by
  unfold State.nextRead shiftIn
  rw [List.foldl_map]
  cases h : s.cfg.variant with
  | parallel8 => rfl
  | parallel4 => rfl
  | i2cMux4 => exact absurd h hv

/-- Two nibbles shifted in and joined are the eight samples shifted in (R109, R110). -/
theorem shiftIn_join (f : Nat → Bool) :
    (shiftIn 0 ((List.range 4).map f) <<< 4) ||| shiftIn 0 ((List.range' 4 4).map f) = shiftIn 0 ((List.range 8).map f) := by
  refine BitVec.eq_of_getLsbD_eq fun i hi => ?_
  have h1 := shiftIn_nibbles f (7 - i) (by omega)
  have h2 := shiftIn_eight f (7 - i) (by omega)
  rw [show 7 - (7 - i) = i by omega] at h1 h2
  rw [h1, h2]

/-- A completed read returns the answer the environment gives next, and emits exactly its events (R109, R110, R117). -/
theorem readBody_value {rs : Bool} {s t : State} {v : Byte} (h : readBody s.cfg.variant rs s = .ok v t) :
    v = s.nextRead ∧ t.trace = s.trace ++ readEvents s rs := by
  unfold readEvents
  cases hv : s.cfg.variant with
  | parallel8 =>
    rw [hv] at h
    have ⟨h1, h2⟩ := parReadBody8 hv h
    exact ⟨by rw [h1, nextRead_parallel (by simp [hv])], h2.trace⟩
  | parallel4 =>
    rw [hv] at h
    have ⟨h1, h2⟩ := parReadBody4 hv h
    exact ⟨by rw [h1, shiftIn_join, nextRead_parallel (by simp [hv])], h2.trace⟩
  | i2cMux4 =>
    rw [hv] at h
    obtain ⟨h1, a, env, ha, ht⟩ := i2cReadBody_reads h
    refine ⟨by rw [h1, State.nextRead, hv], ?_⟩
    rw [ha, ht]
    exact trace_append rfl

end Sys2Proof.Machine
end

