-- ==== Sys2Proof/Laws/Events.lean ====
section
/-! SUPPORT. Which events an operation can emit, whether it completes or not, and that a platform failure is the last one. -/

namespace Sys2Proof.Machine

open Sys2Proof

variable {α β : Type} {P : Event → Prop} {cfg : Config} {ad : Option Addr7} {bl : Bool}

/-- From any state with this configuration, address and backlight flag, which it keeps, `m` appends events that satisfy `P`,
and an error it ends in is a platform failure, recorded last. -/
structure Logs (P : Event → Prop) (cfg : Config) (ad : Option Addr7) (bl : Bool) (m : Drv α) : Prop where
  keep : ∀ s, s.cfg = cfg → s.i2cAddr = ad → s.bl = bl →
    (endState (m s)).cfg = cfg ∧ (endState (m s)).i2cAddr = ad ∧ (endState (m s)).bl = bl
  log : ∀ s, s.cfg = cfg → s.i2cAddr = ad → s.bl = bl →
    ∃ evs, (endState (m s)).log = evs ++ s.log ∧ ∀ e ∈ evs, P e
  fail : ∀ s e t, s.cfg = cfg → s.i2cAddr = ad → s.bl = bl → m s = .error (.error e) t →
    ∃ p evs, e = .e3 (.platformError p) ∧ cfg.platformFaults = true ∧ t.log = .platformFail p :: (evs ++ s.log)

theorem Logs.pure (a : α) : Logs P cfg ad bl (pure a : Drv α) where
  keep s h1 h2 h3 := ⟨h1, h2, h3⟩
  log s _ _ _ := ⟨[], rfl, by simp⟩
  fail s e t _ _ _ h := by simp at h

theorem Logs.bind {m : Drv α} {f : α → Drv β} (hm : Logs P cfg ad bl m) (hf : ∀ a, Logs P cfg ad bl (f a)) :
    Logs P cfg ad bl (m >>= f) where
  keep s h1 h2 h3 := by
    have k := hm.keep s h1 h2 h3
    rw [bind_run]
    cases hs : m s with
    | ok a t =>
      rw [hs] at k
      exact (hf a).keep t k.1 k.2.1 k.2.2
    | error e t =>
      rw [hs] at k
      exact k
  log s h1 h2 h3 := by
    have k := hm.keep s h1 h2 h3
    obtain ⟨evs, he, hp⟩ := hm.log s h1 h2 h3
    rw [bind_run]
    cases hs : m s with
    | ok a t =>
      rw [hs] at k he
      obtain ⟨evs', he', hp'⟩ := (hf a).log t k.1 k.2.1 k.2.2
      refine ⟨evs' ++ evs, ?_, fun e h => (List.mem_append.mp h).elim (hp' e) (hp e)⟩
      have he : t.log = evs ++ s.log := he
      rw [List.append_assoc, ← he]
      exact he'
    | error e t =>
      rw [hs] at he
      exact ⟨evs, he, hp⟩
  fail s e u h1 h2 h3 h := by
    rcases bind_eq_error.mp h with h | ⟨a, t, hs, h⟩
    · exact hm.fail s e u h1 h2 h3 h
    · have k := hm.keep s h1 h2 h3
      obtain ⟨evs, he, -⟩ := hm.log s h1 h2 h3
      rw [hs] at k he
      obtain ⟨p, evs', hp, hf', hl⟩ := (hf a).fail t e u k.1 k.2.1 k.2.2 h
      have he : t.log = evs ++ s.log := he
      exact ⟨p, evs' ++ evs, hp, hf', by rw [hl, he, List.append_assoc]⟩

theorem Logs.bindCfg {f : Config → Drv β} (h : Logs P cfg ad bl (f cfg)) : Logs P cfg ad bl (getCfg >>= f) where
  keep s h1 h2 h3 := by rw [bind_getCfg, h1]; exact h.keep s h1 h2 h3
  log s h1 h2 h3 := by rw [bind_getCfg, h1]; exact h.log s h1 h2 h3
  fail s e t h1 h2 h3 k := h.fail s e t h1 h2 h3 (by rwa [bind_getCfg, h1] at k)

theorem Logs.bindBl {f : Bool → Drv β} (h : Logs P cfg ad bl (f bl)) : Logs P cfg ad bl (getBl >>= f) where
  keep s h1 h2 h3 := by
    have e : (getBl >>= f) s = f s.bl s := rfl
    rw [e, h3]; exact h.keep s h1 h2 h3
  log s h1 h2 h3 := by
    have e : (getBl >>= f) s = f s.bl s := rfl
    rw [e, h3]; exact h.log s h1 h2 h3
  fail s e t h1 h2 h3 k := h.fail s e t h1 h2 h3 (by
    have e : (getBl >>= f) s = f s.bl s := rfl
    rwa [e, h3] at k)

theorem Logs.bindGet {f : State → Drv β} (h : ∀ s, Logs P cfg ad bl (f s)) : Logs P cfg ad bl (get >>= f) where
  keep s h1 h2 h3 := (h s).keep s h1 h2 h3
  log s h1 h2 h3 := (h s).log s h1 h2 h3
  fail s e t h1 h2 h3 k := (h s).fail s e t h1 h2 h3 k

theorem Logs.onlyIf {b : Bool} {m : Drv Unit} (h : Logs P cfg ad bl m) : Logs P cfg ad bl (onlyIf b m) := by
  cases b with
  | true => exact h
  | false => exact Logs.pure ()

/-- A change of state that is no event. -/
theorem Logs.update {f : State → State} (hl : ∀ s, (f s).log = s.log) (hc : ∀ s, (f s).cfg = s.cfg)
    (ha : ∀ s, (f s).i2cAddr = s.i2cAddr) (hb : ∀ s, (f s).bl = s.bl) : Logs P cfg ad bl (update f) where
  keep s h1 h2 h3 := ⟨(hc s).trans h1, (ha s).trans h2, (hb s).trans h3⟩
  log s _ _ _ := ⟨[], hl s, by simp⟩
  fail s e t _ _ _ h := by simp at h

theorem Logs.emit {e : Event} (he : P e) : Logs P cfg ad bl (emit e) where
  keep s h1 h2 h3 := ⟨h1, h2, h3⟩
  log s _ _ _ := ⟨[e], rfl, by simpa using he⟩
  fail s e t _ _ _ h := by simp [Machine.emit] at h

theorem platform_logs {p : Primitive} (hp : P (.platformFail p)) : Logs P cfg ad bl (platform p) where
  keep s h1 h2 h3 := by
    rcases platform_cases p s with ⟨fs, -, h⟩ | ⟨fs, -, -, h⟩ <;> rw [h] <;> exact ⟨h1, h2, h3⟩
  log s _ _ _ := by
    rcases platform_cases p s with ⟨fs, -, h⟩ | ⟨fs, -, -, h⟩ <;> rw [h]
    · exact ⟨[], rfl, by simp⟩
    · exact ⟨[.platformFail p], rfl, by simpa using hp⟩
  fail s e t h1 _ _ h := by
    rcases platform_cases p s with ⟨fs, -, k⟩ | ⟨fs, -, hq, k⟩ <;> rw [k] at h
    · simp at h
    · obtain ⟨rfl, rfl⟩ : _ = e ∧ _ = t := by simpa using h
      refine ⟨p, [], rfl, ?_, rfl⟩
      rw [← h1]
      simp [State.quiet] at hq
      exact hq.1

/-- The events of a bus without reads satisfy `P`. -/
structure WriteEventsOk (P : Event → Prop) (cfg : Config) (ad : Option Addr7) (bl : Bool) : Prop where
  fail : ∀ p, P (.platformFail p)
  drive : ∀ l b, l ≠ .bl → P (.drive l b)
  sleepUs : ∀ n, P (.sleepUs n)
  sleepMs : ∀ n, P (.sleepMs n)
  byte : ∀ a rs rw e nib, ad = some a → P (.i2cWrite a (expByte cfg.i2cMap rs rw e bl nib))

/-- The events of a bus with reads satisfy `P`. -/
structure ReadEventsOk (P : Event → Prop) (cfg : Config) (ad : Option Addr7) (bl : Bool) : Prop extends
    WriteEventsOk P cfg ad bl where
  setDir : ∀ ls d, P (.setDir ls d)
  sample : ∀ l b, P (.sample l b)
  i2cRead : ∀ a b, ad = some a → P (.i2cRead a b)
  ticks : ∀ n, P (.ticks n)
  warn : ∀ c, P (.warn c)

/-! ### Writes -/

theorem drive_logs (hP : WriteEventsOk P cfg ad bl) {l : Line} (hl : l ≠ .bl) (b : Bool) : Logs P cfg ad bl (drive l b) :=
  (platform_logs (hP.fail _)).bind fun _ => Logs.bind (Logs.update (fun _ => rfl) (fun _ => rfl) (fun _ => rfl) (fun _ => rfl))
    fun _ => Logs.emit (hP.drive l b hl)

theorem i2cTarget_logs {f : Addr7 → Drv β} (h : ∀ a, ad = some a → Logs P cfg ad bl (f a)) :
    Logs P cfg ad bl (i2cTarget >>= f) := by
  cases ha : ad with
  | none =>
    subst ha
    have e : ∀ s : State, s.i2cAddr = none → (i2cTarget >>= f) s = .error (.refused .i2cAddressUnresolved) s := by
      intro s hs
      exact bind_error (by simp [i2cTarget, hs])
    exact
      { keep := fun s h1 h2 h3 => by rw [e s h2]; exact ⟨h1, h2, h3⟩
        log := fun s _ h2 _ => by rw [e s h2]; exact ⟨[], rfl, by simp⟩
        fail := fun s e' t _ h2 _ k => by rw [e s h2] at k; simp at k }
  | some a =>
    subst ha
    have e : ∀ s : State, s.i2cAddr = some a → (i2cTarget >>= f) s = f a s := fun s hs => bind_ok (i2cTarget_some hs)
    exact
      { keep := fun s h1 h2 h3 => by rw [e s h2]; exact (h a rfl).keep s h1 h2 h3
        log := fun s h1 h2 h3 => by rw [e s h2]; exact (h a rfl).log s h1 h2 h3
        fail := fun s e' t h1 h2 h3 k => by rw [e s h2] at k; exact (h a rfl).fail s e' t h1 h2 h3 k }

theorem i2cWrite_logs (hP : WriteEventsOk P cfg ad bl) (rs rw e : Bool) (nib : Nibble) :
    Logs P cfg ad bl (i2cWrite (expByte cfg.i2cMap rs rw e bl nib)) :=
  i2cTarget_logs fun a ha => (platform_logs (hP.fail _)).bind fun _ =>
    Logs.bind (Logs.update (fun _ => rfl) (fun _ => rfl) (fun _ => rfl) (fun _ => rfl)) fun _ =>
    Logs.emit (hP.byte a rs rw e nib ha)

theorem i2cPut_logs (hP : WriteEventsOk P cfg ad bl) (rs rw e : Bool) (nib : Nibble) (n : Nat) :
    Logs P cfg ad bl (i2cPut (expByte cfg.i2cMap rs rw e bl nib) n) :=
  (i2cWrite_logs hP rs rw e nib).bind fun _ => Logs.emit (hP.sleepUs n)

/-- Setting the enable bit of an expander byte (30_encoding.md R67, 41_transport.md R114). -/
theorem expByte_enable (m : I2CMap) (rs rw bl : Bool) (nib : Nibble) :
    expByte m rs rw false bl nib ||| expBit true m.e = expByte m rs rw true bl nib := by
  simp only [expByte]
  rw [show expBit false m.e = 0#8 from rfl, BitVec.or_zero]
  ac_rfl

theorem i2cWriteCycle_logs (hP : WriteEventsOk P cfg ad bl) (rs : Bool) (nib : Nibble) :
    Logs P cfg ad bl (i2cWriteCycle rs nib) :=
  Logs.bindCfg <| Logs.bindBl <| (i2cPut_logs hP rs false false nib _).bind fun _ => by
    rw [expByte_enable]
    exact (i2cPut_logs hP rs false true nib _).bind fun _ => i2cPut_logs hP rs false false nib _

theorem pulse_logs (hP : WriteEventsOk P cfg ad bl) : Logs P cfg ad bl pulse :=
  Logs.bindCfg <| (drive_logs hP (by simp) _).bind fun _ => (Logs.emit (hP.sleepUs _)).bind fun _ =>
    (drive_logs hP (by simp) _).bind fun _ => Logs.emit (hP.sleepUs _)

theorem driveData_logs (hP : WriteEventsOk P cfg ad bl) (val : Byte) (low : Nat) (ls : List (Fin 8)) :
    Logs P cfg ad bl (driveData val low ls) := by
  induction ls with
  | nil => exact Logs.pure ()
  | cons i is ih => exact (drive_logs hP (by simp) _).bind fun _ => ih

theorem parWriteCycle_logs (hP : WriteEventsOk P cfg ad bl) (rs : Bool) (val : Byte) :
    Logs P cfg ad bl (parWriteCycle rs val) :=
  Logs.bindCfg <| (drive_logs hP (by simp) _).bind fun _ => (Logs.onlyIf (drive_logs hP (by simp) _)).bind fun _ =>
    (driveData_logs hP _ _ _).bind fun _ => (Logs.emit (hP.sleepUs _)).bind fun _ => pulse_logs hP

theorem writeBody_logs (hP : WriteEventsOk P cfg ad bl) (v : Variant) (w : Cmd) : Logs P cfg ad bl (writeBody v w) := by
  cases v with
  | parallel8 => exact parWriteCycle_logs hP _ _
  | parallel4 => exact (parWriteCycle_logs hP _ _).bind fun _ => parWriteCycle_logs hP _ _
  | i2cMux4 => exact (i2cWriteCycle_logs hP _ _).bind fun _ => i2cWriteCycle_logs hP _ _

/-! ### Reads -/

/-- A draw is no event. -/
theorem drawFrom_logs {queue : Env → List α} {setQueue : List α → Env → Env} {free : Nat → α} :
    Logs P cfg ad bl (drawFrom queue setQueue free) where
  keep s h1 h2 h3 := by unfold drawFrom; split <;> exact ⟨h1, h2, h3⟩
  log s _ _ _ := by unfold drawFrom; split <;> exact ⟨[], rfl, by simp⟩
  fail s e t _ _ _ h := by unfold drawFrom at h; split at h <;> simp at h

theorem sampleLines_logs (hP : ReadEventsOk P cfg ad bl) (p : Byte) (ls : List (Fin 8)) :
    Logs P cfg ad bl (sampleLines p ls) := by
  induction ls generalizing p with
  | nil => exact Logs.pure p
  | cons i is ih =>
    exact Logs.bind ((platform_logs (hP.fail _)).bind fun _ => drawFrom_logs.bind fun b =>
      (Logs.emit (hP.sample _ b)).bind fun _ => Logs.pure b) fun _ => ih _

theorem setDir_logs (hP : ReadEventsOk P cfg ad bl) (ls : List (Fin 8)) (d : Dir) : Logs P cfg ad bl (setDir ls d) :=
  (platform_logs (hP.fail _)).bind fun _ => Logs.bind (Logs.update (fun _ => rfl) (fun _ => rfl) (fun _ => rfl) (fun _ => rfl))
    fun _ => Logs.emit (hP.setDir ls d)

theorem parReadCycle_logs (hP : ReadEventsOk P cfg ad bl) (rs : Bool) : Logs P cfg ad bl (parReadCycle rs) :=
  have hW := hP.toWriteEventsOk
  Logs.bindCfg <| (drive_logs hW (by simp) _).bind fun _ => (drive_logs hW (by simp) _).bind fun _ =>
    (Logs.emit (hP.sleepUs _)).bind fun _ => (drive_logs hW (by simp) _).bind fun _ =>
    (Logs.emit (hP.sleepUs _)).bind fun _ => (sampleLines_logs hP _ _).bind fun _ =>
    (drive_logs hW (by simp) _).bind fun _ => (Logs.emit (hP.sleepUs _)).bind fun _ => Logs.pure _

theorem parReadBody_logs (hP : ReadEventsOk P cfg ad bl) (rs : Bool) : Logs P cfg ad bl (parReadBody rs) :=
  Logs.bindCfg <| (setDir_logs hP _ _).bind fun _ => Logs.bind (Logs.bindCfg <| (parReadCycle_logs hP _).bind fun p => by
      split
      · exact Logs.pure p
      · exact (parReadCycle_logs hP _).bind fun _ => Logs.pure _) fun _ =>
    (setDir_logs hP _ _).bind fun _ => Logs.pure _

theorem i2cReadCycle_logs (hP : ReadEventsOk P cfg ad bl) (rs : Bool) : Logs P cfg ad bl (i2cReadCycle rs) :=
  have hW := hP.toWriteEventsOk
  Logs.bindCfg <| Logs.bindBl <| (i2cPut_logs hW rs true false 0xF _).bind fun _ => by
    rw [expByte_enable]
    exact (i2cPut_logs hW rs true true 0xF _).bind fun _ =>
      Logs.bind (i2cTarget_logs fun a ha => (platform_logs (hP.fail _)).bind fun _ => drawFrom_logs.bind fun b =>
        (Logs.emit (hP.i2cRead a b ha)).bind fun _ => Logs.pure b) fun _ =>
      (i2cPut_logs hW rs true false 0xF _).bind fun _ => Logs.pure _

theorem readBody_logs (hP : ReadEventsOk P cfg ad bl) (v : Variant) (rs : Bool) : Logs P cfg ad bl (readBody v rs) := by
  cases v with
  | parallel8 => exact parReadBody_logs hP rs
  | parallel4 => exact parReadBody_logs hP rs
  | i2cMux4 => exact (i2cReadCycle_logs hP _).bind fun _ => (i2cReadCycle_logs hP _).bind fun _ => Logs.pure _

theorem pollRead_logs (hP : ReadEventsOk P cfg ad bl) (hr : cfg.canRead = true) : Logs P cfg ad bl (busRead 0x100) where
  keep s h1 h2 h3 := by
    rw [busRead_eq pollWord.1 pollWord.2 (by rw [h1]; exact hr)]
    exact (readBody_logs hP _ _).keep s h1 h2 h3
  log s h1 h2 h3 := by
    rw [busRead_eq pollWord.1 pollWord.2 (by rw [h1]; exact hr)]
    exact (readBody_logs hP _ _).log s h1 h2 h3
  fail s e t h1 h2 h3 k := by
    rw [busRead_eq pollWord.1 pollWord.2 (by rw [h1]; exact hr)] at k
    exact (readBody_logs hP _ _).fail s e t h1 h2 h3 k

theorem ticks_logs (hP : ReadEventsOk P cfg ad bl) : Logs P cfg ad bl ticks :=
  drawFrom_logs.bind fun _ => Logs.bind (Logs.update (fun _ => rfl) (fun _ => rfl) (fun _ => rfl) (fun _ => rfl)) fun _ =>
    Logs.bindGet fun _ => (Logs.emit (hP.ticks _)).bind fun _ => Logs.pure _

theorem pollLoop_logs (hP : ReadEventsOk P cfg ad bl) (hr : cfg.canRead = true) (c : Cmd) (limit start fuel : Nat) :
    Logs P cfg ad bl (pollLoop c limit start fuel) := by
  induction fuel with
  | zero => exact Logs.pure ()
  | succ n ih =>
    exact (pollRead_logs hP hr).bind fun v => by
      split
      · exact Logs.pure ()
      · exact (ticks_logs hP).bind fun now => by
          split
          · exact Logs.emit (hP.warn c)
          · exact ih

/-! ### exec -/

/-- The events of a word: reads only where the bus can read. -/
theorem complete_logs (hW : WriteEventsOk P cfg ad bl) (hP : cfg.canRead = true → ReadEventsOk P cfg ad bl) (c : Cmd) :
    Logs P cfg ad bl (complete c) :=
  Logs.bindCfg <| by
    split
    · next hr =>
      exact (ticks_logs (hP hr)).bind fun _ => Logs.bindGet fun _ => pollLoop_logs (hP hr) hr _ _ _ _
    · exact Logs.emit (hW.sleepUs _)

theorem transfer_logs (hW : WriteEventsOk P cfg ad bl) (hP : cfg.canRead = true → ReadEventsOk P cfg ad bl) {c : Cmd}
    (h : c.rw = false ∨ cfg.canRead = true) : Logs P cfg ad bl (transfer c) := by
  unfold transfer
  split
  · next hr =>
    have hc : cfg.canRead = true := h.resolve_left (by simp [hr])
    have e : ∀ s : State, s.cfg = cfg → busRead c.toNat s = readBody s.cfg.variant (c.toNat.testBit 9) s := fun s hs =>
      busRead_eq c.isLt (by simpa using hr) (by rw [hs]; exact hc)
    refine Logs.bind ?_ fun _ => Logs.pure _
    exact
      { keep := fun s h1 h2 h3 => by rw [e s h1]; exact (readBody_logs (hP hc) _ _).keep s h1 h2 h3
        log := fun s h1 h2 h3 => by rw [e s h1]; exact (readBody_logs (hP hc) _ _).log s h1 h2 h3
        fail := fun s e' t h1 h2 h3 k => by
          rw [e s h1] at k; exact (readBody_logs (hP hc) _ _).fail s e' t h1 h2 h3 k }
  · next hr =>
    have hr : c.rw = false := by simpa using hr
    refine Logs.bind ?_ fun _ => Logs.pure _
    exact
      { keep := fun s h1 h2 h3 => by rw [busWrite_eq hr]; exact (writeBody_logs hW _ _).keep s h1 h2 h3
        log := fun s h1 h2 h3 => by rw [busWrite_eq hr]; exact (writeBody_logs hW _ _).log s h1 h2 h3
        fail := fun s e' t h1 h2 h3 k => by
          rw [busWrite_eq hr] at k; exact (writeBody_logs hW _ _).fail s e' t h1 h2 h3 k }

theorem execCmd_logs (hW : WriteEventsOk P cfg ad bl) (hP : cfg.canRead = true → ReadEventsOk P cfg ad bl) {c : Cmd}
    (h : c.rw = false ∨ cfg.canRead = true) : Logs P cfg ad bl (execCmd c) :=
  (transfer_logs hW hP h).bind fun _ =>
    Logs.bind (Logs.update (fun _ => rfl) (fun _ => rfl) (fun _ => rfl) (fun _ => rfl)) fun _ =>
    (complete_logs hW hP c).bind fun _ => Logs.pure _

theorem issueAll_logs (hW : WriteEventsOk P cfg ad bl) (hP : cfg.canRead = true → ReadEventsOk P cfg ad bl) {ws : List Cmd}
    (h : AllWrites ws) : Logs P cfg ad bl (issueAll ws) := by
  induction ws with
  | nil => exact Logs.pure ()
  | cons c cs ih =>
    exact Logs.bind ((execCmd_logs hW hP (.inl (h c List.mem_cons_self))).bind fun _ => Logs.pure ()) fun _ =>
      ih fun d hd => h d (List.mem_cons_of_mem _ hd)

/-! ### Power-on -/

theorem initPulse_logs (hW : WriteEventsOk P cfg ad bl) (nib : Nibble) : Logs P cfg ad bl (initPulse nib) :=
  Logs.bindCfg <| by
    cases cfg.variant with
    | parallel8 => exact parWriteCycle_logs hW _ _
    | parallel4 => exact parWriteCycle_logs hW _ _
    | i2cMux4 => exact i2cWriteCycle_logs hW _ _

theorem powerOn_logs (hW : WriteEventsOk P cfg ad bl) : Logs P cfg ad bl powerOn :=
  Logs.bindCfg <| Logs.bind (Logs.emit (hW.sleepMs _)) fun _ => (initPulse_logs hW _).bind fun _ =>
    Logs.bind (Logs.emit (hW.sleepMs _)) fun _ => (initPulse_logs hW _).bind fun _ =>
    Logs.bind (Logs.emit (hW.sleepMs _)) fun _ => (initPulse_logs hW _).bind fun _ => Logs.emit (hW.sleepMs _)

theorem parInit_logs (hW : WriteEventsOk P cfg ad bl) : Logs P cfg ad bl parInit :=
  (powerOn_logs hW).bind fun _ => Logs.bindCfg <| Logs.onlyIf (initPulse_logs hW _)

theorem i2cPowerOn_logs (hW : WriteEventsOk P cfg ad bl) : Logs P cfg ad bl i2cPowerOn :=
  (powerOn_logs hW).bind fun _ => initPulse_logs hW _

/-- The one event of a backlight change. -/
theorem blBody_logs (hf : ∀ p, P (.platformFail p)) (hd : ∀ b, P (.drive .bl b))
    (hb : ∀ a, ad = some a → P (.i2cWrite a (expByte cfg.i2cMap false false false bl 0))) :
    Logs P cfg ad bl (blBody cfg bl) := by
  unfold blBody
  have par : ∀ b, Logs P cfg ad bl (drive .bl b) := fun b => (platform_logs (hf _)).bind fun _ =>
    Logs.bind (Logs.update (fun _ => rfl) (fun _ => rfl) (fun _ => rfl) (fun _ => rfl)) fun _ => Logs.emit (hd b)
  cases cfg.variant with
  | parallel8 => exact par _
  | parallel4 => exact par _
  | i2cMux4 =>
    exact i2cTarget_logs fun a ha => (platform_logs (hf _)).bind fun _ =>
      Logs.bind (Logs.update (fun _ => rfl) (fun _ => rfl) (fun _ => rfl) (fun _ => rfl)) fun _ => Logs.emit (hb a ha)

end Sys2Proof.Machine
end

