-- ==== Sys2Proof/Laws/Machine.lean ====
section
/-! SUPPORT. What any operation can do, said once: it is stopped by its checks with the state unchanged, or it runs and changes
only what bus activity changes, beside the registers it writes itself. -/

namespace Sys2Proof.Machine

open Sys2Proof

variable {α β : Type}

/-! ### Checks -/

/-- A check changes nothing and raises no E3. -/
def Check (m : Drv α) : Prop :=
  ∀ s, (∃ a, m s = .ok a s) ∨ (∃ e, m s = .error e s ∧ ∀ i, e ≠ .error (.e3 i))

theorem Check.require {c : Bool} {e : Stop} (h : ∀ i, e ≠ .error (.e3 i)) : Check (require c e) := by
  intro _
  cases c with
  | true => exact .inl ⟨(), rfl⟩
  | false => exact .inr ⟨e, rfl, h⟩

theorem Check.pure (a : α) : Check (pure a : Drv α) := fun _ => .inl ⟨a, rfl⟩

theorem Check.bind {m : Drv α} {f : α → Drv β} (hm : Check m) (hf : ∀ a, Check (f a)) : Check (m >>= f) := by
  intro s
  rcases hm s with ⟨a, h⟩ | ⟨e, h, he⟩
  · rw [bind_ok h]
    exact hf a s
  · exact .inr ⟨e, bind_error h, he⟩

theorem getCfg_check : Check getCfg := fun s => .inl ⟨s.cfg, rfl⟩
theorem getMap_check : Check getMap := fun s => .inl ⟨s.cmap, rfl⟩

theorem phaseCheckReady_check : Check phaseCheckReady := by
  intro s
  unfold phaseCheckReady
  split <;> first | exact .inl ⟨(), rfl⟩ | exact .inr ⟨_, rfl, by simp⟩

theorem phaseCheckLive_check : Check phaseCheckLive := by
  intro s
  unfold phaseCheckLive
  split <;> first | exact .inl ⟨(), rfl⟩ | exact .inr ⟨_, rfl, by simp⟩

theorem cgramCheck_check : Check cgramCheck := by
  intro s
  unfold cgramCheck
  split <;> first | exact .inl ⟨(), rfl⟩ | exact .inr ⟨_, rfl, by simp⟩

theorem positionChecks_check (col line : Nat) : Check (positionChecks col line) :=
  (Check.require (by simp)).bind fun _ => Check.require (by simp)

theorem glyphChecks_check (code : Nat) (rows : List Nat) : Check (glyphChecks code rows) :=
  (Check.require (by simp)).bind fun _ => (Check.require (by simp)).bind fun _ => by
    split
    · exact Check.require (by simp)
    · exact Check.pure ()

theorem writeChecks_check (c : Nat) : Check (writeChecks c) :=
  (Check.require (by simp)).bind fun _ => Check.require (by simp)

theorem readChecks_check (c : Nat) : Check (readChecks c) :=
  (Check.require (by simp)).bind fun _ => (Check.require (by simp)).bind fun _ => getCfg_check.bind fun _ =>
    Check.require (by simp)

theorem requireVariant_check (v : Variant) : Check (requireVariant v) := by
  intro s
  unfold requireVariant
  split
  · exact .inl ⟨(), rfl⟩
  · exact .inr ⟨_, rfl, by simp⟩

theorem inverse_check (a : BitVec 7) : Check (inverse a) := by
  intro s
  unfold inverse
  split
  · exact .inl ⟨_, rfl⟩
  · exact .inr ⟨_, rfl, by simp⟩

/-- The checks of `create_character` pass exactly on a legal glyph (44_text.md R150). -/
theorem glyphChecks_pass {code : Nat} {rows : List Nat} {s t : State} {u : Unit} (h : glyphChecks code rows s = .ok u t) :
    code < cgSlots ∧ rows.length = cgRows ∧ ∀ v ∈ rows, v ≤ 31 := by
  unfold glyphChecks at h
  obtain ⟨_, _, h1, h⟩ := bind_eq_ok.mp h
  obtain ⟨_, _, h2, h3⟩ := bind_eq_ok.mp h
  refine ⟨by simpa using (require_ok.mp h1).1, by simpa using (require_ok.mp h2).1, ?_⟩
  cases hb : firstBadRow 0 rows with
  | none => exact firstBadRow_none hb
  | some p =>
    rw [hb] at h3
    exact absurd (require_ok.mp h3).1 (by simp)

theorem positionChecks_pass {col line : Nat} {s t : State} {u : Unit} (h : positionChecks col line s = .ok u t) :
    t = s ∧ col < colCount ∧ line < lineCount := by
  obtain ⟨_, _, h1, h2⟩ := bind_eq_ok.mp h
  obtain ⟨c1, rfl⟩ := require_ok.mp h1
  obtain ⟨c2, rfl⟩ := require_ok.mp h2
  exact ⟨rfl, by simpa using c1, by simpa using c2⟩

/-! ### Runs -/

/-- The lines at the end of a completed run: E as before or low, each data line as before or an output. -/
structure Calm (s t : State) : Prop where
  e : t.lvl.e = s.lvl.e ∨ t.lvl.e = .driven false
  dir : ∀ i : Fin 8, t.dir[i] = s.dir[i] ∨ t.dir[i] = .out

theorem Calm.refl (s : State) : Calm s s := ⟨.inl rfl, fun _ => .inl rfl⟩

theorem Calm.trans {s t u : State} (h : Calm s t) (k : Calm t u) : Calm s u where
  e := by
    rcases k.e with k | k
    · rw [k]; exact h.e
    · exact .inr k
  dir i := by
    rcases k.dir i with k | k
    · rw [k]; exact h.dir i
    · exact .inr k

theorem BusDone.calm {s t : State} (h : BusDone s t) : Calm s t := ⟨h.eLow, h.dir⟩

/-- A run from `s`: it changes only what bus activity changes; completed, its lines are calm; stopped, it is a platform
failure, a fault or a refusal, never E1 or E2. -/
structure Ran (s : State) (r : EStateM.Result Stop State α) : Prop where
  frame : OnlyBus s (endState r)
  calm : ∀ a t, r = .ok a t → Calm s t
  stops : ∀ e t, r = .error (.error e) t → ∃ p, e = .e3 (.platformError p)

/-- Stopped by a check with the state unchanged, or a run. -/
def CheckedRun (s : State) (r : EStateM.Result Stop State α) : Prop :=
  (∃ e, r = .error e s ∧ ∀ i, e ≠ .error (.e3 i)) ∨ Ran s r

theorem Ran.of_busOp {m : Drv α} {s : State} (h : BusOp s.cfg m) (hc : ∀ a t, m s = .ok a t → Calm s t) : Ran s (m s) where
  frame := h.frame s rfl
  calm := hc
  stops e t k := by
    rcases h.stops s _ t rfl k with ⟨p, hp, -⟩ | ⟨hp, -⟩
    · exact ⟨p, by simpa using hp⟩
    · simp at hp

theorem Ran.pure (a : α) (s : State) : Ran s ((pure a : Drv α) s) where
  frame := OnlyBus.refl s
  calm b t h := by
    obtain ⟨-, rfl⟩ : _ ∧ s = t := by simpa using h
    exact Calm.refl s
  stops e t h := by simp at h

theorem Ran.bind {m : Drv α} {f : α → Drv β} {s : State} (hm : Ran s (m s))
    (hf : ∀ a t, m s = .ok a t → OnlyBus s t → Ran t (f a t)) : Ran s ((m >>= f) s) := by
  rw [bind_run]
  cases h : m s with
  | ok a t =>
    have f1 : OnlyBus s t := by have := hm.frame; rwa [h] at this
    have k := hf a t h f1
    exact
      { frame := f1.trans k.frame
        calm := fun b u hb => (hm.calm a t h).trans (k.calm b u hb)
        stops := k.stops }
  | error e t =>
    have f1 := hm.frame
    rw [h] at f1
    exact
      { frame := f1
        calm := fun b u hb => by simp at hb
        stops := fun e' u hu => hm.stops e' u (by rw [h]; simpa using hu) }

theorem CheckedRun.check {m : Drv α} {f : α → Drv β} {s : State} (hm : Check m)
    (hf : ∀ a, m s = .ok a s → CheckedRun s (f a s)) : CheckedRun s ((m >>= f) s) := by
  rcases hm s with ⟨a, h⟩ | ⟨e, h, he⟩
  · rw [bind_ok h]
    exact hf a h
  · exact .inl ⟨e, bind_error h, he⟩

theorem CheckedRun.bind {m : Drv α} {f : α → Drv β} {s : State} (hm : CheckedRun s (m s))
    (hf : ∀ a t, m s = .ok a t → OnlyBus s t → Ran t (f a t)) : CheckedRun s ((m >>= f) s) := by
  rcases hm with ⟨e, h, he⟩ | hm
  · exact .inl ⟨e, bind_error h, he⟩
  · exact .inr (Ran.bind hm hf)

theorem execCmd_ran {c : Cmd} {s : State} (h : c.rw = false ∨ s.cfg.canRead = true) : Ran s (execCmd c s) :=
  Ran.of_busOp (execCmd_busOp h) fun v t k => by
    have d := (execCmd_done h k).1
    exact ⟨d.eLow, d.dir⟩

theorem issue_ran {c : Cmd} {s : State} (h : c.rw = false ∨ s.cfg.canRead = true) : Ran s (issue c s) :=
  Ran.bind (execCmd_ran h) fun _ t _ _ => Ran.pure () t

theorem issueAll_ran {ws : List Cmd} {s : State} (h : AllWrites ws) : Ran s (issueAll ws s) :=
  Ran.of_busOp (issueAll_busOp h) fun u t k => by
    have d := issueAll_done h k
    exact ⟨d.eLow, d.dir⟩

/-- Any word: unsupported with nothing changed, or a run. -/
theorem execCmd_checkedRun (c : Cmd) (s : State) : CheckedRun s (execCmd c s) := by
  cases hw : c.rw with
  | false => exact .inr (execCmd_ran (.inl hw))
  | true =>
    cases hc : s.cfg.canRead with
    | true => exact .inr (execCmd_ran (.inr hc))
    | false => exact .inl ⟨_, execCmd_unsupported hw hc, by simp⟩

theorem position_checkedRun (col line : Nat) (s : State) : CheckedRun s (position col line s) :=
  CheckedRun.check (positionChecks_check _ _) fun _ h =>
    .inr (issue_ran (.inl (setddWord_facts (positionChecks_pass h).2.1 (positionChecks_pass h).2.2).1))

/-! ### From a run to the next state -/

/-- The next states of an operation that is stopped by its checks or runs. -/
inductive Next (s t : State) : Prop where
  | rejected (e : Error) (h : ∀ i, e ≠ .e3 i) (ht : t = raiseError e s)
  | returned (v : Value) (u : State) (f : OnlyBus s u) (c : Calm s u) (ht : t = returnValue v u)
  | failed (p : Primitive) (u : State) (f : OnlyBus s u) (ht : t = raiseError (.e3 (.platformError p)) u)

/-- The next states of a run. -/
inductive NextRan (s t : State) : Prop where
  | returned (v : Value) (u : State) (f : OnlyBus s u) (c : Calm s u) (ht : t = returnValue v u)
  | failed (p : Primitive) (u : State) (f : OnlyBus s u) (ht : t = raiseError (.e3 (.platformError p)) u)

theorem NextRan.next {s t : State} (h : NextRan s t) : Next s t := by
  rcases h with ⟨v, u, f, c, ht⟩ | ⟨p, u, f, ht⟩
  · exact .returned v u f c ht
  · exact .failed p u f ht

theorem Ran.nextRan {m : Drv Value} {s t : State} (h : Ran s (m s)) (k : finish m s = .next t) : NextRan s t := by
  rcases finish_next k with ⟨v, u, hu, ht⟩ | ⟨e, u, hu, ht⟩
  · have f := h.frame
    rw [hu] at f
    exact .returned v u f (h.calm v u hu) ht
  · obtain ⟨p, rfl⟩ := h.stops e u hu
    have f := h.frame
    rw [hu] at f
    exact .failed p u f ht

theorem CheckedRun.next {m : Drv Value} {s t : State} (h : CheckedRun s (m s)) (k : finish m s = .next t) : Next s t := by
  rcases h with ⟨e, he, hn⟩ | h
  · rcases finish_next k with ⟨v, u, hu, ht⟩ | ⟨e', u, hu, ht⟩
    · rw [he] at hu; simp at hu
    · obtain ⟨rfl, rfl⟩ : e = .error e' ∧ s = u := by simpa [he] using hu
      exact .rejected e' (fun i hi => hn i (by rw [hi])) ht
  · exact (h.nextRan k).next

/-! ### The operations -/

theorem runWord_next {c : Cmd} {s t : State} (h : runWord c s = .next t) : Next s t :=
  CheckedRun.next (CheckedRun.bind (execCmd_checkedRun c s) fun _ u _ _ => Ran.pure _ u) h

theorem executeCommand_next {c : Nat} {s t : State} (h : execExecuteCommand c s = .next t) : Next s t :=
  CheckedRun.next (CheckedRun.check phaseCheckReady_check fun _ _ => CheckedRun.check (Check.require (by simp)) fun _ _ =>
    CheckedRun.check getCfg_check fun _ _ => CheckedRun.check (Check.require (by simp)) fun _ _ =>
    CheckedRun.bind (execCmd_checkedRun _ s) fun _ u _ _ => Ran.pure _ u) h

theorem isCommandSupported_next {c : Nat} {s t : State} (h : execIsCommandSupported c s = .next t) : Next s t :=
  CheckedRun.next (CheckedRun.check getCfg_check fun cfg _ => .inr (Ran.pure (Value.truth (commandSupported cfg c)) s)) h

theorem setCursorPosition_next {col line : Nat} {s t : State} (h : execSetCursorPosition col line s = .next t) :
    Next s t :=
  CheckedRun.next (CheckedRun.check phaseCheckReady_check fun _ _ =>
    CheckedRun.bind (position_checkedRun col line s) fun _ u _ _ => Ran.pure _ u) h

theorem getCursorPosition_next {s t : State} (h : execGetCursorPosition s = .next t) : Next s t := by
  refine CheckedRun.next (CheckedRun.check phaseCheckReady_check fun _ _ => CheckedRun.check getCfg_check fun _ _ =>
    CheckedRun.check (Check.require (by simp)) fun _ _ => CheckedRun.check cgramCheck_check fun _ _ =>
    CheckedRun.bind (execCmd_checkedRun _ s) fun v u _ _ => ?_) h
  unfold positionOf
  split
  · exact
      { frame := by
          unfold inverse
          split <;> exact OnlyBus.refl u
        calm := fun a t k => by
          unfold inverse at k
          split at k
          · obtain ⟨-, rfl⟩ : _ ∧ u = t := by simpa using k
            exact Calm.refl u
          · simp at k
        stops := fun e t k => by
          unfold inverse at k
          split at k <;> simp at k }
  · exact Ran.pure _ u

theorem moveCursor_next {right : Bool} {s t : State} (h : finish (moveCursor right) s = .next t) : Next s t :=
  CheckedRun.next (CheckedRun.check phaseCheckReady_check fun _ _ => CheckedRun.check cgramCheck_check fun _ _ =>
    CheckedRun.bind (.inr (issue_ran (.inl (shiftWord_facts _ _).1))) fun _ u _ _ => Ran.pure _ u) h

theorem scrollDisplay_next {left : Bool} {s t : State} (h : finish (scrollDisplay left) s = .next t) : Next s t :=
  CheckedRun.next (CheckedRun.check phaseCheckReady_check fun _ _ => CheckedRun.check getCfg_check fun _ _ =>
    CheckedRun.bind (.inr (issue_ran (.inl (shiftWord_facts _ _).1))) fun _ u _ _ => Ran.pure _ u) h

theorem createCharacter_next {code : Nat} {rows : List Nat} {s t : State}
    (h : execCreateCharacter code rows s = .next t) : Next s t :=
  CheckedRun.next (CheckedRun.check phaseCheckReady_check fun _ _ => CheckedRun.check (glyphChecks_check _ _) fun _ hg =>
    CheckedRun.bind (.inr (issueAll_ran (glyphWords_writes (glyphChecks_pass hg).1 (glyphChecks_pass hg).2.2)))
      fun _ u _ _ => Ran.pure _ u) h

theorem textWords_writes (m : CharMap) (text : List Nat) : AllWrites (text.map fun ch => wrdataWord (resolve m ch)) := by
  intro c hc
  obtain ⟨ch, -, rfl⟩ := List.mem_map.mp hc
  exact (wrdataWord_facts (resolve_lt m ch)).1

theorem codeWords_writes {codes : List Int} (h : firstBadCode codes = none) :
    AllWrites (codes.map fun k => wrdataWord k.toNat) := by
  intro c hc
  obtain ⟨k, hk, rfl⟩ := List.mem_map.mp hc
  exact (wrdataWord_facts (codeInRange_toNat (firstBadCode_none h k hk))).1

theorem writeText_next {col line : Nat} {text : List Nat} {s t : State} (h : execWriteText col line text s = .next t) :
    Next s t :=
  CheckedRun.next (CheckedRun.check phaseCheckReady_check fun _ _ =>
    CheckedRun.bind (position_checkedRun col line s) fun _ u _ _ => Ran.bind (m := getMap) (by
      exact { frame := OnlyBus.refl u, calm := fun a t k => by
                obtain ⟨-, rfl⟩ : _ ∧ u = t := by simpa [getMap] using k
                exact Calm.refl u
              stops := fun e t k => by simp [getMap] at k }) fun m v _ _ =>
      Ran.bind (issueAll_ran (textWords_writes m text)) fun _ w _ _ => Ran.pure _ w) h

theorem writeCodes_next {col line : Nat} {codes : List Int} {s t : State}
    (h : finish (writeCodesOp col line codes) s = .next t) : Next s t := by
  refine CheckedRun.next (CheckedRun.check phaseCheckReady_check fun _ _ =>
    CheckedRun.check (positionChecks_check _ _) fun _ _ => ?_) h
  cases hb : firstBadCode codes with
  | some k => exact CheckedRun.check (Check.require (by simp)) fun _ hr => absurd (require_ok.mp hr).1 (by simp)
  | none =>
    exact CheckedRun.bind (position_checkedRun col line s) fun _ u _ _ =>
      Ran.bind (issueAll_ran (codeWords_writes hb)) fun _ w _ _ => Ran.pure _ w

theorem readCode_next {col line : Nat} {s t : State} (h : execReadCode col line s = .next t) : Next s t :=
  CheckedRun.next (CheckedRun.check phaseCheckReady_check fun _ _ => CheckedRun.check getCfg_check fun cfg hg =>
    CheckedRun.check (Check.require (by simp)) fun _ hr =>
    CheckedRun.bind (position_checkedRun col line s) fun _ u _ f =>
      Ran.bind (execCmd_ran (.inr (by
        obtain rfl : s.cfg = cfg := by simpa using hg
        rw [f.cfg]
        exact (require_ok.mp hr).1))) fun _ w _ _ => Ran.pure _ w) h

/-- A mutator writes its register, then the word runs from there. -/
theorem mutate_next {r : FlagReg} {f : Cmd → Cmd} {s t : State} (h : finish (mutate r f) s = .next t) :
    Next (r.write (f (r.read s)) s) t := by
  have k : ∃ w, CheckedRun (r.write (f (r.read s)) s) ((do
      issue w
      pure Value.nothing : Drv Value) (r.write (f (r.read s)) s)) ∧
      (finish (mutate r f) s = finish (do
        issue w
        pure .nothing) (r.write (f (r.read s)) s) ∨ ∃ f', finish (mutate r f) s = .fault f') := by
    refine ⟨r.read (r.write (f (r.read s)) s), ?_, ?_⟩
    · refine CheckedRun.bind (CheckedRun.bind (execCmd_checkedRun _ _) fun _ u _ _ => Ran.pure () u) fun _ u _ _ =>
        Ran.pure _ u
    · cases hp : phaseCheckReady s with
      | ok _ u =>
        obtain rfl : s = u := (phaseCheckReady_ok hp).1.symm
        refine .inl ?_
        unfold finish mutate
        rw [bind_ok hp, bind_update, bind_get]
      | error e u =>
        obtain ⟨-, f', rfl⟩ := phaseCheckReady_error hp
        refine .inr ⟨f', ?_⟩
        exact finish_fault (bind_error hp)
  obtain ⟨w, hw, he | ⟨f', he⟩⟩ := k
  · exact hw.next (he ▸ h)
  · rw [he] at h; simp at h

/-- A mutator of a legal word raises no E1 or E2. -/
theorem mutate_nextRan {r : FlagReg} {f : Cmd → Cmd} {s t : State} (h : finish (mutate r f) s = .next t)
    (hw : (f (r.read s)).rw = false) : NextRan (r.write (f (r.read s)) s) t := by
  have hr : r.read (r.write (f (r.read s)) s) = f (r.read s) := by cases r <;> rfl
  cases hp : phaseCheckReady s with
  | ok _ u =>
    obtain rfl : s = u := (phaseCheckReady_ok hp).1.symm
    refine Ran.nextRan (m := do
      issue (f (r.read s))
      pure .nothing) (Ran.bind (issue_ran (.inl hw)) fun _ u _ _ => Ran.pure _ u) ?_
    rw [← h]
    unfold finish mutate
    rw [bind_ok hp, bind_update, bind_get, hr]
  | error e u =>
    obtain ⟨-, f', rfl⟩ := phaseCheckReady_error hp
    rw [show finish (mutate r f) s = .fault f' from finish_fault (bind_error hp)] at h
    simp at h

theorem blBody_ran (en : Bool) (s : State) : Ran s (blBody s.cfg en s) :=
  Ran.of_busOp (blBody_busOp en) fun u t k => by
    unfold blBody at k
    have par : ∀ b, drive .bl b s = .ok u t → Calm s t := fun b k => by
      obtain ⟨fs, -, rfl⟩ := drive_ok k
      exact ⟨.inl rfl, fun _ => .inl rfl⟩
    cases hv : s.cfg.variant with
    | parallel8 => rw [hv] at k; exact par _ k
    | parallel4 => rw [hv] at k; exact par _ k
    | i2cMux4 =>
      rw [hv] at k
      obtain ⟨a, fs, -, -, rfl⟩ := i2cWrite_ok k
      exact ⟨.inl rfl, fun _ => .inl rfl⟩

/-- The flag written, then the line or the byte. -/
def lightRun (en : Bool) (s : State) : Host.Outcome State Fault Refusal :=
  finish (do
    blBody s.cfg en
    pure .nothing) { s with bl := en }

theorem lightRun_next {en : Bool} {s t : State} (h : lightRun en s = .next t) : NextRan { s with bl := en } t :=
  Ran.nextRan (Ran.bind (blBody_ran en { s with bl := en }) fun _ u _ _ => Ran.pure _ u) h

/-- With the capability a backlight operation is its run (45_flags.md R168, R169). -/
theorem backlightOp_eq {en : Bool} {s : State} (hp : phaseCheckReady s = .ok () s) (hc : s.cfg.canBl = true) :
    finish (backlightOp en) s = lightRun en s := by
  unfold lightRun finish backlightOp
  rw [bind_ok hp, bind_getCfg, bind_ok (require_true hc _ _), bind_run, bind_run, busSetBacklight_eq hc]

/-- Without it, it is E2. -/
theorem backlightOp_unsupported {en : Bool} {s : State} (hp : phaseCheckReady s = .ok () s) (hc : s.cfg.canBl = false) :
    finish (backlightOp en) s = .next (raiseError (.e2 .backlightUnsupported) s) :=
  finish_error (by rw [backlightOp, bind_ok hp, bind_getCfg, bind_error (require_false hc _ _)])

/-- A backlight operation is stopped by its checks, or writes the flag and runs from there. -/
theorem backlightOp_next {en : Bool} {s t : State} (h : finish (backlightOp en) s = .next t) :
    (s.cfg.canBl = false ∧ t = raiseError (.e2 .backlightUnsupported) s) ∨ (s.cfg.canBl = true ∧ lightRun en s = .next t) := by
  cases hp : phaseCheckReady s with
  | error e u =>
    obtain ⟨-, f', rfl⟩ := phaseCheckReady_error hp
    rw [show finish (backlightOp en) s = .fault f' from finish_fault (bind_error hp)] at h
    simp at h
  | ok _ u =>
    obtain rfl : s = u := (phaseCheckReady_ok hp).1.symm
    cases hc : s.cfg.canBl with
    | false => rw [backlightOp_unsupported hp hc] at h; exact .inl ⟨rfl, by simpa [eq_comm] using h⟩
    | true => exact .inr ⟨rfl, by rw [← backlightOp_eq hp hc]; exact h⟩

end Sys2Proof.Machine
end

