-- ==== Sys2Proof/Laws/Transport.lean ====
section
/-! SUPPORT. What the transport functions and `init` can do, said once. -/

namespace Sys2Proof.Machine

open Sys2Proof

variable {α β : Type}

/-! ### The rows of the transports -/

theorem runBus_next {v : Variant} {m : Drv Unit} {s t : State} (hm : s.cfg.variant = v → CheckedRun s (m s))
    (h : runBus v m s = .next t) : Next s t :=
  CheckedRun.next (CheckedRun.check (requireVariant_check v) fun _ hv => CheckedRun.bind (hm (by
    unfold requireVariant at hv
    split at hv
    · assumption
    · simp at hv)) fun _ u _ _ => Ran.pure _ u) h

theorem runBusRead_next {v : Variant} {m : Drv Byte} {s t : State} (hm : s.cfg.variant = v → CheckedRun s (m s))
    (h : runBusRead v m s = .next t) : Next s t :=
  CheckedRun.next (CheckedRun.check (requireVariant_check v) fun _ hv => CheckedRun.bind (hm (by
    unfold requireVariant at hv
    split at hv
    · assumption
    · simp at hv)) fun _ u _ _ => Ran.pure _ u) h

theorem writeBody_ran (w : Cmd) (s : State) : Ran s (writeBody s.cfg.variant w s) :=
  Ran.of_busOp (writeBody_busOp w) fun _ _ k => (writeBody_done w s _ _ rfl k).calm

theorem readBody_ran (rs : Bool) (s : State) : Ran s (readBody s.cfg.variant rs s) :=
  Ran.of_busOp (readBody_busOp rs) fun _ _ k => (readBody_done rs s _ _ rfl k).calm

theorem busWriteP8_checkedRun {s : State} (c : Nat) (hv : s.cfg.variant = .parallel8) : CheckedRun s (busWriteP8 c s) :=
  CheckedRun.check (writeChecks_check c) fun _ _ => .inr (by
    have := writeBody_ran (BitVec.ofNat 10 c) s
    rwa [hv] at this)

theorem busWriteP4_checkedRun {s : State} (c : Nat) (hv : s.cfg.variant = .parallel4) : CheckedRun s (busWriteP4 c s) :=
  CheckedRun.check (writeChecks_check c) fun _ _ => .inr (by
    have := writeBody_ran (BitVec.ofNat 10 c) s
    rwa [hv] at this)

theorem busWriteI2C_checkedRun {s : State} (c : Nat) (hv : s.cfg.variant = .i2cMux4) : CheckedRun s (busWriteI2C c s) :=
  CheckedRun.check (writeChecks_check c) fun _ _ => .inr (by
    have := writeBody_ran (BitVec.ofNat 10 c) s
    rwa [hv] at this)

theorem parRead_checkedRun {s : State} (c : Nat) (hv : s.cfg.variant ≠ .i2cMux4) : CheckedRun s (parRead c s) :=
  CheckedRun.check (readChecks_check c) fun _ _ => .inr (by
    have := readBody_ran (c.testBit 9) s
    cases h : s.cfg.variant with
    | parallel8 => rwa [h] at this
    | parallel4 => rwa [h] at this
    | i2cMux4 => exact absurd h hv)

theorem i2cBusRead_checkedRun {s : State} (c : Nat) (hv : s.cfg.variant = .i2cMux4) : CheckedRun s (i2cBusRead c s) :=
  CheckedRun.check (readChecks_check c) fun _ _ => .inr (by
    have := readBody_ran (c.testBit 9) s
    rwa [hv] at this)

theorem parInit_ran (s : State) : Ran s (parInit s) :=
  Ran.of_busOp parInit_busOp fun _ _ k => (parInit_done s _ _ rfl k).calm

theorem i2cPowerOn_ran (s : State) : Ran s (i2cPowerOn s) :=
  Ran.of_busOp i2cPowerOn_busOp fun _ _ k => (i2cPowerOn_done s _ _ rfl k).calm

/-- With the line, `bus.set_backlight` of a parallel transport is its run (41_transport.md R112). -/
theorem busSetBacklightPar_eq {en : Bool} {s : State} (hv : s.cfg.variant ≠ .i2cMux4) (hc : s.cfg.canBl = true) :
    execBusSetBacklightPar en s = lightRun en s := by
  have e : parSetBacklight en s = blBody s.cfg en { s with bl := en } := by
    rw [← busSetBacklight_eq hc, busSetBacklight, bind_getCfg]
    cases h : s.cfg.variant with
    | parallel8 => rfl
    | parallel4 => rfl
    | i2cMux4 => exact absurd h hv
  have key : ∀ v, s.cfg.variant = v → runBus v (parSetBacklight en) s = lightRun en s := by
    intro v h
    have hr : requireVariant v s = .ok () s := by simp [requireVariant, h]
    unfold lightRun runBus finish
    rw [bind_ok hr, bind_run, bind_run, e]
  unfold execBusSetBacklightPar
  cases h : s.cfg.variant with
  | parallel8 => exact key _ h
  | parallel4 => exact key _ h
  | i2cMux4 => exact absurd h hv

/-- Without the line it is E2 (R112). -/
theorem busSetBacklightPar_unsupported {en : Bool} {s : State} (hv : s.cfg.variant ≠ .i2cMux4)
    (hc : s.cfg.canBl = false) :
    execBusSetBacklightPar en s = .next (raiseError (.e2 .backlightUnsupported) s) := by
  have e : parSetBacklight en s = .error (.error (.e2 .backlightUnsupported)) s := by
    rw [parSetBacklight, bind_getCfg, bind_error (require_false hc _ _)]
  have key : ∀ v, s.cfg.variant = v →
      runBus v (parSetBacklight en) s = .next (raiseError (.e2 .backlightUnsupported) s) := by
    intro v h
    have hr : requireVariant v s = .ok () s := by simp [requireVariant, h]
    exact finish_error (by rw [bind_ok hr, bind_error e])
  unfold execBusSetBacklightPar
  cases h : s.cfg.variant with
  | parallel8 => exact key _ h
  | parallel4 => exact key _ h
  | i2cMux4 => exact absurd h hv

/-- `bus.set_backlight` of I2C-Mux4 is its run (R118). -/
theorem busSetBacklightI2C_eq {en : Bool} {s : State} (hv : s.cfg.variant = .i2cMux4) :
    execBusSetBacklightI2C en s = lightRun en s := by
  have hr : requireVariant .i2cMux4 s = .ok () s := by simp [requireVariant, hv]
  have hc : s.cfg.canBl = true := by simp [Config.canBl, hv]
  have e : i2cSetBacklight en s = blBody s.cfg en { s with bl := en } := by
    rw [← busSetBacklight_eq hc, busSetBacklight, bind_getCfg, hv]
  unfold execBusSetBacklightI2C lightRun runBus finish
  rw [bind_ok hr, bind_run, bind_run, e]

theorem busSetBacklightPar_next {en : Bool} {s t : State} (h : execBusSetBacklightPar en s = .next t) :
    s.cfg.variant ≠ .i2cMux4 ∧
      ((s.cfg.canBl = false ∧ t = raiseError (.e2 .backlightUnsupported) s) ∨
        (s.cfg.canBl = true ∧ lightRun en s = .next t)) := by
  have hv : s.cfg.variant ≠ .i2cMux4 := by
    intro hv
    unfold execBusSetBacklightPar at h
    rw [hv] at h
    simp at h
  refine ⟨hv, ?_⟩
  cases hc : s.cfg.canBl with
  | false => rw [busSetBacklightPar_unsupported hv hc] at h; exact .inl ⟨rfl, by simpa [eq_comm] using h⟩
  | true => exact .inr ⟨rfl, by rw [← busSetBacklightPar_eq hv hc]; exact h⟩

theorem busSetBacklightI2C_next {en : Bool} {s t : State} (h : execBusSetBacklightI2C en s = .next t) :
    s.cfg.variant = .i2cMux4 ∧ lightRun en s = .next t := by
  by_cases hv : s.cfg.variant = .i2cMux4
  · exact ⟨hv, by rw [← busSetBacklightI2C_eq hv]; exact h⟩
  · have hr : requireVariant .i2cMux4 s = .error (.refused (.variantMismatch s.cfg.variant)) s := by
      simp [requireVariant, hv]
    rw [show execBusSetBacklightI2C en s = .refused _ from finish_refused (bind_error hr)] at h
    simp at h

/-! ### init -/

/-- What the parts of `init` leave alone, whether they complete or not. -/
structure InitFrame (s t : State) : Prop where
  cfg : t.cfg = s.cfg
  phase : t.phase = s.phase
  em : t.em = s.em
  dc : t.dc = s.dc
  fs : t.fs = s.fs
  cmap : t.cmap = s.cmap
  reply : t.reply = s.reply
  calls : t.calls = s.calls
  bl : t.bl = s.bl ∨ (t.bl = true ∧ s.cfg.canBl = true)
  addr : s.cfg.variant ≠ .i2cMux4 → t.i2cAddr = s.i2cAddr
  log : s.log <:+ t.log
  now : s.env.now ≤ t.env.now

theorem OnlyBus.initFrame {s t : State} (h : OnlyBus s t) : InitFrame s t where
  cfg := h.cfg
  phase := h.phase
  em := h.em
  dc := h.dc
  fs := h.fs
  cmap := h.cmap
  reply := h.reply
  calls := h.calls
  bl := .inl h.bl
  addr _ := h.i2cAddr
  log := h.log
  now := h.now

theorem InitFrame.trans {s t u : State} (h : InitFrame s t) (k : InitFrame t u) : InitFrame s u where
  cfg := k.cfg.trans h.cfg
  phase := k.phase.trans h.phase
  em := k.em.trans h.em
  dc := k.dc.trans h.dc
  fs := k.fs.trans h.fs
  cmap := k.cmap.trans h.cmap
  reply := k.reply.trans h.reply
  calls := k.calls.trans h.calls
  bl := by
    rcases k.bl with kb | ⟨kb, kc⟩
    · rw [kb]; exact h.bl
    · exact .inr ⟨kb, by rw [← h.cfg]; exact kc⟩
  addr hv := (k.addr (by rw [h.cfg]; exact hv)).trans (h.addr hv)
  log := h.log.trans k.log
  now := Nat.le_trans h.now k.now

/-- A part of `init` as a run: every error it ends in is E3. -/
structure InitRan (s : State) (r : EStateM.Result Stop State α) : Prop where
  frame : InitFrame s (endState r)
  calm : ∀ a t, r = .ok a t → Calm s t
  stops : ∀ e t, r = .error (.error e) t → ∃ i, e = .e3 i

theorem Ran.initRan {s : State} {r : EStateM.Result Stop State α} (h : Ran s r) : InitRan s r where
  frame := h.frame.initFrame
  calm := h.calm
  stops e t k := let ⟨_, hp⟩ := h.stops e t k; ⟨_, hp⟩

theorem InitRan.bind {m : Drv α} {f : α → Drv β} {s : State} (hm : InitRan s (m s))
    (hf : ∀ a t, m s = .ok a t → InitFrame s t → InitRan t (f a t)) : InitRan s ((m >>= f) s) := by
  rw [bind_run]
  cases h : m s with
  | ok a t =>
    have f1 : InitFrame s t := by have := hm.frame; rwa [h] at this
    have k := hf a t h f1
    exact
      { frame := f1.trans k.frame
        calm := fun b u hb => (hm.calm a t h).trans (k.calm b u hb)
        stops := k.stops }
  | error e t =>
    have f1 := hm.frame
    rw [h] at f1
    exact
      { frame := f1
        calm := fun b u hb => by simp at hb
        stops := fun e' u hu => hm.stops e' u (by rw [h]; simpa using hu) }

/-- The frame of a scan with the address written in front. -/
theorem OnlyBus.withAddr {s t : State} {a : Option Addr7} (h : OnlyBus s { t with i2cAddr := s.i2cAddr })
    (ha : t.i2cAddr = a) : OnlyBus { s with i2cAddr := a } t :=
  { h with
    cfg := h.cfg, phase := h.phase, em := h.em, dc := h.dc, fs := h.fs, cmap := h.cmap, bl := h.bl, i2cAddr := ha,
    reply := h.reply, calls := h.calls }

theorem i2cSelect_initRan {s : State} (hv : s.cfg.variant = .i2cMux4) : InitRan s (i2cSelect s) := by
  rcases i2cSelect_cases s with ⟨a, t, env, h, -, f, ht⟩ | ⟨i, t, env, h, f, -⟩ | ⟨t, h, -, f⟩
  · have g := f.withAddr (a := some a) (by rw [ht])
    rw [h]
    refine { frame := ?_, calm := ?_, stops := ?_ }
    · exact
        { cfg := g.cfg, phase := g.phase, em := g.em, dc := g.dc, fs := g.fs, cmap := g.cmap, reply := g.reply,
          calls := g.calls, bl := .inl g.bl, addr := fun h => absurd hv h, log := g.log, now := g.now }
    · intro _ u k
      obtain rfl : t = u := by simpa using k
      rw [ht]
      exact ⟨.inl rfl, fun _ => .inl rfl⟩
    · intro e u k
      simp at k
  · rw [h]
    refine { frame := f.initFrame, calm := by simp, stops := ?_ }
    intro e u k
    obtain ⟨rfl, -⟩ : Error.e3 i = e ∧ t = u := by simpa using k
    exact ⟨_, rfl⟩
  · rw [h]
    refine { frame := f.initFrame, calm := by simp, stops := ?_ }
    intro e u k
    obtain ⟨rfl, -⟩ : _ = e ∧ t = u := by simpa using k
    exact ⟨_, rfl⟩

theorem busInit_initRan (s : State) : InitRan s (busInit s) := by
  rw [busInit, bind_getCfg]
  cases hv : s.cfg.variant with
  | parallel8 => exact (parInit_ran s).initRan
  | parallel4 => exact (parInit_ran s).initRan
  | i2cMux4 => exact InitRan.bind (i2cSelect_initRan hv) fun _ t _ _ => (i2cPowerOn_ran t).initRan

/-- After a completed `bus.init` of I2C-Mux4 there is an address. -/
theorem busInit_addr {s t : State} {u : Unit} (hv : s.cfg.variant = .i2cMux4) (h : busInit s = .ok u t) :
    t.i2cAddr ≠ none := by
  rw [busInit, bind_getCfg, hv] at h
  obtain ⟨_, x, h1, h2⟩ := bind_eq_ok.mp h
  have f : OnlyBus x t := by
    have := (i2cPowerOn_ran x).frame
    rwa [show i2cPowerOn x = .ok u t from h2] at this
  rw [f.i2cAddr]
  rcases i2cSelect_cases s with ⟨a, t', env, k, -, -, ht⟩ | ⟨i, t', env, k, -⟩ | ⟨t', k, -⟩ <;> rw [k] at h1
  · obtain rfl : t' = x := by simpa using h1
    rw [ht]
    simp
  · simp at h1
  · simp at h1

theorem busSetBacklight_initRan {s : State} (hc : s.cfg.canBl = true) : InitRan s (busSetBacklight true s) := by
  rw [busSetBacklight_eq hc]
  have k := blBody_ran true { s with bl := true }
  exact
    { frame := { k.frame.initFrame with
        cfg := k.frame.cfg, phase := k.frame.phase, em := k.frame.em, dc := k.frame.dc, fs := k.frame.fs,
        cmap := k.frame.cmap, reply := k.frame.reply, calls := k.frame.calls, addr := fun _ => k.frame.i2cAddr,
        bl := .inr ⟨k.frame.bl, hc⟩ }
      calm := fun a t h => ⟨(k.calm a t h).e, (k.calm a t h).dir⟩
      stops := fun e t h => (k.initRan).stops e t h }

/-- The state in which `init` calls `bus.init` (70_reset_and_hazards.md R192). -/
def initStart (s : State) : State :=
  { s with phase := .initializing, em := emDefault, dc := dcDefault, fs := fsDefault s.cfg }

/-- The words, the backlight and the end of `init`. -/
def initTail (s : State) : Drv Value := do
  issueAll (initWords s)
  onlyIf s.cfg.canBl (busSetBacklight true)
  setPhase .ready
  pure .nothing

theorem initSteps_eq (s : State) : initSteps s = (busInit >>= fun _ => get >>= initTail) (initStart s) := rfl

theorem emDefault_rw : emDefault.rw = false := by decide

theorem dcDefault_rw : dcDefault.rw = false := by decide

theorem initWords_start {s t : State} (h : InitFrame (initStart s) t) : AllWrites (initWords t) :=
  initWords_writes (by rw [h.em]; exact emDefault_rw) (by rw [h.dc]; exact dcDefault_rw) (by rw [h.fs]; exact (fsDefault_facts s.cfg).1)

theorem issueAll_initRan {s : State} (h : AllWrites (initWords s)) : InitRan s (issueAll (initWords s) s) :=
  (issueAll_ran h).initRan

/-- The bus activity of `init`: `bus.init`, the words, the backlight. -/
def initBody : Drv Unit :=
  busInit >>= fun _ => get >>= fun s => issueAll (initWords s) >>= fun _ => onlyIf s.cfg.canBl (busSetBacklight true)

/-- How `init` ends, by how its bus activity ends (70_reset_and_hazards.md R192, R201, R202). -/
def initOutcome : EStateM.Result Stop State Unit → Host.Outcome State Fault Refusal
  | .ok _ u => .next (returnValue .nothing { u with phase := .ready })
  | .error (.error e) u => .next (raiseError e { u with phase := .failed })
  | .error (.fault f) _ => .fault f
  | .error (.refused r) _ => .refused r

theorem execInit_eq {s : State} (hp : s.phase ≠ .failed) : execInit s = initOutcome (initBody (initStart s)) := by
  have e : execInit s = finish (failOnError initSteps) s := by
    unfold execInit finish
    rw [bind_ok (phaseCheckLive_live hp)]
  have hsteps : initSteps s = match initBody (initStart s) with
      | .ok _ u => .ok .nothing { u with phase := .ready }
      | .error e u => .error e u := by
    rw [initSteps_eq]
    simp only [initBody, bind_run, initTail, get_run]
    cases busInit (initStart s) with
    | error e u => rfl
    | ok _ u =>
      simp only []
      cases issueAll (initWords u) u with
      | error e v => rfl
      | ok _ v =>
        simp only []
        cases onlyIf u.cfg.canBl (busSetBacklight true) v <;> rfl
  rw [e]
  unfold finish failOnError
  rw [hsteps]
  cases initBody (initStart s) with
  | ok _ u => rfl
  | error e u => cases e <;> rfl

theorem execInit_failed {s : State} (hp : s.phase = .failed) : execInit s = .fault .useAfterFailure :=
  finish_fault (bind_error (phaseCheckLive_failed hp))

/-- The next states of `init` (70_reset_and_hazards.md R192, R202): `t` has the frame of `init` from its start, but for the phase
and the reply, and it completed or ended in E3. -/
theorem init_next {s t : State} (h : execInit s = .next t) :
    s.phase ≠ .failed ∧
      InitFrame (initStart s) { t with phase := .initializing, reply := s.reply } ∧
      ((t.reply = .returned .nothing ∧ t.phase = .ready ∧ Calm s t ∧
          (s.cfg.variant = .i2cMux4 → t.i2cAddr ≠ none)) ∨
        (∃ i, t.reply = .error (.e3 i) ∧ t.phase = .failed)) := by
  by_cases hp : s.phase = .failed
  · rw [execInit_failed hp] at h
    simp at h
  refine ⟨hp, ?_⟩
  rw [execInit_eq hp] at h
  have hpre : InitRan (initStart s) (initBody (initStart s)) := InitRan.bind (busInit_initRan _) fun _ u _ f => by
    rw [bind_get]
    exact InitRan.bind (issueAll_initRan (initWords_start f)) fun _ v _ g => by
      cases hc : u.cfg.canBl with
      | true => exact busSetBacklight_initRan (by rw [g.cfg]; exact hc)
      | false => exact (Ran.pure () v).initRan
  cases hr : initBody (initStart s) with
  | ok _ u =>
    rw [hr] at h
    have f : InitFrame (initStart s) u := by have := hpre.frame; rwa [hr] at this
    have c := hpre.calm _ _ hr
    obtain rfl : returnValue .nothing { u with phase := .ready } = t := by simpa [initOutcome] using h
    refine ⟨?_, .inl ⟨rfl, rfl, ⟨c.e, c.dir⟩, fun hv => ?_⟩⟩
    · exact { f with
        cfg := f.cfg, phase := rfl, em := f.em, dc := f.dc, fs := f.fs, cmap := f.cmap, reply := rfl, calls := f.calls,
        bl := f.bl, addr := f.addr }
    · obtain ⟨_, x, h1, h2⟩ := bind_eq_ok.mp hr
      have ha := busInit_addr (s := initStart s) hv h1
      have f1 : InitFrame (initStart s) x := by have := (busInit_initRan (initStart s)).frame; rwa [h1] at this
      rw [bind_get] at h2
      obtain ⟨_, y, h3, h4⟩ := bind_eq_ok.mp h2
      have f3 : OnlyBus x y := by
        have := (issueAll_ran (s := x) (initWords_start f1)).frame
        rwa [h3] at this
      have f4 : y.i2cAddr = u.i2cAddr := by
        cases hc : x.cfg.canBl with
        | true =>
          rw [hc, onlyIf_true, busSetBacklight_eq (by rw [f3.cfg]; exact hc)] at h4
          have := (blBody_ran true { y with bl := true }).frame
          rw [show blBody y.cfg true { y with bl := true } = _ from h4] at this
          exact this.i2cAddr.symm
        | false =>
          rw [hc, onlyIf_false] at h4
          obtain rfl : y = u := by simpa using h4
          rfl
      show u.i2cAddr ≠ none
      rw [← f4, f3.i2cAddr]
      exact ha
  | error e u =>
    rw [hr] at h
    have f : InitFrame (initStart s) u := by have := hpre.frame; rwa [hr] at this
    cases e with
    | fault g => simp [initOutcome] at h
    | refused g => simp [initOutcome] at h
    | error g =>
      obtain ⟨i, rfl⟩ := hpre.stops g u hr
      obtain rfl : raiseError (.e3 i) { u with phase := .failed } = t := by simpa [initOutcome] using h
      refine ⟨?_, .inr ⟨i, rfl, rfl⟩⟩
      exact { f with
        cfg := f.cfg, phase := rfl, em := f.em, dc := f.dc, fs := f.fs, cmap := f.cmap, reply := rfl, calls := f.calls,
        bl := f.bl, addr := f.addr }

/-- The next states of `bus.init` of I2C-Mux4. -/
theorem busInitI2C_next {s t : State} (h : execBusInitI2C s = .next t) :
    s.cfg.variant = .i2cMux4 ∧
      ((∃ i u, OnlyBus s u ∧ Calm s u ∧ t = raiseError (.e3 i) u) ∨
        (∃ a, NextRan { s with i2cAddr := some a } t) ∨
        (∃ i u, OnlyBus s u ∧ t = raiseError (.e3 i) u)) := by
  unfold execBusInitI2C at h
  by_cases hv : s.cfg.variant = .i2cMux4
  · refine ⟨hv, ?_⟩
    have hr : requireVariant .i2cMux4 s = .ok () s := by simp [requireVariant, hv]
    have e : runBus .i2cMux4 i2cInit s = finish (do
        i2cInit
        pure .nothing) s := by
      unfold runBus finish
      rw [bind_ok hr]
    rw [e] at h
    rcases i2cSelect_cases s with ⟨a, x, env, k, -, f, hx⟩ | ⟨i, x, env, k, f, -, hx, -⟩ | ⟨x, k, -, f⟩
    · have g := f.withAddr (a := some a) (by rw [hx])
      have e2 : (do
          i2cInit
          pure Value.nothing : Drv Value) s = (do
          i2cPowerOn
          pure Value.nothing : Drv Value) x := by
        rw [bind_run, bind_run, show i2cInit s = i2cPowerOn x from bind_ok k]
      have r := (Ran.bind (f := fun _ => (pure Value.nothing : Drv Value)) (i2cPowerOn_ran x) fun _ u _ _ =>
        Ran.pure Value.nothing u)
      have h' : finish (do
          i2cPowerOn
          pure .nothing) x = .next t := by
        rw [← h]
        unfold finish
        rw [e2]
      refine .inr (.inl ⟨a, ?_⟩)
      rcases r.nextRan h' with ⟨v, u, f2, c, ht⟩ | ⟨p, u, f2, ht⟩
      · exact .returned v u (g.trans f2) (Calm.trans (t := x) (by rw [hx]; exact ⟨.inl rfl, fun _ => .inl rfl⟩) c) ht
      · exact .failed p u (g.trans f2) ht
    · rw [show finish (do
          i2cInit
          pure .nothing) s = .next (raiseError (.e3 _) x) from
        finish_error (bind_error (show i2cInit s = _ from bind_error k))] at h
      refine .inl ⟨i, x, f, by rw [hx]; exact ⟨.inl rfl, fun _ => .inl rfl⟩, by simpa [eq_comm] using h⟩
    · rw [show finish (do
          i2cInit
          pure .nothing) s = .next (raiseError (.e3 _) x) from
        finish_error (bind_error (show i2cInit s = _ from bind_error k))] at h
      exact .inr (.inr ⟨_, x, f, by simpa [eq_comm] using h⟩)
  · have hr : requireVariant .i2cMux4 s = .error (.refused (.variantMismatch s.cfg.variant)) s := by
      simp [requireVariant, hv]
    rw [show runBus .i2cMux4 i2cInit s = .refused _ from finish_refused (bind_error hr)] at h
    simp at h

end Sys2Proof.Machine
end

