-- ==== Sys2Proof/Laws/Exec.lean ====
section
/-! SUPPORT. What `exec` can do, for all instructions at once: beside `init` and `bus.init` of I2C-Mux4 (Laws/Transport), an
instruction writes at most one register of its own and then is stopped by a check or runs on the bus. -/

namespace Sys2Proof.Machine

open Sys2Proof

/-- The flag function of a mutator of `EM` (45_flags.md R163 to R166). -/
def emFunction : Instr → Option (Cmd → Cmd)
  | .setAutoscrollOn => some flagAutoscrollOn
  | .setAutoscrollOff => some flagAutoscrollOff
  | .setLeftToRight => some flagLeftToRight
  | .setRightToLeft => some flagRightToLeft
  | _ => none

/-- The flag function of a mutator of `DC` (45_flags.md R161, R162, R167). -/
def dcFunction : Instr → Option (Cmd → Cmd)
  | .setDisplayOn => some flagDisplayOn
  | .setDisplayOff => some flagDisplayOff
  | .setCursorType (.known c) => some (flagCursorType c)
  | _ => none

/-- The flag a backlight operation sets (45_flags.md R168, R169; 41_transport.md R112, R118). -/
def blFunction : Instr → Option Bool
  | .setBacklightOn => some true
  | .setBacklightOff => some false
  | .busSetBacklightPar en => some en
  | .busSetBacklightI2C en => some en
  | _ => none

/-- How an instruction other than `init` and `bus.init` of I2C-Mux4 gets from `s` to a next state `t`. -/
inductive Effect (i : Instr) (s t : State) : Prop where
  | plain (h : Next s t) (hm : ∀ ch code, i ≠ .mapCharacter ch code) (hu : ∀ ch, i ≠ .unmapCharacter ch)
  | em {f : Cmd → Cmd} (hf : emFunction i = some f) (h : Next { s with em := f s.em } t)
      (hr : (f s.em).rw = false → NextRan { s with em := f s.em } t)
  | dc {f : Cmd → Cmd} (hf : dcFunction i = some f) (h : Next { s with dc := f s.dc } t)
      (hr : (f s.dc).rw = false → NextRan { s with dc := f s.dc } t)
  | bl {en : Bool} (hf : blFunction i = some en) (hc : s.cfg.canBl = true) (h : NextRan { s with bl := en } t)
  | map {ch : Nat} {code : Int} (hi : i = .mapCharacter ch code)
      (h : t = { s with cmap := s.cmap.put ch (BitVec.ofNat 8 code.toNat), reply := .returned .nothing } ∨
        t = { s with reply := .error (.e1 (.characterCodeOutOfRange code)) })
  | unmap {ch : Nat} (hi : i = .unmapCharacter ch)
      (h : t = { s with cmap := s.cmap.del ch, reply := .returned .nothing } ∨
        t = { s with reply := .returned .nothing } ∨ t = { s with reply := .error (.e1 (.notMapped ch)) })

theorem mapCharacter_effect {ch : Nat} {code : Int} {s t : State} (h : execMapCharacter ch code s = .next t) :
    Effect (.mapCharacter ch code) s t := by
  refine .map rfl ?_
  unfold execMapCharacter at h
  by_cases hp : s.phase = .failed
  · rw [finish_fault (bind_error (phaseCheckLive_failed hp))] at h
    simp at h
  · cases hc : codeInRange code with
    | true =>
      rw [finish_ok (v := .nothing) (t := { s with cmap := s.cmap.put ch (BitVec.ofNat 8 code.toNat) }) (by
        rw [bind_ok (phaseCheckLive_live hp), bind_ok (require_true hc _ _)]
        rfl)] at h
      exact .inl (by simpa [returnValue, eq_comm] using h)
    | false =>
      rw [finish_error (e := .e1 (.characterCodeOutOfRange code)) (t := s) (by
        rw [bind_ok (phaseCheckLive_live hp), bind_error (require_false hc _ _)])] at h
      exact .inr (by simpa [raiseError, phaseAfter, eq_comm] using h)

theorem unmapCharacter_effect {ch : Nat} {s t : State} (h : execUnmapCharacter ch s = .next t) :
    Effect (.unmapCharacter ch) s t := by
  refine .unmap rfl ?_
  unfold execUnmapCharacter at h
  by_cases hp : s.phase = .failed
  · rw [finish_fault (bind_error (phaseCheckLive_failed hp))] at h
    simp at h
  · have e : unmapKey ch s = .ok () { s with cmap := s.cmap.del ch } ∨ unmapKey ch s = .ok () s ∨
        unmapKey ch s = .error (.error (.e1 (.notMapped ch))) s := by
      unfold unmapKey
      split
      · exact .inl rfl
      · split
        · exact .inr (.inr rfl)
        · exact .inr (.inl rfl)
    rcases e with e | e | e
    · rw [finish_ok (v := .nothing) (t := { s with cmap := s.cmap.del ch }) (by
        rw [bind_ok (phaseCheckLive_live hp), bind_ok e]
        rfl)] at h
      exact .inl (by simpa [returnValue, eq_comm] using h)
    · rw [finish_ok (v := .nothing) (t := s) (by
        rw [bind_ok (phaseCheckLive_live hp), bind_ok e]
        rfl)] at h
      exact .inr (.inl (by simpa [returnValue, eq_comm] using h))
    · rw [finish_error (e := .e1 (.notMapped ch)) (t := s) (by
        rw [bind_ok (phaseCheckLive_live hp), bind_error e])] at h
      exact .inr (.inr (by simpa [raiseError, phaseAfter, eq_comm] using h))

/-- `set_cursor_type` of a legal value is its mutation (45_flags.md R167). -/
theorem setCursorType_known (c : CursorType) (s : State) :
    finish (setCursorTypeOp (.known c)) s = finish (mutate .dc (flagCursorType c)) s := by
  cases hp : phaseCheckReady s with
  | ok _ u =>
    obtain rfl : s = u := (phaseCheckReady_ok hp).1.symm
    unfold finish setCursorTypeOp
    rw [bind_ok hp]
  | error e u =>
    obtain ⟨-, f, rfl⟩ := phaseCheckReady_error hp
    rw [show finish (setCursorTypeOp (.known c)) s = .fault f from finish_fault (bind_error hp),
      show finish (mutate .dc (flagCursorType c)) s = .fault f from finish_fault (bind_error hp)]

/-- Every instruction but `init` and `bus.init` of I2C-Mux4, at once. -/
theorem exec_effect {i : Instr} {s t : State} (hi : i ≠ .init) (hb : i ≠ .busInitI2C) (h : exec i s = .next t) :
    Effect i s t := by
  have word : ∀ c, runWord c s = .next t → (∀ ch code, i ≠ .mapCharacter ch code) → (∀ ch, i ≠ .unmapCharacter ch) →
      Effect i s t := fun c h => .plain (runWord_next h)
  have light : ∀ en, blFunction i = some en → (∀ ch code, i ≠ .mapCharacter ch code) → (∀ ch, i ≠ .unmapCharacter ch) →
      (s.cfg.canBl = false ∧ t = raiseError (.e2 .backlightUnsupported) s) ∨
        (s.cfg.canBl = true ∧ lightRun en s = .next t) → Effect i s t := by
    rintro en hf hm hu (⟨-, ht⟩ | ⟨hc, hr⟩)
    · exact .plain (.rejected _ (by simp) ht) hm hu
    · exact .bl hf hc (lightRun_next hr)
  cases i with
  | init => exact absurd rfl hi
  | busInitI2C => exact absurd rfl hb
  | mapCharacter ch code => exact mapCharacter_effect h
  | unmapCharacter ch => exact unmapCharacter_effect h
  | clear => exact word _ h (by simp) (by simp)
  | home x => exact word _ h (by simp) (by simp)
  | entry a b => exact word _ h (by simp) (by simp)
  | dispctl a b c => exact word _ h (by simp) (by simp)
  | shift a b x => exact word _ h (by simp) (by simp)
  | funcset a b c x => exact word _ h (by simp) (by simp)
  | setcg a => exact word _ h (by simp) (by simp)
  | setdd a => exact word _ h (by simp) (by simp)
  | rdbf x => exact word _ h (by simp) (by simp)
  | wrdata v => exact word _ h (by simp) (by simp)
  | rddata x => exact word _ h (by simp) (by simp)
  | noneWord => exact word _ h (by simp) (by simp)
  | setCursorPosition c l => exact .plain (setCursorPosition_next h) (by simp) (by simp)
  | getCursorPosition => exact .plain (getCursorPosition_next h) (by simp) (by simp)
  | moveCursorLeft => exact .plain (moveCursor_next h) (by simp) (by simp)
  | moveCursorRight => exact .plain (moveCursor_next h) (by simp) (by simp)
  | scrollDisplayLeft => exact .plain (scrollDisplay_next h) (by simp) (by simp)
  | scrollDisplayRight => exact .plain (scrollDisplay_next h) (by simp) (by simp)
  | createCharacter c r => exact .plain (createCharacter_next h) (by simp) (by simp)
  | writeText c l x => exact .plain (writeText_next h) (by simp) (by simp)
  | writeCode c l k => exact .plain (writeCodes_next h) (by simp) (by simp)
  | writeCodes c l k => exact .plain (writeCodes_next h) (by simp) (by simp)
  | readCode c l => exact .plain (readCode_next h) (by simp) (by simp)
  | executeCommand c => exact .plain (executeCommand_next h) (by simp) (by simp)
  | isCommandSupported c => exact .plain (isCommandSupported_next h) (by simp) (by simp)
  | setDisplayOn => exact .dc rfl (mutate_next (r := .dc) h) (mutate_nextRan (r := .dc) h)
  | setDisplayOff => exact .dc rfl (mutate_next (r := .dc) h) (mutate_nextRan (r := .dc) h)
  | setAutoscrollOn => exact .em rfl (mutate_next (r := .em) h) (mutate_nextRan (r := .em) h)
  | setAutoscrollOff => exact .em rfl (mutate_next (r := .em) h) (mutate_nextRan (r := .em) h)
  | setLeftToRight => exact .em rfl (mutate_next (r := .em) h) (mutate_nextRan (r := .em) h)
  | setRightToLeft => exact .em rfl (mutate_next (r := .em) h) (mutate_nextRan (r := .em) h)
  | setCursorType a =>
    cases a with
    | known c =>
      have h' : finish (mutate .dc (flagCursorType c)) s = .next t := (setCursorType_known c s).symm.trans h
      exact .dc rfl (mutate_next (r := .dc) h') (mutate_nextRan (r := .dc) h')
    | other tag =>
      refine .plain (CheckedRun.next (m := setCursorTypeOp (.other tag)) (CheckedRun.check phaseCheckReady_check fun _ _ =>
        CheckedRun.check (Check.require (by simp)) fun _ hr => absurd (require_ok.mp hr).1 (by simp)) h) (by simp) (by simp)
  | setBacklightOn => exact light true rfl (by simp) (by simp) (backlightOp_next h)
  | setBacklightOff => exact light false rfl (by simp) (by simp) (backlightOp_next h)
  | busSetBacklightPar en => exact light en rfl (by simp) (by simp) (busSetBacklightPar_next h).2
  | busSetBacklightI2C en =>
    have ⟨hv, hr⟩ := busSetBacklightI2C_next h
    exact .bl rfl (by simp [Config.canBl, hv]) (lightRun_next hr)
  | busWriteP8 c => exact .plain (runBus_next (busWriteP8_checkedRun c) h) (by simp) (by simp)
  | busWriteP4 c => exact .plain (runBus_next (busWriteP4_checkedRun c) h) (by simp) (by simp)
  | busWriteI2C c => exact .plain (runBus_next (busWriteI2C_checkedRun c) h) (by simp) (by simp)
  | busReadP8 c => exact .plain (runBusRead_next (fun hv => parRead_checkedRun c (by simp [hv])) h) (by simp) (by simp)
  | busReadP4 c => exact .plain (runBusRead_next (fun hv => parRead_checkedRun c (by simp [hv])) h) (by simp) (by simp)
  | busReadI2C c => exact .plain (runBusRead_next (fun hv => i2cBusRead_checkedRun c hv) h) (by simp) (by simp)
  | busInitP8 => exact .plain (runBus_next (fun _ => .inr (parInit_ran s)) h) (by simp) (by simp)
  | busInitP4 => exact .plain (runBus_next (fun _ => .inr (parInit_ran s)) h) (by simp) (by simp)

/-- What a step that answers a next state did: nothing, with no call pending, or `exec` of the well-typed instruction of the
oldest call, with that call taken. -/
theorem step_cases {s t : State} (h : step s = .next t) :
    (s.calls = [] ∧ t = s) ∨
      ∃ c rest i, s.calls = c :: rest ∧ fetch c = .run i ∧ i.wf = true ∧ exec i { s with calls := rest } = .next t := by
  unfold step at h
  split at h
  · next hc => exact .inl ⟨hc, (Host.Outcome.next.inj h).symm⟩
  · next c rest hc =>
    split at h
    · next i hf => exact .inr ⟨c, rest, i, hc, hf, (fetch_run hf).2, h⟩
    · simp at h
    · simp at h

end Sys2Proof.Machine
end

