-- ==== Sys2Proof/Laws/PerInstr.lean ====
section
/-! SUPPORT. The statements made per instruction, one lemma for each constructor of `Instr`. -/

namespace Sys2Proof.Laws.CommandWord

open Sys2Proof Sys2Proof.Machine

/-- An instruction with a command word is no public operation, its operands are well typed, and exactly one command-word row of
the opcode table covers its word (30_encoding.md R64, R65; 60_exceptions.md R182, R184). -/
def Statement (i : Instr) : Prop :=
  ∀ c, encode i = some c → isPublic i = false ∧ i.wf = true ∧ (opcodeRows.filter (·.covers c)).length = 1

/-- An instruction with a command word. -/
theorem of_rows {i : Instr} (hp : isPublic i = false) (hw : i.wf = true)
    (h : ∀ c, encode i = some c → (opcodeRows.filter (·.covers c)).length = 1) : Statement i :=
  fun c hc => ⟨hp, hw, h c hc⟩

/-- Every word is covered by exactly one row. -/
theorem one_row : ∀ c : Cmd, (opcodeRows.filter (·.covers c)).length = 1 := by decide +kernel

/-- An instruction without a command word. -/
theorem of_none {i : Instr} (h : encode i = none) : Statement i := by
  intro c hc
  rw [h] at hc
  simp at hc

theorem clear : Statement .clear := of_rows rfl rfl fun _ _ => one_row _
theorem home (x : Bool) : Statement (.home x) := of_rows rfl rfl fun _ _ => one_row _
theorem entry (id sh : Bool) : Statement (.entry id sh) := of_rows rfl rfl fun _ _ => one_row _
theorem dispctl (d c b : Bool) : Statement (.dispctl d c b) := of_rows rfl rfl fun _ _ => one_row _
theorem shift (sc rl : Bool) (x : BitVec 2) : Statement (.shift sc rl x) := of_rows rfl rfl fun _ _ => one_row _
theorem funcset (dl n f : Bool) (x : BitVec 2) : Statement (.funcset dl n f x) := of_rows rfl rfl fun _ _ => one_row _
theorem setcg (a : BitVec 6) : Statement (.setcg a) := of_rows rfl rfl fun _ _ => one_row _
theorem setdd (a : BitVec 7) : Statement (.setdd a) := of_rows rfl rfl fun _ _ => one_row _
theorem rdbf (x : Byte) : Statement (.rdbf x) := of_rows rfl rfl fun _ _ => one_row _
theorem wrdata (v : Byte) : Statement (.wrdata v) := of_rows rfl rfl fun _ _ => one_row _
theorem rddata (x : Byte) : Statement (.rddata x) := of_rows rfl rfl fun _ _ => one_row _
theorem noneWord : Statement .noneWord := of_rows rfl rfl fun _ _ => one_row _
theorem setCursorPosition (col line : Nat) : Statement (.setCursorPosition col line) := of_none rfl
theorem getCursorPosition : Statement .getCursorPosition := of_none rfl
theorem moveCursorLeft : Statement .moveCursorLeft := of_none rfl
theorem moveCursorRight : Statement .moveCursorRight := of_none rfl
theorem scrollDisplayLeft : Statement .scrollDisplayLeft := of_none rfl
theorem scrollDisplayRight : Statement .scrollDisplayRight := of_none rfl
theorem createCharacter (code : Nat) (rows : List Nat) : Statement (.createCharacter code rows) := of_none rfl
theorem mapCharacter (ch : Nat) (code : Int) : Statement (.mapCharacter ch code) := of_none rfl
theorem unmapCharacter (ch : Nat) : Statement (.unmapCharacter ch) := of_none rfl
theorem writeText (col line : Nat) (text : List Nat) : Statement (.writeText col line text) := of_none rfl
theorem writeCode (col line : Nat) (code : Int) : Statement (.writeCode col line code) := of_none rfl
theorem writeCodes (col line : Nat) (codes : List Int) : Statement (.writeCodes col line codes) := of_none rfl
theorem readCode (col line : Nat) : Statement (.readCode col line) := of_none rfl
theorem setDisplayOn : Statement .setDisplayOn := of_none rfl
theorem setDisplayOff : Statement .setDisplayOff := of_none rfl
theorem setAutoscrollOn : Statement .setAutoscrollOn := of_none rfl
theorem setAutoscrollOff : Statement .setAutoscrollOff := of_none rfl
theorem setLeftToRight : Statement .setLeftToRight := of_none rfl
theorem setRightToLeft : Statement .setRightToLeft := of_none rfl
theorem setCursorType (t : CursorArg) : Statement (.setCursorType t) := of_none rfl
theorem setBacklightOn : Statement .setBacklightOn := of_none rfl
theorem setBacklightOff : Statement .setBacklightOff := of_none rfl
theorem init : Statement .init := of_none rfl
theorem executeCommand (c : Nat) : Statement (.executeCommand c) := of_none rfl
theorem isCommandSupported (c : Nat) : Statement (.isCommandSupported c) := of_none rfl
theorem busWriteP8 (c : Nat) : Statement (.busWriteP8 c) := of_none rfl
theorem busWriteP4 (c : Nat) : Statement (.busWriteP4 c) := of_none rfl
theorem busWriteI2C (c : Nat) : Statement (.busWriteI2C c) := of_none rfl
theorem busReadP8 (c : Nat) : Statement (.busReadP8 c) := of_none rfl
theorem busReadP4 (c : Nat) : Statement (.busReadP4 c) := of_none rfl
theorem busReadI2C (c : Nat) : Statement (.busReadI2C c) := of_none rfl
theorem busSetBacklightPar (en : Bool) : Statement (.busSetBacklightPar en) := of_none rfl
theorem busSetBacklightI2C (en : Bool) : Statement (.busSetBacklightI2C en) := of_none rfl
theorem busInitP8 : Statement .busInitP8 := of_none rfl
theorem busInitP4 : Statement .busInitP4 := of_none rfl
theorem busInitI2C : Statement .busInitI2C := of_none rfl

end Sys2Proof.Laws.CommandWord
end

