-- ==== Sys2Proof/Laws/Trace.lean ====
section
/-! SUPPORT. Which events an instruction can append to the trace, for all instructions at once, and that a platform failure is the
last of them. -/

namespace Sys2Proof.Machine

open Sys2Proof

variable {α β : Type} {P : Event → Prop}

/-- From `s` the run `r` appended events that satisfy `P`; an E3 it ended in is a platform failure, recorded last. -/
structure Logged (P : Event → Prop) (s : State) (r : EStateM.Result Stop State α) : Prop where
  cfg : (endState r).cfg = s.cfg
  i2cAddr : (endState r).i2cAddr = s.i2cAddr
  bl : (endState r).bl = s.bl
  log : ∃ evs, (endState r).log = evs ++ s.log ∧ ∀ e ∈ evs, P e
  fail : ∀ e t, r = .error (.error e) t →
    (∀ i, e ≠ .e3 i) ∨
      ∃ p evs, e = .e3 (.platformError p) ∧ s.cfg.platformFaults = true ∧ t.log = .platformFail p :: (evs ++ s.log)

theorem Logs.logged {m : Drv α} {s : State} (h : Logs P s.cfg s.i2cAddr s.bl m) : Logged P s (m s) where
  cfg := (h.keep s rfl rfl rfl).1
  i2cAddr := (h.keep s rfl rfl rfl).2.1
  bl := (h.keep s rfl rfl rfl).2.2
  log := h.log s rfl rfl rfl
  fail e t k := .inr (h.fail s e t rfl rfl rfl k)

theorem Logged.pure (a : α) (s : State) : Logged P s ((pure a : Drv α) s) where
  cfg := rfl
  i2cAddr := rfl
  bl := rfl
  log := ⟨[], rfl, by simp⟩
  fail e t h := by simp at h

theorem Logged.bind {m : Drv α} {f : α → Drv β} {s : State} (hm : Logged P s (m s))
    (hf : ∀ a t, m s = .ok a t → t.cfg = s.cfg → t.i2cAddr = s.i2cAddr → t.bl = s.bl → Logged P t (f a t)) :
    Logged P s ((m >>= f) s) := by
  rw [bind_run]
  cases h : m s with
  | ok a t =>
    rw [h] at hm
    have k := hf a t h hm.cfg hm.i2cAddr hm.bl
    refine ⟨k.cfg.trans hm.cfg, k.i2cAddr.trans hm.i2cAddr, k.bl.trans hm.bl, ?_, ?_⟩
    · obtain ⟨e1, h1, p1⟩ := hm.log
      obtain ⟨e2, h2, p2⟩ := k.log
      refine ⟨e2 ++ e1, ?_, ?_⟩
      · show (endState (f a t)).log = _
        rw [h2, show t.log = _ from h1, List.append_assoc]
      · intro e he
        rcases List.mem_append.mp he with he | he
        · exact p2 e he
        · exact p1 e he
    · intro e u hu
      obtain ⟨e1, h1, -⟩ := hm.log
      rcases k.fail e u hu with hn | ⟨p, evs, he, hc, hl⟩
      · exact .inl hn
      · refine .inr ⟨p, evs ++ e1, he, ?_, ?_⟩
        · rw [← show t.cfg = s.cfg from hm.cfg]; exact hc
        · rw [hl, show t.log = _ from h1, List.append_assoc]
  | error e t =>
    rw [h] at hm
    exact ⟨hm.cfg, hm.i2cAddr, hm.bl, hm.log, fun e' u hu => hm.fail e' u (by simpa using hu)⟩

theorem Logged.check {m : Drv α} {f : α → Drv β} {s : State} (hm : Check m)
    (hf : ∀ a, m s = .ok a s → Logged P s (f a s)) : Logged P s ((m >>= f) s) := by
  rcases hm s with ⟨a, h⟩ | ⟨e, h, he⟩
  · rw [bind_ok h]
    exact hf a h
  · rw [bind_error h]
    exact ⟨rfl, rfl, rfl, ⟨[], rfl, by simp⟩, fun e' t k => .inl fun i hi => he i (by
      obtain ⟨rfl, -⟩ : e = .error e' ∧ s = t := by simpa using k
      rw [hi])⟩

theorem Logged.ofCheck {m : Drv α} (h : Check m) (s : State) : Logged P s (m s) := by
  rcases h s with ⟨a, k⟩ | ⟨e, k, he⟩
  · rw [k]
    exact Logged.pure a s
  · rw [k]
    exact ⟨rfl, rfl, rfl, ⟨[], rfl, by simp⟩, fun e' t k => .inl fun i hi => he i (by
      obtain ⟨rfl, -⟩ : e = .error e' ∧ s = t := by simpa using k
      rw [hi])⟩

/-- What an operation that ended in the next state `t` appended. -/
structure Appended (P : Event → Prop) (s t : State) : Prop where
  log : ∃ evs, t.log = evs ++ s.log ∧ ∀ e ∈ evs, P e
  fail : ∀ p, t.reply = .error (.e3 (.platformError p)) →
    s.cfg.platformFaults = true ∧ ∃ evs, t.log = .platformFail p :: (evs ++ s.log)

theorem Appended.trace {s t : State} (h : Appended P s t) : ∃ evs, t.trace = s.trace ++ evs ∧ ∀ e ∈ evs, P e := by
  obtain ⟨evs, hl, hp⟩ := h.log
  exact ⟨evs.reverse, by simp [State.trace, hl], by simpa using hp⟩

theorem Logged.appended {m : Drv Value} {s t : State} (h : Logged P s (m s)) (k : finish m s = .next t) :
    Appended P s t := by
  rcases finish_next k with ⟨v, u, hu, rfl⟩ | ⟨e, u, hu, rfl⟩
  · rw [hu] at h
    exact ⟨h.log, by simp [returnValue]⟩
  · refine ⟨by rw [hu] at h; exact h.log, fun p hp => ?_⟩
    obtain rfl : e = .e3 (.platformError p) := by simpa [raiseError] using hp
    rcases h.fail _ u hu with hn | ⟨q, evs, hq, hc, hl⟩
    · exact absurd rfl (hn _)
    · obtain rfl : p = q := by simpa using hq
      exact ⟨hc, evs, hl⟩

/-! ### The operations -/

section Operations

variable {s : State} (hW : WriteEventsOk P s.cfg s.i2cAddr s.bl)
  (hR : s.cfg.canRead = true → ReadEventsOk P s.cfg s.i2cAddr s.bl)

include hW hR

theorem execCmd_logged (c : Cmd) : Logged P s (execCmd c s) := by
  by_cases h : c.rw = false ∨ s.cfg.canRead = true
  · exact (execCmd_logs hW hR h).logged
  · have ⟨h1, h2⟩ := not_or.mp h
    rw [execCmd_unsupported (by simpa using h1) (by simpa using h2)]
    exact ⟨rfl, rfl, rfl, ⟨[], rfl, by simp⟩, fun e t k => .inl fun i hi => by
      obtain ⟨rfl, -⟩ : Error.e2 .readUnsupported = e ∧ s = t := by simpa using k
      simp at hi⟩

theorem issue_logged (c : Cmd) : Logged P s (issue c s) :=
  Logged.bind (execCmd_logged hW hR c) fun _ t _ _ _ _ => Logged.pure () t

theorem issueAll_logged {ws : List Cmd} (h : AllWrites ws) : Logged P s (issueAll ws s) :=
  (issueAll_logs hW hR h).logged

theorem position_logged (col line : Nat) : Logged P s (position col line s) :=
  Logged.check (positionChecks_check _ _) fun _ _ => issue_logged hW hR _

theorem runWord_appended {c : Cmd} {t : State} (h : runWord c s = .next t) : Appended P s t :=
  Logged.appended (Logged.bind (execCmd_logged hW hR c) fun _ u _ _ _ _ => Logged.pure _ u) h

theorem mutate_appended {r : FlagReg} {f : Cmd → Cmd} {t : State} (h : finish (mutate r f) s = .next t) :
    Appended P s t := by
  refine Logged.appended (Logged.check phaseCheckReady_check fun _ _ => ?_) h
  rw [bind_update, bind_get]
  have k : ∀ u : State, u.cfg = s.cfg → u.i2cAddr = s.i2cAddr → u.bl = s.bl → u.log = s.log → ∀ c : Cmd,
      Logged P s ((do
        issue c
        pure Value.nothing : Drv Value) u) := by
    intro u h1 h2 h3 h4 c
    have l : Logged P u ((do
        issue c
        pure Value.nothing : Drv Value) u) :=
      Logged.bind (issue_logged (by rw [h1, h2, h3]; exact hW) (by rw [h1, h2, h3]; exact hR) c) fun _ v _ _ _ _ =>
        Logged.pure _ v
    exact
      { cfg := l.cfg.trans h1
        i2cAddr := l.i2cAddr.trans h2
        bl := l.bl.trans h3
        log := by rw [← h4]; exact l.log
        fail := by rw [← h4, ← h1]; exact l.fail }
  cases r with
  | em => exact k (FlagReg.em.write (f s.em) s) rfl rfl rfl rfl _
  | dc => exact k (FlagReg.dc.write (f s.dc) s) rfl rfl rfl rfl _

end Operations

theorem runBus_appended {v : Variant} {m : Drv Unit} {s t : State} (hm : s.cfg.variant = v → Logged P s (m s))
    (h : runBus v m s = .next t) : Appended P s t :=
  Logged.appended (Logged.check (requireVariant_check v) fun _ hv => Logged.bind (hm (by
    unfold requireVariant at hv
    split at hv
    · assumption
    · simp at hv)) fun _ u _ _ _ _ => Logged.pure _ u) h

theorem runBusRead_appended {v : Variant} {m : Drv Byte} {s t : State} (hm : s.cfg.variant = v → Logged P s (m s))
    (h : runBusRead v m s = .next t) : Appended P s t :=
  Logged.appended (Logged.check (requireVariant_check v) fun _ hv => Logged.bind (hm (by
    unfold requireVariant at hv
    split at hv
    · assumption
    · simp at hv)) fun _ u _ _ _ _ => Logged.pure _ u) h

theorem writeBody_logged {s : State} (hW : WriteEventsOk P s.cfg s.i2cAddr s.bl) (w : Cmd) :
    Logged P s (writeBody s.cfg.variant w s) := (writeBody_logs hW _ w).logged

theorem readChecks_canRead {c : Nat} {s t : State} {u : Unit} (h : readChecks c s = .ok u t) : s.cfg.canRead = true := by
  obtain ⟨_, x, h1, h2⟩ := bind_eq_ok.mp h
  obtain rfl : x = s := (require_ok.mp h1).2
  obtain ⟨_, y, h3, h4⟩ := bind_eq_ok.mp h2
  obtain rfl : y = x := (require_ok.mp h3).2
  rw [bind_getCfg] at h4
  exact (require_ok.mp h4).1

theorem parRead_logged {s : State} (hR : s.cfg.canRead = true → ReadEventsOk P s.cfg s.i2cAddr s.bl)
    (hv : s.cfg.variant ≠ .i2cMux4) (c : Nat) : Logged P s (parRead c s) :=
  Logged.check (readChecks_check c) fun _ hc => by
    have k := (readBody_logs (hR (readChecks_canRead hc)) s.cfg.variant (c.testBit 9)).logged
    cases h : s.cfg.variant with
    | parallel8 => rwa [h] at k
    | parallel4 => rwa [h] at k
    | i2cMux4 => exact absurd h hv

theorem i2cBusRead_logged {s : State} (hR : s.cfg.canRead = true → ReadEventsOk P s.cfg s.i2cAddr s.bl)
    (hv : s.cfg.variant = .i2cMux4) (c : Nat) : Logged P s (i2cBusRead c s) :=
  Logged.check (readChecks_check c) fun _ hc => by
    have k := (readBody_logs (hR (readChecks_canRead hc)) s.cfg.variant (c.testBit 9)).logged
    rwa [hv] at k

/-- The flag is written, which is no event, and then the one event of the backlight change follows. -/
theorem lightRun_appended {s t : State} {en : Bool} (hf : ∀ p, P (.platformFail p)) (hd : ∀ b, P (.drive .bl b))
    (hb : ∀ a, s.i2cAddr = some a → P (.i2cWrite a (expByte s.cfg.i2cMap false false false en 0)))
    (h : lightRun en s = .next t) : Appended P s t := by
  have l : Logged P { s with bl := en } (blBody s.cfg en { s with bl := en }) :=
    Logs.logged (s := { s with bl := en }) (blBody_logs hf hd hb)
  have a := Logged.appended (Logged.bind l fun _ u _ _ _ _ => Logged.pure Value.nothing u) h
  exact ⟨a.log, a.fail⟩

/-- A step that appended nothing. -/
theorem Appended.none {s t : State} (hl : t.log = s.log) (hr : ∀ i, t.reply ≠ .error (.e3 i)) : Appended P s t :=
  ⟨⟨[], by simpa using hl, by simp⟩, fun p hp => absurd hp (hr _)⟩

theorem writeCodes_appended {col line : Nat} {codes : List Int} {s t : State}
    (hW : WriteEventsOk P s.cfg s.i2cAddr s.bl) (hR : s.cfg.canRead = true → ReadEventsOk P s.cfg s.i2cAddr s.bl)
    (h : finish (writeCodesOp col line codes) s = .next t) : Appended P s t := by
  refine Logged.appended (Logged.check phaseCheckReady_check fun _ _ =>
    Logged.check (positionChecks_check _ _) fun _ _ => ?_) h
  cases hb : firstBadCode codes with
  | some k => exact Logged.check (Check.require (by simp)) fun _ hr => absurd (require_ok.mp hr).1 (by simp)
  | none =>
    exact Logged.bind (position_logged hW hR col line) fun _ u _ h1 h2 h3 =>
      Logged.bind (issueAll_logged (by rw [h1, h2, h3]; exact hW) (by rw [h1, h2, h3]; exact hR) (codeWords_writes hb))
        fun _ w _ _ _ _ => Logged.pure _ w

theorem NextRan.bl {s t : State} (h : NextRan s t) : t.bl = s.bl := by
  rcases h with ⟨v, u, f, c, rfl⟩ | ⟨p, u, f, rfl⟩ <;> exact f.bl

/-- What any instruction but `init` and `bus.init` of I2C-Mux4 appends: events of bus transfers with the address and the flag it
started from, or the one event of a backlight change with the flag it ends in. -/
theorem exec_appended {i : Instr} {s t : State} (hi : i ≠ .init) (hb : i ≠ .busInitI2C) (h : exec i s = .next t)
    (hW : WriteEventsOk P s.cfg s.i2cAddr s.bl) (hR : s.cfg.canRead = true → ReadEventsOk P s.cfg s.i2cAddr s.bl)
    (hd : ∀ b, P (.drive .bl b))
    (hl : ∀ a, s.i2cAddr = some a → P (.i2cWrite a (expByte s.cfg.i2cMap false false false t.bl 0))) :
    Appended P s t := by
  have light : ∀ en, lightRun en s = .next t → Appended P s t := by
    intro en k
    obtain rfl : t.bl = en := (lightRun_next k).bl
    exact lightRun_appended hW.fail hd hl k
  cases i with
  | init => exact absurd rfl hi
  | busInitI2C => exact absurd rfl hb
  | mapCharacter ch code =>
    rcases mapCharacter_effect h with ⟨-, hm, -⟩ | ⟨hf, -, -⟩ | ⟨hf, -, -⟩ | ⟨hf, -, -⟩ | ⟨-, ht⟩ | ⟨hi, -⟩
    · exact absurd rfl (hm _ _)
    · simp [emFunction] at hf
    · simp [dcFunction] at hf
    · simp [blFunction] at hf
    · rcases ht with rfl | rfl <;> exact Appended.none rfl (by simp)
    · simp at hi
  | unmapCharacter ch =>
    rcases unmapCharacter_effect h with ⟨-, -, hm⟩ | ⟨hf, -, -⟩ | ⟨hf, -, -⟩ | ⟨hf, -, -⟩ | ⟨hi, -⟩ | ⟨-, ht⟩
    · exact absurd rfl (hm _)
    · simp [emFunction] at hf
    · simp [dcFunction] at hf
    · simp [blFunction] at hf
    · simp at hi
    · rcases ht with rfl | rfl | rfl <;> exact Appended.none rfl (by simp)
  | clear => exact runWord_appended hW hR h
  | home x => exact runWord_appended hW hR h
  | entry a b => exact runWord_appended hW hR h
  | dispctl a b c => exact runWord_appended hW hR h
  | shift a b x => exact runWord_appended hW hR h
  | funcset a b c x => exact runWord_appended hW hR h
  | setcg a => exact runWord_appended hW hR h
  | setdd a => exact runWord_appended hW hR h
  | rdbf x => exact runWord_appended hW hR h
  | wrdata v => exact runWord_appended hW hR h
  | rddata x => exact runWord_appended hW hR h
  | noneWord => exact runWord_appended hW hR h
  | setCursorPosition c l =>
    exact Logged.appended (Logged.check phaseCheckReady_check fun _ _ =>
      Logged.bind (position_logged hW hR c l) fun _ u _ _ _ _ => Logged.pure _ u) h
  | getCursorPosition =>
    refine Logged.appended (Logged.check phaseCheckReady_check fun _ _ => Logged.check getCfg_check fun _ _ =>
      Logged.check (Check.require (by simp)) fun _ _ => Logged.check cgramCheck_check fun _ _ =>
      Logged.bind (execCmd_logged hW hR _) fun v u _ _ _ _ => ?_) h
    unfold positionOf
    split
    · exact Logged.ofCheck (inverse_check _) u
    · exact Logged.pure _ u
  | moveCursorLeft =>
    exact Logged.appended (Logged.check phaseCheckReady_check fun _ _ => Logged.check cgramCheck_check fun _ _ =>
      Logged.bind (issue_logged hW hR _) fun _ u _ _ _ _ => Logged.pure _ u) h
  | moveCursorRight =>
    exact Logged.appended (Logged.check phaseCheckReady_check fun _ _ => Logged.check cgramCheck_check fun _ _ =>
      Logged.bind (issue_logged hW hR _) fun _ u _ _ _ _ => Logged.pure _ u) h
  | scrollDisplayLeft =>
    exact Logged.appended (Logged.check phaseCheckReady_check fun _ _ => Logged.check getCfg_check fun _ _ =>
      Logged.bind (issue_logged hW hR _) fun _ u _ _ _ _ => Logged.pure _ u) h
  | scrollDisplayRight =>
    exact Logged.appended (Logged.check phaseCheckReady_check fun _ _ => Logged.check getCfg_check fun _ _ =>
      Logged.bind (issue_logged hW hR _) fun _ u _ _ _ _ => Logged.pure _ u) h
  | createCharacter c r =>
    exact Logged.appended (Logged.check phaseCheckReady_check fun _ _ => Logged.check (glyphChecks_check _ _) fun _ hg =>
      Logged.bind (issueAll_logged hW hR (glyphWords_writes (glyphChecks_pass hg).1 (glyphChecks_pass hg).2.2))
        fun _ u _ _ _ _ => Logged.pure _ u) h
  | writeText c l x =>
    exact Logged.appended (Logged.check phaseCheckReady_check fun _ _ =>
      Logged.bind (position_logged hW hR c l) fun _ u _ h1 h2 h3 => Logged.check getMap_check fun m _ =>
      Logged.bind (issueAll_logged (by rw [h1, h2, h3]; exact hW) (by rw [h1, h2, h3]; exact hR) (textWords_writes m x))
        fun _ w _ _ _ _ => Logged.pure _ w) h
  | writeCode c l k => exact writeCodes_appended hW hR h
  | writeCodes c l k => exact writeCodes_appended hW hR h
  | readCode c l =>
    exact Logged.appended (Logged.check phaseCheckReady_check fun _ _ => Logged.check getCfg_check fun _ _ =>
      Logged.check (Check.require (by simp)) fun _ _ => Logged.bind (position_logged hW hR c l) fun _ u _ h1 h2 h3 =>
      Logged.bind (execCmd_logged (by rw [h1, h2, h3]; exact hW) (by rw [h1, h2, h3]; exact hR) _)
        fun _ w _ _ _ _ => Logged.pure _ w) h
  | executeCommand c =>
    exact Logged.appended (Logged.check phaseCheckReady_check fun _ _ => Logged.check (Check.require (by simp)) fun _ _ =>
      Logged.check getCfg_check fun _ _ => Logged.check (Check.require (by simp)) fun _ _ =>
      Logged.bind (execCmd_logged hW hR _) fun _ u _ _ _ _ => Logged.pure _ u) h
  | isCommandSupported c =>
    exact Logged.appended (Logged.check getCfg_check fun cfg _ => Logged.pure (Value.truth (commandSupported cfg c)) s) h
  | setDisplayOn => exact mutate_appended (r := .dc) hW hR h
  | setDisplayOff => exact mutate_appended (r := .dc) hW hR h
  | setAutoscrollOn => exact mutate_appended (r := .em) hW hR h
  | setAutoscrollOff => exact mutate_appended (r := .em) hW hR h
  | setLeftToRight => exact mutate_appended (r := .em) hW hR h
  | setRightToLeft => exact mutate_appended (r := .em) hW hR h
  | setCursorType a =>
    cases a with
    | known c => exact mutate_appended (r := .dc) hW hR ((setCursorType_known c s).symm.trans h)
    | other tag =>
      exact Logged.appended (m := setCursorTypeOp (.other tag)) (Logged.check phaseCheckReady_check fun _ _ =>
        Logged.check (Check.require (by simp)) fun _ hr => absurd (require_ok.mp hr).1 (by simp)) h
  | setBacklightOn =>
    rcases backlightOp_next h with ⟨-, rfl⟩ | ⟨hc, n⟩
    · exact Appended.none rfl (by simp [raiseError])
    · exact light true n
  | setBacklightOff =>
    rcases backlightOp_next h with ⟨-, rfl⟩ | ⟨hc, n⟩
    · exact Appended.none rfl (by simp [raiseError])
    · exact light false n
  | busSetBacklightPar en =>
    rcases busSetBacklightPar_next h with ⟨hv, ⟨-, rfl⟩ | ⟨hc, n⟩⟩
    · exact Appended.none rfl (by simp [raiseError])
    · exact light en n
  | busSetBacklightI2C en =>
    have ⟨hv, n⟩ := busSetBacklightI2C_next h
    exact light en n
  | busWriteP8 c =>
    exact runBus_appended (fun hv => Logged.check (writeChecks_check c) fun _ _ => by
      have k := writeBody_logged hW (BitVec.ofNat 10 c)
      rwa [hv] at k) h
  | busWriteP4 c =>
    exact runBus_appended (fun hv => Logged.check (writeChecks_check c) fun _ _ => by
      have k := writeBody_logged hW (BitVec.ofNat 10 c)
      rwa [hv] at k) h
  | busWriteI2C c =>
    exact runBus_appended (fun hv => Logged.check (writeChecks_check c) fun _ _ => by
      have k := writeBody_logged hW (BitVec.ofNat 10 c)
      rwa [hv] at k) h
  | busReadP8 c => exact runBusRead_appended (fun hv => parRead_logged hR (by simp [hv]) c) h
  | busReadP4 c => exact runBusRead_appended (fun hv => parRead_logged hR (by simp [hv]) c) h
  | busReadI2C c => exact runBusRead_appended (fun hv => i2cBusRead_logged hR hv c) h
  | busInitP8 => exact runBus_appended (fun _ => (parInit_logs hW).logged) h
  | busInitP4 => exact runBus_appended (fun _ => (parInit_logs hW).logged) h

/-! ### The scan and init -/

/-- Selecting the address appends the scan, or its failure; a next state without the address selected has the one before. -/
theorem i2cSelect_logged {s : State} (hs : P (.i2cScan s.nextScan)) (hf : P (.platformFail .i2cScan)) :
    ∃ evs, (endState (i2cSelect s)).log = evs ++ s.log ∧ (∀ e ∈ evs, P e) ∧
      (endState (i2cSelect s)).cfg = s.cfg ∧ (endState (i2cSelect s)).bl = s.bl ∧
      (∀ e t, i2cSelect s = .error e t → t.i2cAddr = s.i2cAddr) ∧
      ∀ p t, i2cSelect s = .error (.error (.e3 (.platformError p))) t →
        s.cfg.platformFaults = true ∧ t.log = .platformFail p :: s.log := by
  rcases i2cSelect_cases s with ⟨a, t, env, h, -, f, ht⟩ | ⟨i, t, env, h, f, -, ht, hi⟩ | ⟨t, h, hq, f⟩
  · rw [h]
    exact ⟨[.i2cScan s.nextScan], by rw [ht]; rfl, by simpa using hs, by rw [ht]; rfl, by rw [ht]; rfl, by simp, by simp⟩
  · rw [h]
    refine ⟨[.i2cScan s.nextScan], by rw [ht]; rfl, by simpa using hs, by rw [ht]; rfl, by rw [ht]; rfl, ?_, ?_⟩
    · intro e u k
      obtain ⟨-, rfl⟩ : _ ∧ t = u := by simpa using k
      rw [ht]
    · intro p u k
      obtain ⟨rfl, -⟩ : i = .platformError p ∧ t = u := by simpa using k
      rcases hi with ⟨-, k⟩ | ⟨-, -, k⟩ | ⟨_, -, -, k⟩ <;> simp at k
  · have l : platform .i2cScan s = .error (.error (.e3 (.platformError .i2cScan))) t := by
      have k : i2cScan s = .error (.error (.e3 (.platformError .i2cScan))) t := by
        rcases bind_eq_error.mp h with k | ⟨l, u, -, k⟩
        · exact k
        · exfalso
          rcases bind_eq_error.mp k with k | ⟨_, v, -, k⟩
          · simpa using (require_error.mp k).2.1
          · rw [bind_getCfg] at k
            cases hc : v.cfg.i2cAddrCfg with
            | none =>
              simp only [hc] at k
              rcases bind_eq_error.mp k with k | ⟨_, w, -, k⟩
              · simpa using (require_error.mp k).2.1
              · simp at k
            | some n =>
              simp only [hc] at k
              rcases bind_eq_error.mp k with k | ⟨_, w, -, k⟩
              · simpa using (require_error.mp k).2.1
              · simp at k
      rcases bind_eq_error.mp k with k | ⟨_, u, -, k⟩
      · exact k
      · exfalso
        rcases bind_eq_error.mp k with k | ⟨_, v, -, k⟩
        · unfold drawFrom at k
          split at k <;> simp at k
        · simp [emit] at k
    have hp : s.cfg.platformFaults = true := by
      cases hc : s.cfg.platformFaults with
      | true => rfl
      | false => simp [State.quiet, hc] at hq
    have ht : t.log = .platformFail .i2cScan :: s.log := by
      rcases platform_cases .i2cScan s with ⟨fs, -, k⟩ | ⟨fs, -, -, k⟩
      · rw [k] at l; simp at l
      · rw [k] at l
        obtain rfl : _ = t := by simpa using l
        rfl
    rw [h]
    refine ⟨[.platformFail .i2cScan], ht, by simpa using hf, f.cfg, f.bl, ?_, ?_⟩
    · intro e u k
      obtain ⟨-, rfl⟩ : _ ∧ t = u := by simpa using k
      exact f.i2cAddr
    · intro p u k
      obtain ⟨rfl, rfl⟩ : Primitive.i2cScan = p ∧ t = u := by simpa using k
      exact ⟨hp, ht⟩

/-- The power-on sequence of the variant, once the address is there. -/
def busPowerOn (v : Variant) : Drv Unit :=
  match v with
  | .parallel8 | .parallel4 => parInit
  | .i2cMux4 => i2cPowerOn

/-- The bus activity of `init` once the address is selected. -/
def initRest (v : Variant) : Drv Unit :=
  busPowerOn v >>= fun _ => get >>= fun s => issueAll (initWords s) >>= fun _ =>
    onlyIf s.cfg.canBl (busSetBacklight true)

theorem initBody_par {s : State} (hv : s.cfg.variant ≠ .i2cMux4) : initBody s = initRest s.cfg.variant s := by
  rw [initBody, initRest, bind_run, bind_run, busInit, bind_getCfg]
  cases h : s.cfg.variant with
  | parallel8 => rfl
  | parallel4 => rfl
  | i2cMux4 => exact absurd h hv

theorem initBody_i2c {s : State} (hv : s.cfg.variant = .i2cMux4) :
    initBody s = (i2cSelect >>= fun _ => initRest .i2cMux4) s := by
  have e : i2cInit = (i2cSelect >>= fun _ => i2cPowerOn) := rfl
  rw [initBody, bind_run, bind_run, busInit, bind_getCfg]
  simp only [hv]
  rw [e, bind_run]
  cases i2cSelect s with
  | error e t => rfl
  | ok _ t =>
    show _ = initRest .i2cMux4 t
    rw [initRest, bind_run]
    rfl

/-- What the rest of `init` appends, and the address and the flag it ends with. -/
structure RestLogged (P : Event → Prop) (s : State) (r : EStateM.Result Stop State Unit) : Prop where
  i2cAddr : (endState r).i2cAddr = s.i2cAddr
  log : ((endState r).bl = true → ∀ a, s.i2cAddr = some a →
      P (.i2cWrite a (expByte s.cfg.i2cMap false false false true 0))) →
    ∃ evs, (endState r).log = evs ++ s.log ∧ ∀ e ∈ evs, P e
  fail : ∀ p t, r = .error (.error (.e3 (.platformError p))) t →
    s.cfg.platformFaults = true ∧ ∃ evs, t.log = .platformFail p :: (evs ++ s.log)

theorem initRest_logged {s x : State} (hx : InitFrame (initStart s) x) (hW : WriteEventsOk P x.cfg x.i2cAddr x.bl)
    (hR : x.cfg.canRead = true → ReadEventsOk P x.cfg x.i2cAddr x.bl) (hd : ∀ b, P (.drive .bl b)) :
    RestLogged P x (initRest x.cfg.variant x) := by
  have l1 : Logged P x (busPowerOn x.cfg.variant x) := by
    generalize x.cfg.variant = v
    cases v with
    | parallel8 => exact (parInit_logs hW).logged
    | parallel4 => exact (parInit_logs hW).logged
    | i2cMux4 => exact (i2cPowerOn_logs hW).logged
  have f1 : OnlyBus x (endState (busPowerOn x.cfg.variant x)) := by
    generalize x.cfg.variant = v
    cases v with
    | parallel8 => exact (parInit_ran x).frame
    | parallel4 => exact (parInit_ran x).frame
    | i2cMux4 => exact (i2cPowerOn_ran x).frame
  have l2 : Logged P x ((busPowerOn x.cfg.variant >>= fun _ => get >>= fun s => issueAll (initWords s)) x) :=
    Logged.bind l1 fun _ u k h1 h2 h3 => by
      rw [bind_get]
      refine issueAll_logged (by rw [h1, h2, h3]; exact hW) (by rw [h1, h2, h3]; exact hR) (initWords_start (s := s) ?_)
      rw [k] at f1
      exact hx.trans (OnlyBus.initFrame f1)
  have e : initRest x.cfg.variant x =
      ((busPowerOn x.cfg.variant >>= fun _ => get >>= fun s => issueAll (initWords s)) >>= fun _ =>
        onlyIf x.cfg.canBl (busSetBacklight true)) x := by
    rw [initRest, bind_run, bind_run, bind_run]
    cases h : busPowerOn x.cfg.variant x with
    | error e t => rfl
    | ok _ t =>
      have hc : t.cfg = x.cfg := by rw [h] at f1; exact f1.cfg
      simp only [bind_run, get_run, hc]
  rw [e, bind_run]
  cases h : (busPowerOn x.cfg.variant >>= fun _ => get >>= fun s => issueAll (initWords s)) x with
  | error e t =>
    rw [h] at l2
    refine ⟨l2.i2cAddr, fun _ => l2.log, fun p u k => ?_⟩
    rcases l2.fail _ u k with hn | ⟨q, evs, hq, hc, hl⟩
    · exact absurd rfl (hn _)
    · obtain rfl : p = q := by simpa using hq
      exact ⟨hc, evs, hl⟩
  | ok _ y =>
    rw [h] at l2
    obtain ⟨e1, h1, p1⟩ := l2.log
    cases hc : x.cfg.canBl with
    | false => exact ⟨l2.i2cAddr, fun _ => l2.log, fun p u k => by simp at k⟩
    | true =>
      have hy : y.cfg = x.cfg := l2.cfg
      have ha : y.i2cAddr = x.i2cAddr := l2.i2cAddr
      have e2 : onlyIf true (busSetBacklight true) y = blBody y.cfg true { y with bl := true } := by
        rw [onlyIf_true, busSetBacklight_eq (by rw [hy]; exact hc)]
      have lt : Logged (fun _ => True) { y with bl := true } (blBody y.cfg true { y with bl := true }) :=
        Logs.logged (s := { y with bl := true })
          (blBody_logs (fun _ => trivial) (fun _ => trivial) fun _ _ => trivial)
      show RestLogged P x (onlyIf true (busSetBacklight true) y)
      rw [e2]
      refine ⟨lt.i2cAddr.trans ha, fun hl => ?_, fun p u k => ?_⟩
      · have lp : Logged P { y with bl := true } (blBody y.cfg true { y with bl := true }) :=
          Logs.logged (s := { y with bl := true }) (blBody_logs hW.fail hd fun a h => by
            rw [show ({ y with bl := true } : State).cfg = x.cfg from hy]
            exact hl lt.bl a (by rw [← ha]; exact h))
        obtain ⟨e3, h3, p3⟩ := lp.log
        refine ⟨e3 ++ e1, ?_, fun e he => ?_⟩
        · rw [h3, List.append_assoc]
          exact congrArg (e3 ++ ·) h1
        · rcases List.mem_append.mp he with he | he
          · exact p3 e he
          · exact p1 e he
      · rcases lt.fail _ u k with hn | ⟨q, evs, hq, hc', hl⟩
        · exact absurd rfl (hn _)
        · obtain rfl : p = q := by simpa using hq
          refine ⟨by rw [← hy]; exact hc', evs ++ e1, ?_⟩
          rw [hl, List.append_assoc]
          exact congrArg (fun l => Event.platformFail p :: (evs ++ l)) h1

/-- What `init` appends: the scan on I2C-Mux4, then events of bus transfers with the address it ends with and the flag it started
from, then the one event of the backlight. -/
theorem init_appended {s t : State} (h : execInit s = .next t) (hs : P (.i2cScan s.nextScan))
    (hW : WriteEventsOk P s.cfg t.i2cAddr s.bl) (hR : s.cfg.canRead = true → ReadEventsOk P s.cfg t.i2cAddr s.bl)
    (hd : ∀ b, P (.drive .bl b))
    (hl : t.bl = true → ∀ a, t.i2cAddr = some a → P (.i2cWrite a (expByte s.cfg.i2cMap false false false true 0))) :
    Appended P s t := by
  have hp : s.phase ≠ .failed := (init_next h).1
  rw [execInit_eq hp] at h
  -- the end of `init` keeps the address, the flag and the log of its bus activity
  have fin : ∀ r : EStateM.Result Stop State Unit, initOutcome r = .next t →
      t.i2cAddr = (endState r).i2cAddr ∧ t.bl = (endState r).bl ∧ t.log = (endState r).log ∧
        ∀ p, t.reply = .error (.e3 (.platformError p)) → ∃ u, r = .error (.error (.e3 (.platformError p))) u ∧ t.log = u.log := by
    intro r k
    cases r with
    | ok _ u =>
      obtain rfl : returnValue .nothing { u with phase := .ready } = t := by simpa [initOutcome] using k
      exact ⟨rfl, rfl, rfl, by simp [returnValue]⟩
    | error e u =>
      cases e with
      | fault g => simp [initOutcome] at k
      | refused g => simp [initOutcome] at k
      | error g =>
        obtain rfl : raiseError g { u with phase := .failed } = t := by simpa [initOutcome] using k
        exact ⟨rfl, rfl, rfl, fun p hp => ⟨u, by simpa [raiseError] using hp, rfl⟩⟩
  have ⟨ha, hbl, hlog, hf⟩ := fin _ h
  by_cases hv : s.cfg.variant = .i2cMux4
  · rw [initBody_i2c (s := initStart s) hv, bind_run] at h ha hbl hlog hf
    obtain ⟨e1, h1, p1, c1, b1, a1, f1⟩ := i2cSelect_logged (P := P) (s := initStart s) hs (hW.fail _)
    cases hr : i2cSelect (initStart s) with
    | error e u =>
      rw [hr] at h1 hlog hf
      refine ⟨⟨e1, hlog.trans h1, p1⟩, fun p hp => ?_⟩
      obtain ⟨v, hv, hvl⟩ := hf p hp
      have ⟨c, l⟩ := f1 p v (hr.trans hv)
      exact ⟨c, [], by rw [hvl, l]; rfl⟩
    | ok _ x =>
      rw [hr] at h1 hlog hf c1 b1 ha hbl
      have hx : InitFrame (initStart s) x := by
        have := (i2cSelect_initRan (s := initStart s) hv).frame
        rwa [hr] at this
      have hxc : x.cfg = s.cfg := c1
      have hxb : x.bl = s.bl := b1
      have hxv : x.cfg.variant = .i2cMux4 := by rw [hxc]; exact hv
      have at0 := (initRest_logged (P := fun _ => True) hx
        ⟨fun _ => trivial, fun _ _ _ => trivial, fun _ => trivial, fun _ => trivial, fun _ _ _ _ _ _ => trivial⟩
        (fun _ => ⟨⟨fun _ => trivial, fun _ _ _ => trivial, fun _ => trivial, fun _ => trivial, fun _ _ _ _ _ _ => trivial⟩,
          fun _ _ => trivial, fun _ _ => trivial, fun _ _ _ => trivial, fun _ => trivial, fun _ => trivial⟩)
        fun _ => trivial)
      rw [hxv] at at0
      have hxa : x.i2cAddr = t.i2cAddr := (ha.trans at0.i2cAddr).symm
      have k := initRest_logged hx (by rw [hxc, hxa, hxb]; exact hW) (by rw [hxc, hxa, hxb]; exact hR) hd
      rw [hxv] at k
      obtain ⟨e2, h2, p2⟩ := k.log fun hb a ha' => by
        rw [hxc]
        exact hl (hbl.trans hb) a (by rw [← hxa]; exact ha')
      refine ⟨⟨e2 ++ e1, ?_, fun e he => ?_⟩, fun p hp => ?_⟩
      · rw [hlog, h2, List.append_assoc]
        exact congrArg (e2 ++ ·) h1
      · rcases List.mem_append.mp he with he | he
        · exact p2 e he
        · exact p1 e he
      · obtain ⟨v, hv, hvl⟩ := hf p hp
        obtain ⟨c, e3, l⟩ := k.fail p v hv
        refine ⟨by rw [← hxc]; exact c, e3 ++ e1, ?_⟩
        rw [hvl, l, List.append_assoc]
        exact congrArg (fun l => Event.platformFail p :: (e3 ++ l)) h1
  · rw [initBody_par (s := initStart s) hv] at h ha hbl hlog hf
    have f0 : t.i2cAddr = s.i2cAddr := (init_next (by rw [execInit_eq hp, initBody_par (s := initStart s) hv]; exact h)).2.1.addr hv
    have k := initRest_logged (P := P) (s := s) (x := initStart s) (OnlyBus.refl _).initFrame (by rw [f0] at hW; exact hW)
      (by rw [f0] at hR; exact hR) hd
    obtain ⟨e2, h2, p2⟩ := k.log fun hb a ha' => hl (hbl.trans hb) a (by rw [f0]; exact ha')
    refine ⟨⟨e2, hlog.trans h2, p2⟩, fun p hp => ?_⟩
    obtain ⟨v, hv, hvl⟩ := hf p hp
    obtain ⟨c, e3, l⟩ := k.fail p v hv
    exact ⟨c, e3, by rw [hvl, l]; rfl⟩

/-- What `bus.init` of I2C-Mux4 appends. -/
theorem busInitI2C_appended {s t : State} (h : execBusInitI2C s = .next t) (hs : P (.i2cScan s.nextScan))
    (hW : WriteEventsOk P s.cfg t.i2cAddr s.bl) : Appended P s t := by
  have hv := (busInitI2C_next h).1
  have hr : requireVariant .i2cMux4 s = .ok () s := by simp [requireVariant, hv]
  have e : execBusInitI2C s = finish (i2cSelect >>= fun _ => i2cPowerOn >>= fun _ => pure .nothing) s := by
    have e0 : (i2cInit >>= fun _ => pure Value.nothing) s =
        (i2cSelect >>= fun _ => i2cPowerOn >>= fun _ => pure Value.nothing) s := by
      rw [show i2cInit = (i2cSelect >>= fun _ => i2cPowerOn) from rfl, bind_run, bind_run, bind_run]
      cases i2cSelect s with
      | error e t => rfl
      | ok _ x =>
        show _ = (i2cPowerOn >>= fun _ => pure Value.nothing) x
        rw [bind_run]
    unfold execBusInitI2C runBus finish
    rw [bind_ok hr, e0]
  rw [e] at h
  obtain ⟨e1, h1, p1, c1, b1, a1, f1⟩ := i2cSelect_logged (P := P) (s := s) hs (hW.fail _)
  cases hr : i2cSelect s with
  | error e u =>
    rw [hr] at h1
    rcases finish_next h with ⟨v, w, hw, ht⟩ | ⟨g, w, hw, ht⟩
    · rw [bind_error hr] at hw; simp at hw
    · obtain ⟨rfl, rfl⟩ : e = .error g ∧ u = w := by simpa [bind_error hr] using hw
      subst ht
      refine ⟨⟨e1, h1, p1⟩, fun p hp => ?_⟩
      obtain rfl : g = .e3 (.platformError p) := by simpa [raiseError] using hp
      have ⟨c, l⟩ := f1 p u hr
      exact ⟨c, [], l⟩
  | ok _ x =>
    rw [hr] at h1 c1 b1
    have h' : finish (i2cPowerOn >>= fun _ => pure .nothing) x = .next t := by
      rw [← h]
      unfold finish
      rw [bind_ok hr]
    have n := (Ran.bind (f := fun _ => (pure Value.nothing : Drv Value)) (i2cPowerOn_ran x) fun _ u _ _ =>
      Ran.pure Value.nothing u).nextRan h'
    have ha : x.i2cAddr = t.i2cAddr := by
      rcases n with ⟨v, u, f, c, rfl⟩ | ⟨p, u, f, rfl⟩ <;> exact f.i2cAddr.symm
    have hc : x.cfg = s.cfg := c1
    have hb : x.bl = s.bl := b1
    have k : Appended P x t := Logged.appended (Logged.bind
      (i2cPowerOn_logs (cfg := x.cfg) (ad := x.i2cAddr) (bl := x.bl) (by rw [hc, ha, hb]; exact hW)).logged
      fun _ u _ _ _ _ => Logged.pure _ u) h'
    obtain ⟨e2, h2, p2⟩ := k.log
    refine ⟨⟨e2 ++ e1, ?_, fun e he => ?_⟩, fun p hp => ?_⟩
    · rw [h2, List.append_assoc]
      exact congrArg (e2 ++ ·) h1
    · rcases List.mem_append.mp he with he | he
      · exact p2 e he
      · exact p1 e he
    · obtain ⟨c, e3, l⟩ := k.fail p hp
      refine ⟨by rw [← hc]; exact c, e3 ++ e1, ?_⟩
      rw [l, List.append_assoc]
      exact congrArg (fun l => Event.platformFail p :: (e3 ++ l)) h1

end Sys2Proof.Machine
end

