-- ==== Sys2Proof/Laws/Words.lean ====
section
/-! SUPPORT. What one command word does, said once: its transfer's events, its result, its delay. -/

namespace Sys2Proof.Machine

open Sys2Proof

theorem trace_of_suffix {s t : State} (h : s.log <:+ t.log) : ∃ evs, t.trace = s.trace ++ evs := by
  obtain ⟨evs, h⟩ := h
  exact ⟨evs.reverse, by simp [State.trace, ← h]⟩

/-- A completed write word: the events of its transfer come first (42_execute.md R132). -/
theorem execCmd_write {c : Cmd} {s t : State} {v : Option Byte} (hr : c.rw = false) (k : execCmd c s = .ok v t) :
    v = none ∧ ∃ evs, t.trace = s.trace ++ writeEvents s c ++ evs := by
  obtain ⟨w, u, h1, h2⟩ := bind_eq_ok.mp k
  rw [transfer, if_neg (ne_true_of_eq_false hr)] at h1
  obtain ⟨_, x, h3, h4⟩ := bind_eq_ok.mp h1
  obtain ⟨rfl, rfl⟩ : none = w ∧ x = u := by simpa using h4
  rw [busWrite_eq hr] at h3
  have e := (writeBody_emits h3).trace
  rw [updateAcSpace, bind_update] at h2
  obtain ⟨_, y, h5, h6⟩ := bind_eq_ok.mp h2
  obtain ⟨rfl, rfl⟩ : none = v ∧ y = t := by simpa using h6
  obtain ⟨evs, he⟩ := trace_of_suffix ((complete_busOp (cfg := _) c).ok_frame rfl h5).log
  exact ⟨rfl, evs, by rw [he, ← e]; rfl⟩

/-- A completed read word returns the bits of its own transfer, whose events come first (42_execute.md R132, R137). -/
theorem execCmd_read {c : Cmd} {s t : State} {v : Option Byte} (hr : c.rw = true) (hc : s.cfg.canRead = true)
    (k : execCmd c s = .ok v t) : v = some s.nextRead ∧ ∃ evs, t.trace = s.trace ++ readEvents s c.rs ++ evs := by
  obtain ⟨w, u, h1, h2⟩ := bind_eq_ok.mp k
  rw [transfer, if_pos hr] at h1
  obtain ⟨b, x, h3, h4⟩ := bind_eq_ok.mp h1
  obtain ⟨rfl, rfl⟩ : some b = w ∧ x = u := by simpa using h4
  rw [busRead_eq c.isLt (by simpa using hr) hc] at h3
  obtain ⟨rfl, e⟩ := readBody_value h3
  rw [Cmd.testBit9] at e
  rw [updateAcSpace, bind_update] at h2
  obtain ⟨_, y, h5, h6⟩ := bind_eq_ok.mp h2
  obtain ⟨rfl, rfl⟩ : some s.nextRead = v ∧ y = t := by simpa using h6
  obtain ⟨evs, he⟩ := trace_of_suffix ((complete_busOp (cfg := _) c).ok_frame rfl h5).log
  exact ⟨rfl, evs, by rw [he, ← e]; rfl⟩

/-- A completed word ran as its transfer and its completion (42_execute.md R131). -/
theorem execCmd_wordRun {c : Cmd} {s t : State} {v : Option Byte} (h : c.rw = false ∨ s.cfg.canRead = true)
    (k : execCmd c s = .ok v t) : WordRun c s t := by
  cases hr : c.rw with
  | false => exact execCmd_wordRun_write hr k
  | true =>
    have hc : s.cfg.canRead = true := h.resolve_left (by simp [hr])
    obtain ⟨m, h, hk⟩ := execCmd_parts k
    have d := (transfer_done (.inr hc) h).1
    rw [transfer, if_pos hr] at h
    obtain ⟨b, x, h1, h2⟩ := bind_eq_ok.mp h
    obtain ⟨-, rfl⟩ : _ ∧ x = m := by simpa using h2
    have e := h1
    rw [busRead_eq c.isLt (by simpa using hr) hc] at e
    obtain ⟨rfl, tr⟩ := readBody_value e
    rw [Cmd.testBit9] at tr
    exact ⟨x, { write := fun h => absurd (hr.symm.trans h) (by simp), read := fun _ => ⟨h1, tr⟩, frame := d }, hk⟩

/-- A word run as one step, in terms of the internal `exec`. -/
theorem runWord_ok {c : Cmd} {s t : State} {v : Option Byte} (h : execCmd c s = .ok v t) :
    runWord c s = .next (returnValue (execValue v) t) := finish_ok (by rw [bind_ok h]; rfl)

/-- The frame of a transfer, with the reply a caller has got put in on both sides. -/
theorem BusDone.setReply {s t : State} (r : Reply) (h : BusDone s t) :
    BusDone { s with reply := r } { t with reply := r } :=
  { h with
    cfg := h.cfg, phase := h.phase, em := h.em, dc := h.dc, fs := h.fs, cmap := h.cmap, bl := h.bl, i2cAddr := h.i2cAddr
    reply := rfl, calls := h.calls, acSpace := h.acSpace }

end Sys2Proof.Machine
end

