-- ==== Sys2Proof/Tests/Slice0.lean ====
section
/-! SUPPORT. Tests. Every expected value is one of spec/95_test_vectors.md (the section is named) or worked out by hand from the
rule named. The last part shows, for each obligation with hypotheses, a state and operands that meet them. -/

set_option Elab.async false

namespace Sys2Proof.Tests

open Sys2Proof Sys2Proof.Machine

/-! ### Helpers -/

/-- Write-only Parallel-8 (95_test_vectors.md, the default of section 2.2). -/
def p8 : Config := Config.atReset
/-- Readable Parallel-8 with a backlight line. -/
def p8r : Config := { p8 with rwWired := true, blWired := true }
/-- Parallel-4, write-only and readable. -/
def p4 : Config := { p8 with variant := .parallel4 }
def p4r : Config := { p4 with rwWired := true }
/-- I2C-Mux4, readable by default, and write-only. -/
def i2c : Config := { p8 with variant := .i2cMux4, pins := [] }
def i2cw : Config := { i2c with i2cCanRead := false }

/-- A `Ready` driver right after construction, with the address 0x27 on I2C-Mux4. -/
def ready (cfg : Config) : State :=
  { State.constructed cfg with
    phase := .ready
    i2cAddr := if cfg.variant = .i2cMux4 then some 0x27 else none }

/-- The same with answers of the environment. -/
def withSamples (s : State) (l : List Bool) : State := { s with env := { s.env with samples := l } }
def withReads (s : State) (l : List Byte) : State := { s with env := { s.env with reads := l } }
def withTicks (s : State) (l : List Nat) : State := { s with env := { s.env with ticks := l } }
def withScan (s : State) (l : List Addr7) : State := { s with env := { s.env with scans := [l] } }
def withFaults (s : State) (l : List Bool) : State := { s with env := { s.env with faults := l } }
def withCalls (s : State) (l : List Call) : State := { s with calls := l }

/-- The outcome is a next state that satisfies `p`. -/
def nextSat (o : Host.Outcome State Fault Refusal) (p : State → Bool) : Bool :=
  match o with
  | .next t => p t
  | .fault _ => false
  | .refused _ => false

def faultOf : Host.Outcome State Fault Refusal → Option Fault
  | .fault f => some f
  | _ => none

def refusalOf : Host.Outcome State Fault Refusal → Option Refusal
  | .refused r => some r
  | _ => none

theorem of_nextSat {o : Host.Outcome State Fault Refusal} {p : State → Bool} (h : nextSat o p = true) :
    ∃ t, o = .next t ∧ p t = true := by
  cases o with
  | next t => exact ⟨t, rfl, h⟩
  | fault f => simp [nextSat] at h
  | refused r => simp [nextSat] at h

/-- The trace of words on a write-only bus, each with its delay (95_test_vectors.md section 2.2). -/
def wordsTrace (s : State) (ws : List Cmd) : List Event :=
  ws.flatMap fun c => writeEvents s c ++ [.sleepUs (if c = 0x001 ∨ c = 0x002 ∨ c = 0x003 then 3000 else 100)]

/-- The expander bytes of a trace. -/
def bytesOf : List Event → List Byte
  | [] => []
  | .i2cWrite _ b :: es => b :: bytesOf es
  | _ :: es => bytesOf es

/-! ### Well-formedness: each check refuses an ill-formed term -/

theorem test_wf_surrogate : (Instr.mapCharacter 0xD800 1).wf = false ∧ (Instr.mapCharacter 0xDFFF 1).wf = false ∧
    (Instr.mapCharacter 0xD7FF 1).wf = true ∧ (Instr.mapCharacter 0xE000 1).wf = true := by decide
theorem test_wf_above_unicode : (Instr.unmapCharacter 0x110000).wf = false ∧ (Instr.unmapCharacter 0x10FFFF).wf = true := by
  decide
theorem test_wf_text : (Instr.writeText 0 0 [0x41, 0xD800]).wf = false ∧ (Instr.writeText 40 9 [0x41]).wf = true := by decide
/-- The fetch refuses what is ill-typed, by name. -/
theorem test_wf_refused : fetch ⟨false, .op (.unmapCharacter 0xD800)⟩ = .refused .illTypedArgument := by decide
theorem test_wf_word_range : fetch ⟨false, .word 0x400⟩ = .refused (.wordOutOfRange 0x400) := by decide
theorem test_wf_unknown : fetch ⟨false, .unknown "blink"⟩ = .refused (.unknownOperation "blink") := by decide

/-! ### Decoding and encoding (section 2.1, words written out from 30_encoding.md R65) -/

theorem test_decode_clear : decodeTableWord 16 0b0000000001 = some .clear := by decide
theorem test_decode_home : decodeTableWord 16 0x003 = some (.home true) := by decide
theorem test_decode_entry : decodeTableWord 16 0b0000000110 = some (.entry true false) := by decide
theorem test_decode_dispctl : decodeTableWord 16 0b0000001010 = some (.dispctl false true false) := by decide
theorem test_decode_shift : decodeTableWord 16 0x01F = some (.shift true true 0b11) := by decide
theorem test_decode_funcset : decodeTableWord 16 0b0000110000 = some (.funcset true false false 0) := by decide
theorem test_decode_setcg : decodeTableWord 16 0x07F = some (.setcg 63) := by decide
theorem test_decode_setdd : decodeTableWord 16 0x0FF = some (.setdd 0x7F) := by decide
theorem test_decode_rdbf : decodeTableWord 16 0x17F = some (.rdbf 0x7F) := by decide
theorem test_decode_wrdata : decodeTableWord 16 0x241 = some (.wrdata 0x41) := by decide
theorem test_decode_rddata : decodeTableWord 16 0x3AB = some (.rddata 0xAB) := by decide
theorem test_decode_none : decodeTableWord 16 0x000 = some .noneWord ∧ decodeTableWord 16 0x400 = none := by decide

/-- The rows of the opcode table do not overlap and leave no word over (30_encoding.md R69). -/
theorem test_rows_disjoint : ∀ c : Cmd, (opcodeRows.filter (·.covers c)).length = 1 := by decide +kernel

theorem test_assemble : assemble ⟨"ENTRY", [("id", 1), ("s", 0)], none⟩ = some 0x006 ∧
    assemble ⟨"ENTRY", [("id", 0), ("s", 1)], none⟩ = some 0x005 ∧
    assemble ⟨"DISPCTL", [("d", 1), ("c", 1), ("b", 1)], none⟩ = some 0x00F ∧
    assemble ⟨"SHIFT", [("sc", 1), ("rl", 1)], none⟩ = some 0x01C ∧
    assemble ⟨"FUNCSET", [("dl", 0), ("n", 1), ("f", 0)], none⟩ = some 0x028 ∧
    assemble ⟨"FUNCSET", [("dl", 1), ("n", 1), ("f", 1)], none⟩ = some 0x03C ∧
    assemble ⟨"SETCG", [("a", 63)], none⟩ = some 0x07F ∧ assemble ⟨"SETDD", [("a", 0x67)], none⟩ = some 0x0E7 ∧
    assemble ⟨"WRDATA", [("v", 255)], none⟩ = some 0x2FF := by decide
theorem test_assemble_refused : assemble ⟨"SETCG", [("a", 64)], none⟩ = none ∧ assemble ⟨"ENTRY", [("id", 2), ("s", 0)], none⟩ = none ∧
    assemble ⟨".word", [], some 0x400⟩ = none ∧ assemble ⟨"NOPE", [], none⟩ = none := by decide

theorem test_nibbles : Cmd.hi 0x241 = 0x4 ∧ Cmd.lo 0x241 = 0x1 ∧ Cmd.rs 0x241 = true ∧ joinNibbles 0x4 0x1 = 0x41 := by decide
theorem test_expByte : expByte (m := { }) true false true true 0x4 = 0x4D ∧ expByte (m := { }) false true false true 0xF = 0xFA := by
  decide
theorem test_busyFlag : busyFlag 0xA7 = true ∧ addressCounter 0xA7 = 0x27 ∧ busyFlag 0x40 = false ∧ addressCounter 0x40 = 0x40 := by
  decide

/-! ### Construction (70_reset_and_hazards.md R190) -/

theorem test_construct_reset : construct Config.atReset = .ok State.reset := by decide +kernel
theorem test_construct_power : construct { p8 with tPowerMs := 39 } = .error (.e1 (.badConfig .powerWait)) := by decide +kernel
theorem test_construct_address : construct { i2c with i2cAddrCfg := some 128 } = .error (.e1 (.badConfig .i2cAddress)) := by
  decide +kernel
theorem test_construct_map : construct { i2c with i2cMap := { bl := 2 } } = .error (.e1 (.badConfig .i2cMap)) := by decide +kernel
theorem test_construct_pins : construct { p8 with pins := [(.rs, 3), (.e, 3)] } = .error (.e1 (.badConfig .pinTwice)) := by
  decide +kernel

/-! ### Command words (section 2.2, write-only Parallel-8) -/

/-- A cycle written out: RS, D7..D0, the address setup, the pulse (41_transport.md R103, 40_commands.md R80). -/
theorem test_clear_trace : nextSat (exec .clear (ready p8)) fun t => t.trace ==
    [.drive .rs false, .drive (.data 7) false, .drive (.data 6) false, .drive (.data 5) false, .drive (.data 4) false,
      .drive (.data 3) false, .drive (.data 2) false, .drive (.data 1) false, .drive (.data 0) true, .sleepUs 1,
      .drive .e true, .sleepUs 1, .drive .e false, .sleepUs 1, .sleepUs 3000] && t.acSpace == .ddram := by decide +kernel
theorem test_home_delay : nextSat (exec (.home true) (ready p8)) fun t => t.log.head? == some (.sleepUs 3000) := by decide +kernel
theorem test_entry_keeps_em : nextSat (exec (.entry false true) (ready p8)) fun t =>
    t.trace == wordsTrace (ready p8) [0x005] && t.em == 0x006 := by decide +kernel
theorem test_dispctl_keeps_dc : nextSat (exec (.dispctl false true false) (ready p8)) fun t =>
    t.trace == wordsTrace (ready p8) [0x00A] && t.dc == 0x00C := by decide +kernel
theorem test_shift_trace : nextSat (exec (.shift true false 0) (ready p8)) fun t => t.trace == wordsTrace (ready p8) [0x018] := by
  decide +kernel
theorem test_funcset_keeps_fs : nextSat (exec (.funcset false true true 0) (ready p8)) fun t =>
    t.trace == wordsTrace (ready p8) [0x02C] && t.fs == 0x038 := by decide +kernel
theorem test_setcg_space : nextSat (exec (.setcg 8) (ready p8)) fun t =>
    t.trace == wordsTrace (ready p8) [0x048] && t.acSpace == .cgram := by decide +kernel
theorem test_setdd_space : nextSat (exec (.setdd 0x40) (ready p8)) fun t =>
    t.trace == wordsTrace (ready p8) [0x0C0] && t.acSpace == .ddram := by decide +kernel
theorem test_wrdata_trace : nextSat (exec (.wrdata 0x41) (ready p8)) fun t => t.trace == wordsTrace (ready p8) [0x241] := by
  decide +kernel
theorem test_noneWord_trace : nextSat (exec .noneWord (ready p8)) fun t => t.trace == wordsTrace (ready p8) [0x000] := by decide +kernel
/-- The word's own read answers 0x27, then the poll reads 0x00, not busy (42_execute.md R137). -/
theorem test_rdbf_value : nextSat (exec (.rdbf 0) (withTicks (withReads (ready i2c) [0x20, 0x70, 0x00, 0x00]) [7])) fun t =>
    t.reply == .returned (.byte 0x27) && t.env.reads == [] := by decide +kernel
theorem test_rdbf_writeOnly : nextSat (exec (.rdbf 0) (ready p8)) fun t =>
    t.reply == .error (.e2 .readUnsupported) && t.trace == [] := by decide +kernel
theorem test_rddata_value : nextSat (exec (.rddata 0) (withTicks (withReads (ready i2c) [0x4F, 0x8F, 0x00, 0x00]) [7])) fun t =>
    t.reply == .returned (.byte 0x48) && bytesOf t.trace == [0xF3, 0xF7, 0xF3, 0xF3, 0xF7, 0xF3, 0xF2, 0xF6, 0xF2, 0xF2, 0xF6, 0xF2] := by
  decide +kernel

/-! ### Completion (section 2.4, readable Parallel-8) -/

/-- Busy three times at the ticks 100, 100, 103, 104: the warning comes after 104, no error (section 3, P4: 71 events). -/
theorem test_busy_timeout : nextSat (exec .clear (withTicks (withSamples (ready p8r) (List.replicate 24 true)) [100, 0, 3, 1])) fun t =>
    t.log.head? == some (.warn 0x001) && t.trace.length == 71 && t.reply == .returned .nothing && t.phase == .ready := by
  decide +kernel
/-- Busy, then not busy: two reads, no warning. -/
theorem test_busy_then_clear : nextSat (exec .clear (withTicks (withSamples (ready p8r) (List.replicate 8 true ++ List.replicate 8 false)) [50, 0]))
    fun t => t.trace.length == 15 + 1 + 17 + 1 + 17 && t.log.all (!·.isWarn) := by decide +kernel

/-! ### execute_command, is_command_supported (section 2.4) -/

theorem test_executeCommand_range : nextSat (exec (.executeCommand 0x400) (ready p8)) fun t =>
    t.reply == .error (.e2 (.outOfRange 0x400)) && t.trace == [] := by decide +kernel
theorem test_executeCommand_notReady : faultOf (exec (.executeCommand 0x001) State.reset) = some .notReady := by decide +kernel
theorem test_supported : nextSat (exec (.isCommandSupported 0x3FF) (ready p8)) (fun t => t.reply == .returned (.truth false)) ∧
    nextSat (exec (.isCommandSupported 0x3FF) (ready p8r)) (fun t => t.reply == .returned (.truth true)) := by decide +kernel
theorem test_supported_failed : nextSat (exec (.isCommandSupported 0x241) { ready p8 with phase := .failed })
    (fun t => t.reply == .returned (.truth true)) ∧
    nextSat (exec (.isCommandSupported 0x400) (ready p8r)) (fun t => t.reply == .returned (.truth false)) := by decide +kernel

/-! ### Transport (section 2.3) -/

theorem test_busWriteP8 : nextSat (exec (.busWriteP8 0x241) (ready { p8 with rwWired := true })) fun t => t.trace ==
    [.drive .rs true, .drive .rw false, .drive (.data 7) false, .drive (.data 6) true, .drive (.data 5) false,
      .drive (.data 4) false, .drive (.data 3) false, .drive (.data 2) false, .drive (.data 1) false, .drive (.data 0) true,
      .sleepUs 1, .drive .e true, .sleepUs 1, .drive .e false, .sleepUs 1] := by decide +kernel
theorem test_busWriteP4 : nextSat (exec (.busWriteP4 0x0C5) (ready p4)) fun t => t.trace ==
    [.drive .rs false, .drive (.data 7) true, .drive (.data 6) true, .drive (.data 5) false, .drive (.data 4) false,
      .sleepUs 1, .drive .e true, .sleepUs 1, .drive .e false, .sleepUs 1,
      .drive .rs false, .drive (.data 7) false, .drive (.data 6) true, .drive (.data 5) false, .drive (.data 4) true,
      .sleepUs 1, .drive .e true, .sleepUs 1, .drive .e false, .sleepUs 1] := by decide +kernel
theorem test_busWriteI2C : nextSat (exec (.busWriteI2C 0x241) { ready i2c with bl := true }) fun t =>
    bytesOf t.trace == [0x49, 0x4D, 0x49, 0x19, 0x1D, 0x19] && t.lvl.i2c == .driven 0x19 := by decide +kernel
theorem test_busWriteI2C_dark : nextSat (exec (.busWriteI2C 0x028) (ready i2c)) fun t =>
    bytesOf t.trace == [0x20, 0x24, 0x20, 0x80, 0x84, 0x80] := by decide +kernel
theorem test_busWrite_direction : nextSat (exec (.busWriteP8 0x100) (ready p8)) fun t =>
    t.reply == .error (.e1 (.wrongDirection 0x100)) && t.trace == [] := by decide +kernel
theorem test_busWrite_range : nextSat (exec (.busWriteP4 0x400) (ready p4)) fun t =>
    t.reply == .error (.e1 (.commandOutOfRange 0x400)) := by decide +kernel
theorem test_busReadP8 : nextSat (exec (.busReadP8 0x100)
    (withSamples (ready p8r) [false, false, false, false, false, true, true, true])) fun t =>
    t.reply == .returned (.byte 0x07) && t.dir == Vector.replicate 8 .out := by decide +kernel
/-- The latch stays (41_transport.md R108), the line carries no known level (93_implementation_defined.md U16). -/
theorem test_busReadP8_lines : nextSat (exec (.busReadP8 0x100) (withSamples
    { ready p8r with lvl := Levels.unknown.drive (.data 7) true } (List.replicate 8 false))) fun t =>
    t.lvl.data[7] == .driven true && t.lvl.wire[7] == .unknown && t.lvl.data[6] == .unknown := by decide +kernel
theorem test_busReadP4 : nextSat (exec (.busReadP4 0x100)
    (withSamples (ready p4r) [false, true, false, false, false, true, false, true])) fun t =>
    t.reply == .returned (.byte 0x45) && t.trace.take 10 == [.setDir [7, 6, 5, 4] .inp, .drive .rs false, .drive .rw true,
      .sleepUs 1, .drive .e true, .sleepUs 1, .sample (.data 7) false, .sample (.data 6) true, .sample (.data 5) false,
      .sample (.data 4) false] && t.trace.length == 24 := by decide +kernel
theorem test_busReadI2C : nextSat (exec (.busReadI2C 0x100) (withReads { ready i2c with bl := true } [0x0F, 0x7F])) fun t =>
    t.reply == .returned (.byte 0x07) && bytesOf t.trace == [0xFA, 0xFE, 0xFA, 0xFA, 0xFE, 0xFA] := by decide +kernel
theorem test_busRead_direction : nextSat (exec (.busReadI2C 0x241) (ready i2c)) fun t =>
    t.reply == .error (.e1 (.wrongDirection 0x241)) := by decide +kernel
theorem test_busRead_writeOnly : nextSat (exec (.busReadP8 0x100) (ready p8)) fun t =>
    t.reply == .error (.e2 .readUnsupported) && t.trace == [] := by decide +kernel
theorem test_busSetBacklightPar : nextSat (exec (.busSetBacklightPar true) (ready p8r)) (fun t => t.trace == [.drive .bl true] && t.bl) ∧
    nextSat (exec (.busSetBacklightPar true) (ready p8)) (fun t => t.reply == .error (.e2 .backlightUnsupported)) := by decide +kernel
theorem test_busSetBacklightI2C : nextSat (exec (.busSetBacklightI2C true) (ready i2c)) (fun t => t.trace == [.i2cWrite 0x27 0x08] && t.bl) ∧
    nextSat (exec (.busSetBacklightI2C false) { ready i2c with bl := true }) (fun t => t.trace == [.i2cWrite 0x27 0x00] && !t.bl) := by
  decide +kernel
theorem test_busInitP8 : nextSat (exec .busInitP8 State.reset) fun t => t.trace.length == 46 &&
    t.trace.head? == some (.sleepMs 150) && t.log.head? == some (.sleepMs 1) && t.phase == .constructed := by decide +kernel
/-- Section 1, L1.8: 44 events, no read. -/
theorem test_busInitP4 : nextSat (exec .busInitP4 (State.constructed p4)) fun t => t.trace.length == 44 &&
    t.trace.all (!·.isRead) && t.lvl.data[5] == .driven true && t.lvl.data[4] == .driven false := by decide +kernel
theorem test_busInitI2C : nextSat (exec .busInitI2C (withScan (State.constructed i2c) [0x27])) fun t => t.trace.length == 29 &&
    bytesOf t.trace == [0x30, 0x34, 0x30, 0x30, 0x34, 0x30, 0x30, 0x34, 0x30, 0x20, 0x24, 0x20] && t.i2cAddr == some 0x27 := by
  decide +kernel
theorem test_scan_configured : nextSat (exec .busInitI2C (withScan (State.constructed { i2c with i2cAddrCfg := some 0x3F }) [0x27, 0x3F]))
      (fun t => t.i2cAddr == some 0x3F) ∧
    nextSat (exec .busInitI2C (withScan (State.constructed { i2c with i2cAddrCfg := some 0x3F }) [0x27]))
      (fun t => t.reply == .error (.e3 (.addressMissing 0x3F)) && t.phase == .failed) ∧
    nextSat (exec .busInitI2C (withScan (State.constructed i2c) [0x27, 0x3F]))
      (fun t => t.reply == .error (.e3 (.ambiguous [0x27, 0x3F]))) := by decide +kernel
theorem test_variant_refused : refusalOf (exec (.busWriteP4 0) (ready p8)) = some (.variantMismatch .parallel8) ∧
    refusalOf (exec (.busSetBacklightPar true) (ready i2c)) = some (.variantMismatch .i2cMux4) := by decide +kernel
theorem test_address_refused : refusalOf (exec .clear (State.constructed i2c)) = some .i2cAddressUnresolved := by decide +kernel

/-! ### Cursor (section 2.5) -/

theorem test_setCursorPosition : nextSat (exec (.setCursorPosition 39 1) (ready p8)) fun t =>
    t.trace == wordsTrace (ready p8) [0x0E7] && t.acSpace == .ddram := by decide +kernel
theorem test_setCursorPosition_order : nextSat (exec (.setCursorPosition 40 2) (ready p8)) fun t =>
    t.reply == .error (.e1 (.columnOutOfRange 40)) && t.trace == [] := by decide +kernel
theorem test_getCursorPosition : nextSat (exec .getCursorPosition
    (withTicks (withReads (ready i2c) [0xA0, 0x70, 0x00, 0x00]) [7])) fun t => t.reply == .returned (.position 39 0) := by decide +kernel
theorem test_getCursorPosition_outside : faultOf (exec .getCursorPosition
    (withTicks (withReads (ready i2c) [0x60, 0x80, 0x00, 0x00]) [7])) = some (.internalInvariant 0x68) := by decide +kernel
theorem test_moveCursorLeft : nextSat (exec .moveCursorLeft (ready p8)) fun t => t.trace == wordsTrace (ready p8) [0x010] := by
  decide +kernel
theorem test_moveCursorRight : nextSat (exec .moveCursorRight (ready p8)) (fun t => t.trace == wordsTrace (ready p8) [0x014]) ∧
    faultOf (exec .moveCursorRight { ready p8 with acSpace := .cgram }) = some .cgramPointerHazard := by decide +kernel
theorem test_scroll_left : nextSat (exec .scrollDisplayLeft { ready p8 with acSpace := .cgram })
      (fun t => t.trace == wordsTrace (ready p8) [0x01C]) ∧
    nextSat (exec .scrollDisplayLeft (ready { p8 with scrollRlInverted := false }))
      (fun t => t.trace == wordsTrace (ready p8) [0x018]) := by decide +kernel
theorem test_scroll_right : nextSat (exec .scrollDisplayRight (ready p8)) fun t => t.trace == wordsTrace (ready p8) [0x018] := by
  decide +kernel

/-! ### Text and glyphs (section 2.6) -/

theorem test_createCharacter : nextSat (exec (.createCharacter 3 [0x0E, 0x11, 0x11, 0x11, 0x1F, 0x11, 0x11, 0x00]) (ready p8)) fun t =>
    t.trace == wordsTrace (ready p8) [0x058, 0x20E, 0x211, 0x211, 0x211, 0x21F, 0x211, 0x211, 0x200] && t.acSpace == .cgram := by
  decide +kernel
theorem test_createCharacter_row : nextSat (exec (.createCharacter 0 [0, 0, 32, 0, 0, 0, 0, 0]) (ready p8)) fun t =>
    t.reply == .error (.e1 (.bitmapRowOutOfRange 2 32)) && t.trace == [] := by decide +kernel
theorem test_mapCharacter : nextSat (exec (.mapCharacter 0x78 1) State.reset) (fun t => t.cmap == [(0x78, 1)]) ∧
    nextSat (exec (.mapCharacter 0x78 256) State.reset) (fun t => t.reply == .error (.e1 (.characterCodeOutOfRange 256))) := by
  decide +kernel
theorem test_unmapCharacter : nextSat (exec (.unmapCharacter 0x41) { ready p8 with cmap := [(0x41, 7), (0x42, 1)] }) (fun t => t.cmap == [(0x42, 1)]) ∧
    nextSat (exec (.unmapCharacter 0x5A) (ready { p8 with unmapAbsentError := true })) (fun t => t.reply == .error (.e1 (.notMapped 0x5A))) := by
  decide +kernel
theorem test_writeText : nextSat (exec (.writeText 0 0 [0xE9, 0x20AC]) (ready p8)) fun t =>
    t.trace == wordsTrace (ready p8) [0x080, 0x2E9, 0x220] := by decide +kernel
theorem test_writeText_mapped : nextSat (exec (.writeText 0 0 [0x2605, 0x42]) { ready p8 with cmap := [(0x2605, 3)] }) fun t =>
    t.trace == wordsTrace (ready p8) [0x080, 0x203, 0x242] := by decide +kernel
theorem test_writeCode : nextSat (exec (.writeCode 39 1 0x7E) (ready p8)) (fun t => t.trace == wordsTrace (ready p8) [0x0E7, 0x27E]) ∧
    nextSat (exec (.writeCode 0 0 256) (ready p8)) (fun t => t.trace == []) := by decide +kernel
theorem test_writeCodes : nextSat (exec (.writeCodes 0 1 [0, 1, 2]) (ready p8)) (fun t => t.trace == wordsTrace (ready p8) [0x0C0, 0x200, 0x201, 0x202]) ∧
    nextSat (exec (.writeCodes 0 0 [1, 300]) (ready p8)) (fun t => t.reply == .error (.e1 (.characterCodeOutOfRange 300)) && t.trace == []) := by
  decide +kernel
theorem test_readCode : nextSat (exec (.readCode 2 0)
    (withTicks (withReads (ready i2c) [0x00, 0x00, 0x40, 0x80, 0x00, 0x00]) [7, 0])) fun t =>
    t.reply == .returned (.byte 0x48) := by decide +kernel
theorem test_readCode_order : nextSat (exec (.readCode 40 0) (ready p8)) (fun t => t.reply == .error (.e2 .readUnsupported)) ∧
    nextSat (exec (.readCode 40 0) (ready p8r)) (fun t => t.reply == .error (.e1 (.columnOutOfRange 40))) := by decide +kernel

/-! ### Flags and backlight (section 2.7) -/

theorem test_setDisplayOff : nextSat (exec .setDisplayOff (ready p8)) fun t => t.trace == wordsTrace (ready p8) [0x008] && t.dc == 0x008 := by
  decide +kernel
theorem test_setDisplayOn : nextSat (exec .setDisplayOn { ready p8 with dc := 0x00B }) fun t => t.trace == wordsTrace (ready p8) [0x00F] && t.dc == 0x00F := by
  decide +kernel
theorem test_setAutoscrollOn : nextSat (exec .setAutoscrollOn (ready p8)) fun t => t.trace == wordsTrace (ready p8) [0x007] && t.em == 0x007 := by
  decide +kernel
theorem test_setAutoscrollOff : nextSat (exec .setAutoscrollOff { ready p8 with em := 0x005 }) fun t => t.em == 0x004 := by decide +kernel
theorem test_setLeftToRight : nextSat (exec .setLeftToRight { ready p8 with em := 0x005 }) fun t => t.em == 0x007 := by decide +kernel
theorem test_setRightToLeft : nextSat (exec .setRightToLeft { ready p8 with em := 0x007 }) fun t =>
    t.trace == wordsTrace (ready p8) [0x005] && t.em == 0x005 := by decide +kernel
theorem test_setCursorType : nextSat (exec (.setCursorType (.known .both)) { ready p8 with dc := 0x008 }) (fun t => t.dc == 0x00B) ∧
    nextSat (exec (.setCursorType (.known .blinkingBlock)) (ready p8)) (fun t => t.trace == wordsTrace (ready p8) [0x00D]) := by decide +kernel
theorem test_setBacklightOn : nextSat (exec .setBacklightOn (ready p8)) fun t =>
    t.reply == .error (.e2 .backlightUnsupported) && !t.bl && t.trace == [] := by decide +kernel
theorem test_setBacklightOff : nextSat (exec .setBacklightOff { ready i2c with bl := true }) fun t => t.trace == [.i2cWrite 0x27 0x00] && !t.bl := by
  decide +kernel

/-! ### Phases, failures, init (section 2.8, section 3) -/

theorem test_notReady : faultOf (exec (.writeText 0 0 [0x41]) State.reset) = some .notReady := by decide +kernel
theorem test_failed : faultOf (exec .init { ready p8 with phase := .failed }) = some .useAfterFailure := by decide +kernel
/-- A failure drawn for the third `Drive` (section 2.8). -/
theorem test_platform_failure : nextSat (exec (.writeText 0 0 [0x41]) (withFaults (ready p8) [false, false, true])) fun t =>
    t.trace == [.drive .rs false, .drive (.data 7) true, .platformFail .drive] && t.reply == .error (.e3 (.platformError .drive)) &&
      t.phase == .failed := by decide +kernel
/-- P1: `init` of write-only Parallel-8 is 1201 events and ends in `Ready`. -/
theorem test_init_parallel8 : nextSat (exec .init State.reset) fun t => t.trace.length == 1201 && t.phase == .ready &&
    t.fs == 0x038 && t.acSpace == .ddram && t.lvl.e == .driven false := by decide +kernel
/-- P2: `init` of write-only I2C-Mux4 is 1031 events. -/
theorem test_init_i2c : nextSat (exec .init (withScan (State.constructed i2cw) [0x27])) fun t => t.trace.length == 1031 &&
    t.i2cAddr == some 0x27 && t.bl && t.fs == 0x028 && t.lvl.i2c == .driven 0x08 := by decide +kernel
/-- L1.9: no device. -/
theorem test_init_noDevice : nextSat (exec .init (withScan (State.constructed i2c) [])) fun t => t.trace == [.i2cScan []] &&
    t.reply == .error (.e3 .noDevice) && t.phase == .failed := by decide +kernel

/-! ### Witnesses: for each obligation with hypotheses, a state and operands that meet them, clause by clause -/

/-- A `Ready` driver with words in the queue to serve. -/
def busy (l : List Request) : State := withCalls (ready p8) (l.map (⟨false, ·⟩))

/-- Every combination of primitives not failing on the three transports. -/
theorem witness_busOk : (ready p8).busOk = true ∧ (ready p8r).busOk = true ∧ (ready p4).busOk = true ∧ (ready p4r).busOk = true ∧
    (ready i2c).busOk = true ∧ (withFaults (ready i2cw) [false, false]).busOk = true ∧
    (withFaults (ready { p8 with platformFaults := false }) [true]).busOk = true := by decide

theorem witness_ConstructionChecks : construct { i2c with i2cAddrCfg := some 127, tPowerMs := 40 } =
    .ok (State.constructed { i2c with i2cAddrCfg := some 127, tPowerMs := 40 }) := by decide +kernel

theorem witness_StepRunsTheCalledInstruction : (busy [.word 1023]).calls = ⟨false, .word 1023⟩ :: [] ∧
    (busy [.op .clear]).calls = ⟨false, .op .clear⟩ :: [] ∧ Instr.clear.wf = true ∧ (busy []).calls = [] ∧
    decodeTableWord 16 0x3FF = some (.rddata 0xFF) := by decide

theorem witness_CallsThatDoNotRun : (withCalls (ready p8) [⟨true, .word 1⟩]).calls = ⟨true, .word 1⟩ :: [] ∧
    (busy [.word 1024]).calls = ⟨false, .word 1024⟩ :: [] ∧
    (busy [.op (.unmapCharacter 0xD800)]).calls = ⟨false, .op (.unmapCharacter 0xD800)⟩ :: [] ∧
    (Instr.unmapCharacter 0xD800).wf = false ∧ (busy [.unknown "blink"]).calls = ⟨false, .unknown "blink"⟩ :: [] := by decide

theorem witness_EncodeDecodeAgree : encode (.home true) = some 0x003 ∧ encode (.rddata 0xFF) = some 0x3FF := by decide

theorem witness_inv : Inv (ready p8) where
  em := by decide
  dc := by decide
  fs := by decide
  cmap := by decide
  phase := by decide
  noAddr := by decide
  addr := by decide
  bl := by decide
  dir := by decide
  e := by decide

theorem witness_StepKeepsInv : Inv { ready p8 with calls := [⟨false, .op .setDisplayOff⟩] } ∧
    ∃ t, step { ready p8 with calls := [⟨false, .op .setDisplayOff⟩] } = .next t :=
  ⟨{ witness_inv with }, (of_nextSat (p := fun _ => true) (by decide +kernel)).imp fun _ h => h.1⟩

theorem witness_PhaseTransitions : (∃ t, step { ready p8 with phase := .failed } = .next t) ∧
    (∃ t, exec .init State.reset = .next t ∧ (t.reply == .returned .nothing) = true) ∧
    (∃ t, exec .init (withFaults State.reset [false, true]) = .next t ∧ (t.phase == .failed) = true) ∧
    (∃ t, exec .clear (withFaults (ready p8) [true]) = .next t ∧ (t.reply == .error (.e3 (.platformError .drive))) = true) ∧
    (∃ t, exec .clear (ready p8) = .next t ∧ (t.phase == .ready) = true) :=
  ⟨(of_nextSat (p := fun _ => true) (by decide +kernel)).imp fun _ h => h.1, of_nextSat (by decide +kernel),
    of_nextSat (by decide +kernel), of_nextSat (by decide +kernel), of_nextSat (by decide +kernel)⟩

theorem witness_PhaseFaults : isPublic .init = true ∧ ({ ready p8 with phase := .failed } : State).phase = .failed ∧
    (∀ c, Instr.init ≠ .isCommandSupported c) ∧ isPublic (.writeCode 40 2 256) = true ∧ State.reset.phase = .constructed ∧
    allowedBeforeInit (.writeCode 40 2 256) = false := by
  refine ⟨rfl, rfl, fun _ h => (by cases h), rfl, rfl, rfl⟩

theorem witness_ValidationErrorsChangeNothing : Inv (ready p8) ∧
    (∃ t, exec (.setCursorPosition 40 0) (ready p8) = .next t ∧ (t.reply == .error (.e1 (.columnOutOfRange 40))) = true) ∧
    (∃ t, exec .getCursorPosition (ready p8) = .next t ∧ (t.reply == .error (.e2 .readUnsupported)) = true) :=
  ⟨witness_inv, of_nextSat (by decide +kernel), of_nextSat (by decide +kernel)⟩

theorem witness_PlatformFailureIsRecorded : ∃ t, exec .clear (withFaults (ready p8) [true]) = .next t ∧
    (t.reply == .error (.e3 (.platformError .drive))) = true := of_nextSat (by decide +kernel)

theorem witness_TraceAndTicksOnlyGrow : ∃ t, step (busy [.word 0x001]) = .next t ∧ (t.trace.length == 15) = true :=
  of_nextSat (by decide +kernel)

theorem witness_ConfigurationIsReadOnly : ∃ t, step (busy [.op (.mapCharacter 0x41 255)]) = .next t ∧ (t.cmap == [(0x41, 255)]) = true :=
  of_nextSat (by decide +kernel)

theorem witness_CharacterMapWriters : (∃ t, exec .clear (ready p8) = .next t ∧ (t.cmap == []) = true) ∧
    (∃ t, exec (.mapCharacter 0x10FFFF 0) (ready p8) = .next t ∧ (t.cmap == [(0x10FFFF, 0)]) = true) ∧
    (∃ t, exec (.unmapCharacter 0x41) { ready p8 with cmap := [(0x41, 7)] } = .next t ∧ (t.cmap == []) = true) ∧
    CharMap.wf [(0, 255), (0x41, 7)] = true ∧ (∀ ch, CharMap.get [(0, 255), (0x41, 7)] ch = CharMap.get [(0, 255), (0x41, 7)] ch) ∧
    ((∃ t, step { busy [.op (.mapCharacter 0xE000 255)] with cmap := [(0xD7FF, 0)] } = .next t ∧
      (t.cmap == [(0xD7FF, 0), (0xE000, 255)]) = true) ∧ isScalar 0xD7FF = true) :=
  ⟨of_nextSat (by decide +kernel), of_nextSat (by decide +kernel), of_nextSat (by decide +kernel), by decide, fun _ => rfl,
    of_nextSat (by decide +kernel), by decide⟩

theorem witness_RegisterWriters : (∃ t, exec .setAutoscrollOn (ready p8) = .next t ∧ (t.dc == 0x00C) = true) ∧
    (∃ t, exec .setDisplayOff (ready p8) = .next t ∧ (t.em == 0x006) = true) ∧
    (∃ t, exec (.funcset true false true 3) (ready p8) = .next t ∧ (t.fs == 0x038) = true) :=
  ⟨of_nextSat (by decide +kernel), of_nextSat (by decide +kernel), of_nextSat (by decide +kernel)⟩

theorem witness_ExpanderBytesCarryTheBacklight : ∃ t, exec (.wrdata 0x41) (ready i2cw) = .next t ∧
    (bytesOf t.trace == [0x41, 0x45, 0x41, 0x11, 0x15, 0x11]) = true := of_nextSat (by decide +kernel)

theorem witness_WarningsNeedReadableBus : (ready p8).cfg.canRead = false ∧
    ∃ t, exec .clear (ready p8) = .next t ∧ (t.trace.length == 15) = true := ⟨rfl, of_nextSat (by decide +kernel)⟩

theorem witness_WriteWordsComplete : encode .noneWord = some 0x000 ∧ (0x000 : Cmd).getLsbD 8 = false ∧
    encode (.wrdata 0xFF) = some 0x2FF ∧ (0x2FF : Cmd).getLsbD 8 = false ∧ (ready p8).busOk = true := by decide

theorem witness_WriteOnlyWordTrace : encode (.home true) = some 0x003 ∧ (0x003 : Cmd).getLsbD 8 = false ∧
    encode (.entry false false) = some 0x004 ∧ (0x004 : Cmd).getLsbD 8 = false ∧ (ready i2cw).busOk = true ∧
    (ready i2cw).cfg.canRead = false := by decide

theorem witness_ReadWords : (ready p8r).cfg.canRead = true ∧ (ready p8r).busOk = true ∧ (ready p8).cfg.canRead = false := by decide

theorem witness_FixedDelayCompletion : (ready p8).cfg.canRead = false ∧ (ready i2cw).cfg.canRead = false := by decide

theorem witness_BusyPollEnds : (ready p8r).cfg.canRead = true ∧ (ready p8r).busOk = true ∧ (ready i2c).cfg.canRead = true ∧
    (ready i2c).busOk = true := by decide

theorem witness_ExecuteCommandRunsTheWord : (ready p8).phase = .ready ∧ 1024 ≤ 1024 ∧
    ((0x1FF : Nat) < 1024 ∧ (0x1FF : Nat).testBit 8 = true ∧ (ready p8).cfg.canRead = false) ∧
    ((0x2FF : Nat) < 1024 ∧ (0x2FF : Nat).testBit 8 = false ∧ (ready p8).busOk = true) ∧
    ((0x3FF : Nat) < 1024 ∧ (ready p8r).phase = .ready ∧ (ready p8r).cfg.canRead = true ∧ (ready p8r).busOk = true) := by decide

theorem witness_SetCursorPosition : (ready p8).phase = .ready ∧ (39 ≤ 39 ∧ 1 ≤ 1 ∧ (ready p8).busOk = true) ∧ 39 < 40 ∧
    (39 ≤ 39 ∧ 1 < 2) := by decide

/-- The address read is 0x67, the last position, and then 0x68, outside both windows. -/
theorem witness_GetCursorPosition : (ready p8).phase = .ready ∧ (ready p8).cfg.canRead = false ∧
    ((ready i2c).cfg.canRead = true ∧ ({ ready i2c with acSpace := .cgram } : State).acSpace = .cgram) ∧
    ((ready i2c).acSpace ≠ .cgram ∧ (ready i2c).busOk = true ∧ (withReads (ready i2c) [0x60, 0x70]).nextRead.toNat % 128 = 0x40 + 39) ∧
    (withReads (ready i2c) [0x60, 0x80]).nextRead.toNat % 128 = 0x68 ∧
    (∀ col line, col ≤ 39 → line ≤ 1 → 0x68 ≠ (if line = 0 then 0x00 else 0x40) + col) := by
  refine ⟨by decide, by decide, by decide, by decide, by decide, fun col line h _ => ?_⟩
  split <;> omega

theorem witness_AddressTranslationInverse : ddramInverse 0x67 = some (39, 1) ∧ ddramInverse 0x27 = some (39, 0) ∧
    ddramInverse 0x28 = none ∧ ddramInverse 0x3F = none ∧ ddramInverse 0x68 = none := by decide

theorem witness_MoveCursor : (ready p8).phase = .ready ∧ ({ ready p8 with acSpace := .cgram } : State).acSpace = .cgram ∧
    (ready p8).acSpace ≠ .cgram ∧ (ready p8).busOk = true := by decide

theorem witness_ScrollDisplay : (ready p8).phase = .ready ∧ (ready p8).busOk = true := by decide

theorem witness_CreateCharacterIssuesTheGlyph : (ready p8).phase = .ready ∧ 7 ≤ 7 ∧ [31, 0, 0, 0, 0, 0, 0, 31].length = 8 ∧
    (∀ v ∈ [31, 0, 0, 0, 0, 0, 0, 31], v ≤ 31) ∧ (ready p8).busOk = true := by decide

theorem witness_CreateCharacterChecks : (ready p8).phase = .ready ∧ 7 < 8 ∧ (7 ≤ 7 ∧ [1, 2, 3, 4, 5, 6, 7].length ≠ 8) ∧
    ([0, 31, 32, 33, 0, 0, 0, 0].length = 8 ∧ [0, 31, 32, 33, 0, 0, 0, 0] = [0, 31] ++ 32 :: [33, 0, 0, 0, 0] ∧
      (∀ r ∈ [0, 31], r ≤ 31) ∧ 31 < 32) := by decide

theorem witness_CgramPointerHazard :
    (∃ t, exec (.createCharacter 7 [0, 1, 2, 3, 4, 5, 6, 31]) (ready p8) = .next t ∧
      (t.reply == .returned .nothing && t.busOk) = true) ∧
    ∃ t, exec (.createCharacter 0 [0, 0, 0, 0, 0, 0, 0, 0])
        (withTicks (withReads (ready i2c) (List.replicate 18 0)) (List.replicate 9 0)) = .next t ∧
      (t.reply == .returned .nothing && t.cfg.canRead) = true :=
  ⟨of_nextSat (by decide +kernel), of_nextSat (by decide +kernel)⟩

theorem witness_MapCharacter : State.reset.phase ≠ .failed ∧ ((0 : Int) ≤ 255 ∧ (255 : Int) ≤ 255) ∧ ((-1 : Int) < 0) ∧
    (255 : Int) < 256 := by decide

theorem witness_UnmapCharacter : State.reset.phase ≠ .failed ∧ CharMap.wf [(0x41, 7)] = true ∧ CharMap.get [(0x41, 7)] 0x41 = some 7 ∧
    CharMap.get [(0x41, 7)] 0x42 = none ∧ State.reset.cfg.unmapAbsentError = false ∧
    (ready { p8 with unmapAbsentError := true }).cfg.unmapAbsentError = true := by decide

theorem witness_CharacterResolution : CharMap.get [(0x41, 7)] 0x41 = some 7 ∧ CharMap.get [(0x41, 7)] 255 = none ∧ 255 ≤ 255 ∧
    CharMap.get [(0x41, 7)] 256 = none ∧ 255 < 256 := by decide

theorem witness_WriteText : (ready p8).phase = .ready ∧ (39 ≤ 39 ∧ 1 ≤ 1 ∧ (ready p8).busOk = true) ∧ 39 < 40 ∧ 1 < 2 := by decide

theorem witness_WriteCodes : (ready p8).phase = .ready ∧ 39 ≤ 39 ∧ 1 ≤ 1 ∧ (ready p8).busOk = true ∧
    (∀ k ∈ [(0 : Int), 255], 0 ≤ k ∧ k ≤ 255) ∧ ((0 : Int) ≤ 255 ∧ (255 : Int) ≤ 255) := by decide

theorem witness_WriteCodesChecks : (ready p8).phase = .ready ∧ 39 < 40 ∧ (39 ≤ 39 ∧ 1 < 2) ∧ (0 ≤ 39 ∧ 1 ≤ 1 ∧
    (∀ j ∈ [(0 : Int), 255], 0 ≤ j ∧ j ≤ 255) ∧ (255 : Int) < 256) ∧ (-1 : Int) < 0 := by decide

theorem witness_ReadCode : (ready p8).phase = .ready ∧ (ready p8).cfg.canRead = false ∧ ((ready p8r).cfg.canRead = true ∧ 39 < 40) ∧
    (39 ≤ 39 ∧ 1 < 2) ∧ (39 ≤ 39 ∧ 1 ≤ 1 ∧ (ready p8r).busOk = true) := by decide

theorem witness_DisplayMutators : (ready p8).phase = .ready ∧ (ready p8).dc &&& 0x3F8 = 0x008 ∧ (ready p8).busOk = true ∧
    nextSat (exec .setDisplayOn (withFaults { ready p8 with dc := 0x008 } [true])) (fun t => t.dc == 0x00C && t.phase == .failed) ∧
    nextSat (exec .setDisplayOff (ready p8)) (fun t => t.dc == 0x008) := by decide +kernel

theorem witness_AutoscrollMutators : (ready p8).phase = .ready ∧ (ready p8).em &&& 0x3FC = 0x004 ∧ (ready p8).busOk = true ∧
    nextSat (exec .setAutoscrollOn (withFaults (ready p8) [true])) (fun t => t.em == 0x007 && t.phase == .failed) ∧
    nextSat (exec .setAutoscrollOff { ready p8 with em := 0x007 }) (fun t => t.em == 0x006) := by decide +kernel

theorem witness_DirectionMutators : (ready p8).phase = .ready ∧ (ready p8).em &&& 0x3FC = 0x004 ∧ (ready p8).busOk = true ∧
    nextSat (exec .setLeftToRight { ready p8 with em := 0x004 }) (fun t => t.em == 0x006) ∧
    nextSat (exec .setRightToLeft (withFaults (ready p8) [true])) (fun t => t.em == 0x004 && t.phase == .failed) := by decide +kernel

theorem witness_CursorTypeMutator : (ready p8).phase = .ready ∧ (ready p8).dc &&& 0x3F8 = 0x008 ∧ (ready p8).busOk = true := by decide

theorem witness_BacklightOperations : (ready p8).phase = .ready ∧ (ready p8).cfg.canBl = false ∧ (ready p8r).phase = .ready ∧
    (ready p8r).cfg.canBl = true ∧ (ready p8r).busOk = true ∧ (ready i2c).cfg.canBl = true ∧ (ready i2c).busOk = true := by decide

theorem witness_InitReachesReady : (State.reset.phase ≠ .failed ∧ State.reset.quiet = true ∧ State.reset.cfg.variant ≠ .i2cMux4 ∧
      none = State.reset.i2cAddr) ∧
    (let s := withScan (State.constructed { i2c with i2cAddrCfg := some 127 }) [0, 127];
     s.phase ≠ .failed ∧ s.quiet = true ∧ s.cfg.variant = .i2cMux4 ∧ ∃ b, some 127 = some b ∧ selects s.cfg s.nextScan b) :=
  ⟨by decide, by decide, by decide, rfl, 127, rfl, rfl, by decide⟩

theorem witness_InitTraceOnWriteOnlyBus : (State.reset.phase ≠ .failed ∧ State.reset.quiet = true ∧
      State.reset.cfg.canRead = false ∧ State.reset.cfg.variant ≠ .i2cMux4 ∧ none = State.reset.i2cAddr) ∧
    (let s := withScan (State.constructed i2cw) [0];
     s.phase ≠ .failed ∧ s.quiet = true ∧ s.cfg.canRead = false ∧ s.cfg.variant = .i2cMux4 ∧
      ∃ b, some 0 = some b ∧ selects s.cfg s.nextScan b) :=
  ⟨by decide, by decide, by decide, by decide, rfl, 0, rfl, rfl⟩

theorem witness_InitScanFailure : (let s := withScan (State.constructed i2c) [];
      s.phase ≠ .failed ∧ s.quiet = true ∧ s.cfg.variant = .i2cMux4 ∧ s.nextScan = [] ∧ ∀ b, ¬ selects s.cfg s.nextScan b) ∧
    (let s := withScan (State.constructed i2c) [0, 127];
      s.nextScan ≠ [] ∧ s.cfg.i2cAddrCfg = none ∧ ∀ b, ¬ selects s.cfg s.nextScan b) ∧
    (let s := withScan (State.constructed { i2c with i2cAddrCfg := some 127 }) [126];
      s.nextScan ≠ [] ∧ s.cfg.i2cAddrCfg = some 127 ∧ ∀ b, ¬ selects s.cfg s.nextScan b) := by
  refine ⟨⟨by decide, by decide, by decide, by decide, fun b h => ?_⟩, ⟨by decide, by decide, fun b h => ?_⟩,
    ⟨by decide, by decide, fun b h => ?_⟩⟩
  · exact absurd (show ([] : List Addr7) = [b] from h) (by simp)
  · exact absurd (show ([0, 127] : List Addr7) = [b] from h) (by simp)
  · exact absurd (show ([126] : List Addr7).any (·.toNat == 127) = true from h.2) (by decide)

theorem witness_ScanSelectsTheAddress :
    (let s := withScan (State.constructed i2c) [];
      s.cfg.variant = .i2cMux4 ∧ s.quiet = true ∧ s.nextScan = []) ∧
    (let s := withScan (State.constructed i2c) [0, 127];
      s.cfg.i2cAddrCfg = none ∧ 1 < s.nextScan.length) ∧
    (withScan (State.constructed i2c) [127]).nextScan = [127] ∧
    (let s := withScan (State.constructed { i2c with i2cAddrCfg := some 127 }) [126];
      s.cfg.i2cAddrCfg = some 127 ∧ s.nextScan ≠ [] ∧ ∀ a ∈ s.nextScan, a.toNat ≠ 127) ∧
    (let s := withScan (State.constructed { i2c with i2cAddrCfg := some 127 }) [0, 127];
      s.cfg.i2cAddrCfg = some (127 : Addr7).toNat ∧ 127 ∈ s.nextScan) := by decide

theorem witness_BusInitPowerOn : (State.reset.quiet = true ∧ State.reset.cfg.variant = .parallel8) ∧
    (State.constructed p4).cfg.variant = .parallel4 ∧
    (let s := withScan (State.constructed i2c) [0];
      s.cfg.variant = .i2cMux4 ∧ s.quiet = true ∧ selects s.cfg s.nextScan 0) :=
  ⟨by decide, by decide, by decide, by decide, rfl⟩

theorem witness_BusInitReadsNothing : (∃ t, exec .busInitP8 State.reset = .next t ∧ (t.trace.length == 46) = true) ∧
    (∃ t, exec .busInitP4 (State.constructed p4) = .next t ∧ (t.trace.length == 44) = true) ∧
    (∃ t, exec .busInitI2C (withScan (State.constructed i2c) [0x27]) = .next t ∧ (t.trace.length == 29) = true) :=
  ⟨of_nextSat (by decide +kernel), of_nextSat (by decide +kernel), of_nextSat (by decide +kernel)⟩

theorem witness_OneEnablePulsePerCycle : (ready p8r).cfg.variant ≠ .i2cMux4 ∧
    (∃ t, parWriteCycle true 0xFF (ready p8r) = .ok () t) ∧
    (∃ v t, parReadCycle false (withSamples (ready p4r) [true, false, true, true]) = .ok v t) ∧
    (∃ t, exec (.busReadP8 0x3FF) (withSamples (ready p8r) (List.replicate 8 true)) = .next t ∧
      (t.reply == .returned (.byte 0xFF)) = true) ∧
    ∃ t, exec (.busReadP4 0x100) (withSamples (ready p4r) (List.replicate 8 false)) = .next t ∧
      (t.reply == .returned (.byte 0x00)) = true := by
  refine ⟨by decide, ⟨_, by rfl⟩, ⟨_, _, by rfl⟩, of_nextSat (by decide +kernel), of_nextSat (by decide +kernel)⟩

theorem witness_BusWriteTransfersTheWord : Cmd.rw 0x2FF = false ∧ (ready p8).quiet = true ∧ (ready p8).cfg.variant = .parallel8 ∧
    (ready { p8 with rwWired := true }).cfg.rwWired = true ∧ (ready p4).cfg.variant = .parallel4 ∧ (ready i2c).quiet = true ∧
    (ready i2c).cfg.variant = .i2cMux4 ∧ (ready i2c).i2cAddr = some 0x27 := by decide

theorem witness_BusWriteChecks : (ready p8).cfg.variant = .parallel8 ∧ (ready p4).cfg.variant = .parallel4 ∧
    (ready i2c).cfg.variant = .i2cMux4 ∧ 1024 ≤ 1024 ∧ 0x3FF < 1024 ∧ (0x3FF : Nat).testBit 8 = true := by decide

theorem witness_BusReadEightSamples : Cmd.rw 0x3FF = true ∧ (ready p8r).cfg.variant = .parallel8 ∧ (ready p8r).cfg.canRead = true ∧
    (ready p8r).quiet = true := by decide

theorem witness_BusReadTwoNibbles : Cmd.rw 0x100 = true ∧ (ready p4r).cfg.variant = .parallel4 ∧ (ready p4r).cfg.canRead = true ∧
    (ready p4r).quiet = true := by decide

theorem witness_BusReadExpander : Cmd.rw 0x100 = true ∧ (ready i2c).cfg.variant = .i2cMux4 ∧ (ready i2c).cfg.canRead = true ∧
    (ready i2c).quiet = true ∧ (ready i2c).i2cAddr = some 0x27 := by decide

theorem witness_BusReadChecks : (ready p8).cfg.variant = .parallel8 ∧ (ready p4).cfg.variant = .parallel4 ∧
    (ready i2cw).cfg.variant = .i2cMux4 ∧ 1024 ≤ 1024 ∧ (0x2FF < 1024 ∧ (0x2FF : Nat).testBit 8 = false) ∧
    (0x1FF < 1024 ∧ (0x1FF : Nat).testBit 8 = true ∧ (ready p8).cfg.canRead = false ∧ (ready p4).cfg.canRead = false ∧
      (ready i2cw).cfg.canRead = false) := by decide

theorem witness_BusSetBacklight : ((ready p8).cfg.variant ≠ .i2cMux4 ∧ (ready p8).cfg.blWired = false) ∧
    ((ready p8r).cfg.variant ≠ .i2cMux4 ∧ (ready p8r).cfg.blWired = true ∧ (ready p8r).quiet = true) ∧
    ((ready i2c).cfg.variant = .i2cMux4 ∧ (ready i2c).busOk = true) := by decide

theorem witness_TransportRefusals : (ready p4).cfg.variant ≠ .parallel8 ∧ (ready p8).cfg.variant ≠ .parallel4 ∧
    (ready p8).cfg.variant ≠ .i2cMux4 ∧ ((State.constructed i2c).cfg.variant = .i2cMux4 ∧ (State.constructed i2c).i2cAddr = none) ∧
    (encode (.wrdata 0xFF) = some 0x2FF ∧ Cmd.rw 0x2FF = false) := by decide

end Sys2Proof.Tests
end

section
/-! PROOFS. Serving a call (00_scope.md R3, 10_state.md R27): what a fetched call runs as, and the step that runs it. -/

namespace Sys2Proof.Machine

open Sys2Proof

/-! ### What a call is fetched as -/

/-- The operands of a decoded word are fields of the word, so no typing check rejects it (60_exceptions.md R182). -/
@[simp] theorem decodeCmd_wf (c : Cmd) : (decodeCmd c).wf = true := by
  unfold decodeCmd
  split_ifs <;> rfl

theorem decode_eq_ok {w : Nat} {i : Instr} : decode w = .ok i ↔ w < 1024 ∧ decodeCmd (BitVec.ofNat 10 w) = i := by
  by_cases hw : w < 1024 <;> simp [decode, hw]

theorem decodeTableWord_eq_some {nbits w : Nat} {i : Instr} :
    decodeTableWord nbits w = some i ↔ decode (w % 2 ^ nbits) = .ok i := by
  unfold decodeTableWord
  cases decode (w % 2 ^ nbits) <;> simp

theorem checkTypes_of_wf {i : Instr} (h : i.wf = true) : checkTypes i = .run i := if_pos h

theorem fetch_op {i : Instr} (h : i.wf = true) : fetch ⟨false, .op i⟩ = .run i := checkTypes_of_wf h

theorem fetch_word {w : Nat} {i : Instr} (h : decode w = .ok i) : fetch ⟨false, .word w⟩ = .run i := by
  have hi : i.wf = true := by
    obtain ⟨-, rfl⟩ := decode_eq_ok.mp h
    exact decodeCmd_wf _
  simp [fetch, h, checkTypes_of_wf hi]

/-! ### The step -/

theorem step_of_noCall {s : State} (h : s.calls = []) : step s = .next s := by
  simp [step, h]

theorem step_of_fetch_run {s : State} {c : Call} {rest : List Call} {i : Instr} (hc : s.calls = c :: rest)
    (hf : fetch c = .run i) : step s = exec i { s with calls := rest } := by
  simp [step, hc, hf]

/-- A word put in front of the queue is the call the step takes, and taking it gives the state back (log 3). -/
theorem step_withFetchWord {s : State} {nbits w : Nat} {i : Instr} (h : decodeTableWord nbits w = some i) :
    step (s.withFetchWord nbits w) = exec i s :=
  step_of_fetch_run (s := s.withFetchWord nbits w) rfl (fetch_word (decodeTableWord_eq_some.mp h))

/-- Settles O4, from what each kind of call is fetched as. -/
theorem stepRunsTheCalledInstruction : Obligations.StepRunsTheCalledInstruction := by
  intro s rest
  refine ⟨fun w hw hc => ?_, fun i hi hc => ?_, step_of_noCall, fun nbits w i h => step_withFetchWord h⟩
  · exact step_of_fetch_run hc (fetch_word (decode_eq_ok.mpr ⟨hw, rfl⟩))
  · exact step_of_fetch_run hc (fetch_op hi)

end Sys2Proof.Machine
end

section
/-! PROOFS. The configuration record is read-only, and the capabilities are functions of it (00_scope.md R5). -/

namespace Sys2Proof.Machine

open Sys2Proof

/-! ### The capabilities -/

theorem width_eq_ite (cfg : Config) : cfg.width = if cfg.variant = .parallel8 then 8 else 4 := by
  unfold Config.width
  cases cfg.variant <;> rfl

theorem canRead_eq_ite (cfg : Config) :
    cfg.canRead = if cfg.variant = .i2cMux4 then cfg.i2cCanRead else cfg.rwWired := by
  unfold Config.canRead
  cases cfg.variant <;> rfl

theorem canBl_eq_ite (cfg : Config) : cfg.canBl = if cfg.variant = .i2cMux4 then true else cfg.blWired := by
  unfold Config.canBl
  cases cfg.variant <;> rfl

/-! ### Nothing writes the configuration -/

variable {i : Instr} {s t : State}

theorem Next.cfg (h : Next s t) : t.cfg = s.cfg := by
  cases h with
  | rejected e _ ht => rw [ht, raiseError_cfg]
  | returned v u f _ ht => rw [ht, returnValue_cfg, f.cfg]
  | failed p u f ht => rw [ht, raiseError_cfg, f.cfg]

theorem NextRan.cfg (h : NextRan s t) : t.cfg = s.cfg := h.next.cfg

/-- The register an instruction writes before its run is never the configuration. -/
theorem Effect.cfg (h : Effect i s t) : t.cfg = s.cfg := by
  cases h with
  | plain h _ _ => exact h.cfg
  | em _ h _ => exact h.cfg
  | dc _ h _ => exact h.cfg
  | bl _ _ h => exact h.cfg
  | map _ h => rcases h with rfl | rfl <;> rfl
  | unmap _ h => rcases h with rfl | rfl | rfl <;> rfl

theorem busInitI2C_cfg (h : execBusInitI2C s = .next t) : t.cfg = s.cfg := by
  obtain ⟨-, ⟨e, u, f, -, rfl⟩ | ⟨a, r⟩ | ⟨e, u, f, rfl⟩⟩ := busInitI2C_next h
  · exact f.cfg
  · exact r.cfg
  · exact f.cfg

theorem exec_cfg (h : exec i s = .next t) : t.cfg = s.cfg := by
  by_cases hi : i = .init
  · subst hi
    obtain ⟨-, f, -⟩ := init_next h
    exact f.cfg
  · by_cases hb : i = .busInitI2C
    · subst hb
      exact busInitI2C_cfg h
    · exact (exec_effect hi hb h).cfg

theorem step_cfg (h : step s = .next t) : t.cfg = s.cfg := by
  obtain ⟨-, rfl⟩ | ⟨c, rest, i, -, -, -, hx⟩ := step_cases h
  · rfl
  · exact exec_cfg (s := { s with calls := rest }) hx

/-- Settles O14: no instruction writes the configuration, and the capabilities read nothing else. -/
theorem configurationIsReadOnly : Obligations.ConfigurationIsReadOnly :=
  ⟨fun _ _ => step_cfg, fun cfg => ⟨width_eq_ite cfg, canRead_eq_ite cfg, canBl_eq_ite cfg⟩⟩

end Sys2Proof.Machine
end

section
/-! PROOFS. What is refused at a transport: a function of another variant (log 9), and an I2C write before the scan has resolved
an address (log 13). -/

namespace Sys2Proof.Machine

open Sys2Proof

variable {s : State}

/-! ### A function of another variant -/

theorem requireVariant_ne {v : Variant} (h : s.cfg.variant ≠ v) :
    requireVariant v s = .error (.refused (.variantMismatch s.cfg.variant)) s := if_neg h

theorem requireVariant_eq {v : Variant} (h : s.cfg.variant = v) : requireVariant v s = .ok () s := if_pos h

theorem runBus_variantMismatch {v : Variant} {m : Drv Unit} (h : s.cfg.variant ≠ v) :
    runBus v m s = .refused (.variantMismatch s.cfg.variant) := finish_refused (bind_error (requireVariant_ne h))

theorem runBusRead_variantMismatch {v : Variant} {m : Drv Byte} (h : s.cfg.variant ≠ v) :
    runBusRead v m s = .refused (.variantMismatch s.cfg.variant) := finish_refused (bind_error (requireVariant_ne h))

theorem busSetBacklightPar_variantMismatch (en : Bool) (h : s.cfg.variant = .i2cMux4) :
    execBusSetBacklightPar en s = .refused (.variantMismatch .i2cMux4) := by
  simp [execBusSetBacklightPar, h]

/-! ### No address to write to -/

/-- A transport function that its body refuses is refused, whatever the body did before. -/
theorem runBus_refused {v : Variant} {m : Drv Unit} {t : State} {r : Refusal} (hv : s.cfg.variant = v)
    (h : m s = .error (.refused r) t) : runBus v m s = .refused r := by
  refine finish_refused (t := t) ?_
  rw [bind_ok (requireVariant_eq hv), bind_error h]

theorem i2cWrite_unresolved (h : s.i2cAddr = none) (b : Byte) :
    i2cWrite b s = .error (.refused .i2cAddressUnresolved) s :=
  bind_error (by simp [i2cTarget, h])

/-- The first of the three expander bytes is already refused (41_transport.md R114). -/
theorem i2cWriteCycle_unresolved (h : s.i2cAddr = none) (rs : Bool) (nib : Nibble) :
    i2cWriteCycle rs nib s = .error (.refused .i2cAddressUnresolved) s := by
  rw [i2cWriteCycle, bind_getCfg, bind_ok (show getBl s = .ok s.bl s from rfl)]
  exact bind_error (bind_error (i2cWrite_unresolved h _))

theorem i2cWriteWord_unresolved (h : s.i2cAddr = none) (w : Cmd) :
    i2cWriteWord w s = .error (.refused .i2cAddressUnresolved) s := bind_error (i2cWriteCycle_unresolved h _ _)

theorem busWriteI2C_unresolved {w : Cmd} (h : s.i2cAddr = none) (hw : w.rw = false) :
    busWriteI2C w.toNat s = .error (.refused .i2cAddressUnresolved) s := by
  rw [busWriteI2C, bind_ok (writeChecks_pass w.isLt (by simpa using hw) s)]
  exact i2cWriteWord_unresolved h _

/-- The flag is set before the byte is refused; a refusal has no next state, so nothing of it remains (R118, R182). -/
theorem i2cSetBacklight_unresolved (h : s.i2cAddr = none) (en : Bool) :
    i2cSetBacklight en s = .error (.refused .i2cAddressUnresolved) { s with bl := en } :=
  i2cWrite_unresolved (s := { s with bl := en }) h _

theorem execCmd_unresolved {w : Cmd} (hv : s.cfg.variant = .i2cMux4) (h : s.i2cAddr = none) (hw : w.rw = false) :
    execCmd w s = .error (.refused .i2cAddressUnresolved) s := by
  have hbus : busWrite w.toNat s = .error (.refused .i2cAddressUnresolved) s := by
    rw [busWrite_eq hw, hv]
    exact i2cWriteWord_unresolved h w
  refine bind_error ?_
  rw [transfer, if_neg (ne_true_of_eq_false hw)]
  exact bind_error hbus

/-! ### Command words -/

/-- An instruction with a command word runs as that word, and no other instruction has one (40_commands.md R91). -/
theorem exec_of_encode {i : Instr} {w : Cmd} (h : encode i = some w) (s : State) : exec i s = runWord w s := by
  cases i with
  | clear | home _ | entry _ _ | dispctl _ _ _ | shift _ _ _ | funcset _ _ _ _ | setcg _ | setdd _ | rdbf _ | wrdata _
  | rddata _ | noneWord =>
    obtain rfl := Option.some.inj h
    rfl
  | _ => exact absurd h (by simp [encode])

theorem runWord_unresolved {w : Cmd} (hv : s.cfg.variant = .i2cMux4) (h : s.i2cAddr = none) (hw : w.rw = false) :
    runWord w s = .refused .i2cAddressUnresolved := finish_refused (bind_error (execCmd_unresolved hv h hw))

/-- Settles O60: the variant is checked first, and the first byte of an I2C write needs the address. -/
theorem transportRefusals : Obligations.TransportRefusals := by
  intro s c en
  simp only [List.forall_mem_cons, List.not_mem_nil, false_implies, implies_true, and_true]
  refine ⟨fun hv => ?_, fun hv => ?_, fun hv => ?_, busSetBacklightPar_variantMismatch en, fun hv ha => ?_⟩
  · exact ⟨runBus_variantMismatch hv, runBusRead_variantMismatch hv, runBus_variantMismatch hv⟩
  · exact ⟨runBus_variantMismatch hv, runBusRead_variantMismatch hv, runBus_variantMismatch hv⟩
  · exact ⟨runBus_variantMismatch hv, runBusRead_variantMismatch hv, runBus_variantMismatch hv,
      runBus_variantMismatch hv⟩
  · refine ⟨fun i w he hw => ?_, fun w hw => ?_, ?_⟩
    · rw [exec_of_encode he, runWord_unresolved hv ha hw]
    · exact runBus_refused hv (busWriteI2C_unresolved ha hw)
    · exact runBus_refused hv (i2cSetBacklight_unresolved ha en)

end Sys2Proof.Machine
end

section
/-! PROOFS. What every instruction but `init` does, as one shape: it writes at most one register of its own, and from there it is
stopped by a check or runs on the bus. -/

namespace Sys2Proof.Machine

open Sys2Proof

variable {i : Instr} {s m t : State}

/-- The register the instruction `i` writes before it runs: `m` is `s` after that write (10_state.md section 1). -/
inductive Writes (i : Instr) (s : State) : State → Prop where
  | nothing : Writes i s s
  | em {f : Cmd → Cmd} (hf : emFunction i = some f) : Writes i s { s with em := f s.em }
  | dc {f : Cmd → Cmd} (hf : dcFunction i = some f) : Writes i s { s with dc := f s.dc }
  | bl {en : Bool} (hf : blFunction i = some en) (hc : s.cfg.canBl = true) : Writes i s { s with bl := en }
  | put {ch : Nat} {code : Byte} {k : Int} (hi : i = .mapCharacter ch k) :
      Writes i s { s with cmap := s.cmap.put ch code }
  | del {ch : Nat} (hi : i = .unmapCharacter ch) : Writes i s { s with cmap := s.cmap.del ch }
  | addr {a : Addr7} (hi : i = .busInitI2C) (hv : s.cfg.variant = .i2cMux4) : Writes i s { s with i2cAddr := some a }

/-- How the rest of an operation ends from `m`: a check rejects it, it returns, or it raises E3 (60_exceptions.md R176, R177). -/
inductive Ends (m t : State) : Prop where
  | rejected (e : Error) (h : ∀ info, e ≠ .e3 info) (ht : t = raiseError e m)
  | returned (v : Value) (u : State) (f : OnlyBus m u) (c : Calm m u) (ht : t = returnValue v u)
  | failed (info : E3Info) (u : State) (f : OnlyBus m u) (ht : t = raiseError (.e3 info) u)

theorem Next.ends (h : Next m t) : Ends m t := by
  cases h with
  | rejected e h ht => exact .rejected e h ht
  | returned v u f c ht => exact .returned v u f c ht
  | failed p u f ht => exact .failed _ u f ht

theorem Effect.writes_ends (h : Effect i s t) : ∃ m, Writes i s m ∧ Ends m t := by
  have returns : ∀ m, t = returnValue .nothing m → Ends m t := fun m => .returned _ m (.refl m) (.refl m)
  have rejects : ∀ info, t = raiseError (.e1 info) s → Ends s t := fun info => .rejected _ (by simp)
  cases h with
  | plain h _ _ => exact ⟨_, .nothing, h.ends⟩
  | em hf h _ => exact ⟨_, .em hf, h.ends⟩
  | dc hf h _ => exact ⟨_, .dc hf, h.ends⟩
  | bl hf hc h => exact ⟨_, .bl hf hc, h.next.ends⟩
  | map hi h =>
    rcases h with ht | ht
    · exact ⟨_, .put hi, returns _ ht⟩
    · exact ⟨_, .nothing, rejects _ ht⟩
  | unmap hi h =>
    rcases h with ht | ht | ht
    · exact ⟨_, .del hi, returns _ ht⟩
    · exact ⟨_, .nothing, returns _ ht⟩
    · exact ⟨_, .nothing, rejects _ ht⟩

theorem busInitI2C_writes_ends (h : execBusInitI2C s = .next t) : ∃ m, Writes .busInitI2C s m ∧ Ends m t := by
  obtain ⟨hv, ⟨info, u, f, -, ht⟩ | ⟨a, hr⟩ | ⟨info, u, f, ht⟩⟩ := busInitI2C_next h
  · exact ⟨s, .nothing, .failed info u f ht⟩
  · exact ⟨_, .addr rfl hv, hr.next.ends⟩
  · exact ⟨s, .nothing, .failed info u f ht⟩

theorem exec_writes_ends (hi : i ≠ .init) (h : exec i s = .next t) : ∃ m, Writes i s m ∧ Ends m t := by
  by_cases hb : i = .busInitI2C
  · subst hb
    exact busInitI2C_writes_ends h
  · exact (exec_effect hi hb h).writes_ends

/-! ### What the end of an operation leaves alone -/

/-- Beside the phase and the reply, the end of an operation changes what bus activity changes. -/
theorem Ends.frame (h : Ends m t) : OnlyBus m { t with phase := m.phase, reply := m.reply } := by
  have run : ∀ {u : State}, OnlyBus m u → OnlyBus m { u with phase := m.phase, reply := m.reply } := fun f =>
    { f with
      cfg := f.cfg, phase := rfl, em := f.em, dc := f.dc, fs := f.fs, cmap := f.cmap, bl := f.bl, i2cAddr := f.i2cAddr
      reply := rfl, calls := f.calls }
  cases h with
  | rejected e _ ht =>
    subst ht
    exact .refl m
  | returned v u f _ ht =>
    subst ht
    exact run (u := u) f
  | failed info u f ht =>
    subst ht
    exact run (u := u) f

theorem phaseAfter_of_ne_e3 {e : Error} (h : ∀ info, e ≠ .e3 info) (p : Phase) : phaseAfter e p = p := by
  cases e with
  | e1 _ | e2 _ => rfl
  | e3 info => exact absurd rfl (h info)

/-- E3 sets `Failed`; every other end keeps the phase, and leaves the lines calm (60_exceptions.md R177). -/
theorem Ends.phase_cases (h : Ends m t) :
    ((∃ info, t.reply = .error (.e3 info)) ∧ t.phase = .failed) ∨
      ((¬ ∃ info, t.reply = .error (.e3 info)) ∧ t.phase = m.phase ∧ Calm m t) := by
  cases h with
  | rejected e he ht =>
    subst ht
    exact .inr ⟨by simpa using he, phaseAfter_of_ne_e3 he _, .inl rfl, fun _ => .inl rfl⟩
  | returned v u f c ht =>
    subst ht
    exact .inr ⟨by simp, f.phase, c.e, c.dir⟩
  | failed info u f ht =>
    subst ht
    exact .inl ⟨⟨info, rfl⟩, rfl⟩

end Sys2Proof.Machine
end

section
/-! PROOFS. Every step keeps the invariant (10_state.md R11 to R20): the register write keeps it, and so does the end of the
operation; `init` establishes it anew from the defaults. -/

namespace Sys2Proof.Machine

open Sys2Proof

variable {i : Instr} {s m t : State}

/-! ### The lines of a calm run -/

theorem Calm.dir_out (h : Calm s t) (hs : ∀ k : Fin 8, s.dir[k] = .out) (k : Fin 8) : t.dir[k] = .out := by
  rcases h.dir k with hk | hk
  · rw [hk, hs]
  · exact hk

theorem Calm.e_not_high (h : Calm s t) (hs : s.lvl.e ≠ .driven true) : t.lvl.e ≠ .driven true := by
  rcases h.e with he | he
  · rwa [he]
  · simp [he]

/-! ### The defaults are legal words, and the mutators keep them legal -/

theorem emDefault_legal : emDefault &&& 0x3FC = 0x004 := by decide

theorem dcDefault_legal : dcDefault &&& 0x3F8 = 0x008 := by decide

theorem emFunction_legal {f : Cmd → Cmd} {w : Cmd} (hf : emFunction i = some f) (hw : w &&& 0x3FC = 0x004) :
    f w &&& 0x3FC = 0x004 := by
  obtain ⟨hOn, hOff, hLeft, hRight⟩ := em_mutators hw
  unfold emFunction at hf
  split at hf
  · exact Option.some.inj hf ▸ hOn
  · exact Option.some.inj hf ▸ hOff
  · exact Option.some.inj hf ▸ hLeft
  · exact Option.some.inj hf ▸ hRight
  · simp at hf

theorem dcFunction_legal {f : Cmd → Cmd} {w : Cmd} (hf : dcFunction i = some f) (hw : w &&& 0x3F8 = 0x008) :
    f w &&& 0x3F8 = 0x008 := by
  obtain ⟨hOn, hOff⟩ := dc_mutators hw
  unfold dcFunction at hf
  split at hf
  · exact Option.some.inj hf ▸ hOn
  · exact Option.some.inj hf ▸ hOff
  · exact Option.some.inj hf ▸ dc_cursorType _ hw
  · simp at hf

/-! ### The invariant through an instruction -/

theorem Inv.setCalls (h : Inv s) (cs : List Call) : Inv { s with calls := cs } :=
  { h with }

theorem Writes.inv (hw : Writes i s m) (h : Inv s) : Inv m := by
  cases hw with
  | nothing => exact h
  | em hf => exact { h with em := emFunction_legal hf h.em }
  | dc hf => exact { h with dc := dcFunction_legal hf h.dc }
  | bl _ hc => exact { h with bl := fun hn => absurd (hc.symm.trans hn) (by simp) }
  | put _ => exact { h with cmap := CharMap.wf_put h.cmap _ _ }
  | del _ => exact { h with cmap := CharMap.wf_del h.cmap _ }
  | addr _ hv => exact { h with noAddr := fun hn => absurd hv hn, addr := fun _ _ => by simp }

theorem Ends.inv (he : Ends m t) (h : Inv m) : Inv t := by
  have f := he.frame
  have hp := he.phase_cases
  have cfg : t.cfg = m.cfg := f.cfg
  exact
    { em := (congrArg (· &&& 0x3FC) f.em).trans h.em
      dc := (congrArg (· &&& 0x3F8) f.dc).trans h.dc
      fs := by rw [cfg]; exact f.fs.trans h.fs
      cmap := (congrArg CharMap.wf f.cmap).trans h.cmap
      phase := by
        rcases hp with ⟨-, hp⟩ | ⟨-, hp, -⟩
        · simp [hp]
        · exact hp ▸ h.phase
      noAddr := fun hv => f.i2cAddr.trans (h.noAddr (cfg ▸ hv))
      addr := fun hr hv => by
        rcases hp with ⟨-, hp⟩ | ⟨-, hp, -⟩
        · simp [hp] at hr
        · exact f.i2cAddr.symm ▸ h.addr (hp ▸ hr) (cfg ▸ hv)
      bl := fun hc => f.bl.trans (h.bl (cfg ▸ hc))
      dir := fun hn => by
        obtain ⟨-, hp, c⟩ := hp.resolve_left fun hp => hn hp.2
        exact c.dir_out (h.dir (hp ▸ hn))
      e := fun hn => by
        obtain ⟨-, hp, c⟩ := hp.resolve_left fun hp => hn hp.2
        exact c.e_not_high (h.e (hp ▸ hn)) }

/-- `init` writes the default flag words, sets the backlight only with the capability, and is `Ready` only with an address and
calm lines (70_reset_and_hazards.md R192 to R202). -/
theorem init_inv (hx : execInit s = .next t) (h : Inv s) : Inv t := by
  obtain ⟨hs, f, hp⟩ := init_next hx
  have cfg : t.cfg = s.cfg := f.cfg
  exact
    { em := (congrArg (· &&& 0x3FC) f.em).trans emDefault_legal
      dc := (congrArg (· &&& 0x3F8) f.dc).trans dcDefault_legal
      fs := by rw [cfg]; exact f.fs
      cmap := (congrArg CharMap.wf f.cmap).trans h.cmap
      phase := by
        rcases hp with ⟨-, hp, -⟩ | ⟨_, -, hp⟩ <;> simp [hp]
      noAddr := fun hv => (f.addr (cfg ▸ hv)).trans (h.noAddr (cfg ▸ hv))
      addr := fun hr hv => by
        rcases hp with ⟨-, -, -, ha⟩ | ⟨_, -, hp⟩
        · exact ha (cfg ▸ hv)
        · simp [hp] at hr
      bl := fun hc => by
        rw [cfg] at hc
        rcases f.bl with hb | ⟨-, hb⟩
        · exact hb.trans (h.bl hc)
        · exact absurd (hb.symm.trans hc) (by simp)
      dir := fun hn => by
        rcases hp with ⟨-, -, c, -⟩ | ⟨_, -, hp⟩
        · exact c.dir_out (h.dir hs)
        · exact absurd hp hn
      e := fun hn => by
        rcases hp with ⟨-, -, c, -⟩ | ⟨_, -, hp⟩
        · exact c.e_not_high (h.e hs)
        · exact absurd hp hn }

theorem exec_inv (hx : exec i s = .next t) (h : Inv s) : Inv t := by
  by_cases hi : i = .init
  · subst hi
    exact init_inv hx h
  · obtain ⟨m, hw, he⟩ := exec_writes_ends hi hx
    exact he.inv (hw.inv h)

/-- Settles O8: the step takes a call, and the instruction's write and end each keep the invariant. -/
theorem stepKeepsInv : Obligations.StepKeepsInv := by
  intro s t h hx
  obtain ⟨-, rfl⟩ | ⟨c, rest, i, -, -, -, hx⟩ := step_cases hx
  · exact h
  · exact exec_inv hx (h.setCalls rest)

end Sys2Proof.Machine
end

section
/-! PROOFS. The transitions of the phase (10_state.md R11), and what only grows: the trace and the tick counter (R31, R32). -/

namespace Sys2Proof.Machine

open Sys2Proof

variable {i : Instr} {s m t : State}

/-! ### The phase -/

theorem Writes.phase (hw : Writes i s m) : m.phase = s.phase := by
  cases hw <;> rfl

/-- An instruction other than `init` ends in `Failed` exactly with E3, and otherwise keeps the phase (60_exceptions.md R177). -/
theorem exec_phase (hi : i ≠ .init) (hx : exec i s = .next t) :
    ((∃ info, t.reply = .error (.e3 info)) ∧ t.phase = .failed) ∨
      ((¬ ∃ info, t.reply = .error (.e3 info)) ∧ t.phase = s.phase) := by
  obtain ⟨m, hw, he⟩ := exec_writes_ends hi hx
  rw [← hw.phase]
  exact he.phase_cases.imp id fun ⟨hr, hp, _⟩ => ⟨hr, hp⟩

theorem init_phase (hx : execInit s = .next t) :
    s.phase ≠ .failed ∧
      ((t.reply = .returned .nothing ∧ t.phase = .ready) ∨ (∃ e, t.reply = .error e) ∧ t.phase = .failed) := by
  obtain ⟨hs, -, ⟨hr, hp, -⟩ | ⟨info, hr, hp⟩⟩ := init_next hx
  · exact ⟨hs, .inl ⟨hr, hp⟩⟩
  · exact ⟨hs, .inr ⟨⟨_, hr⟩, hp⟩⟩

theorem exec_ne_initializing (hs : s.phase ≠ .initializing) (hx : exec i s = .next t) : t.phase ≠ .initializing := by
  by_cases hi : i = .init
  · subst hi
    obtain ⟨-, ⟨-, hp⟩ | ⟨-, hp⟩⟩ := init_phase hx <;> simp [hp]
  · obtain ⟨-, hp⟩ | ⟨-, hp⟩ := exec_phase hi hx
    · simp [hp]
    · rwa [hp]

theorem exec_failed (hs : s.phase = .failed) (hx : exec i s = .next t) : t.phase = .failed := by
  by_cases hi : i = .init
  · subst hi
    exact absurd hs (init_phase hx).1
  · obtain ⟨-, hp⟩ | ⟨-, hp⟩ := exec_phase hi hx
    · exact hp
    · rw [hp, hs]

/-- Settles O9, from the phase after `init` and after every other instruction. -/
theorem phaseTransitions : Obligations.PhaseTransitions := by
  refine ⟨fun _ => rfl, fun s t hs hx => ?_, fun s t hs hx => ?_, fun _ _ => init_phase, fun _ _ _ => exec_phase⟩
  · obtain ⟨-, rfl⟩ | ⟨c, rest, i, -, -, -, hx⟩ := step_cases hx
    · exact hs
    · exact exec_ne_initializing (s := { s with calls := rest }) hs hx
  · obtain ⟨-, rfl⟩ | ⟨c, rest, i, -, -, -, hx⟩ := step_cases hx
    · exact hs
    · exact exec_failed (s := { s with calls := rest }) hs hx

/-! ### The trace and the tick counter -/

theorem Writes.log (hw : Writes i s m) : m.log = s.log := by
  cases hw <;> rfl

theorem Writes.env (hw : Writes i s m) : m.env = s.env := by
  cases hw <;> rfl

theorem exec_grows (hx : exec i s = .next t) : s.log <:+ t.log ∧ s.env.now ≤ t.env.now := by
  by_cases hi : i = .init
  · subst hi
    obtain ⟨-, f, -⟩ := init_next hx
    exact ⟨f.log, f.now⟩
  · obtain ⟨m, hw, he⟩ := exec_writes_ends hi hx
    rw [← hw.log, ← hw.env]
    exact ⟨he.frame.log, he.frame.now⟩

/-- Settles O13: a register write is no event and reads no tick, and bus activity only appends and only counts up. -/
theorem traceAndTicksOnlyGrow : Obligations.TraceAndTicksOnlyGrow := by
  intro s t hx
  obtain ⟨-, rfl⟩ | ⟨c, rest, i, -, -, -, hx⟩ := step_cases hx
  · exact ⟨List.prefix_refl _, Nat.le_refl _⟩
  · obtain ⟨hlog, hnow⟩ := exec_grows hx
    exact ⟨trace_prefix hlog, hnow⟩

end Sys2Proof.Machine
end

section
/-! PROOFS. The character map is its entries alone (10_state.md R16). -/

namespace Sys2Proof

/-- With the same entries, the second map's first key is not above the first map's. -/
theorem CharMap.head_le {a b : Host.Cell} {m m' : CharMap} (hm' : CharMap.wf (b :: m') = true)
    (h : ∀ ch, CharMap.get (a :: m) ch = CharMap.get (b :: m') ch) : b.1 ≤ a.1 := by
  by_contra hlt
  have hb : ∀ c ∈ b :: m', a.1 < c.1 := by
    intro c hc
    rcases List.mem_cons.mp hc with rfl | hc
    · omega
    · have := (CharMap.wf_cons.mp hm').1 c hc
      omega
  have := (h a.1).trans (CharMap.get_none_of_lt hb)
  simp [CharMap.get] at this

theorem CharMap.ext_get {m m' : CharMap} (hm : m.wf = true) (hm' : m'.wf = true) (h : ∀ ch, m.get ch = m'.get ch) :
    m = m' := by
  induction m generalizing m' with
  | nil =>
    cases m' with
    | nil => rfl
    | cons b rest' => simpa [CharMap.get] using h b.1
  | cons a rest ih =>
    cases m' with
    | nil => simpa [CharMap.get] using h a.1
    | cons b rest' =>
      obtain ⟨ha, hr⟩ := CharMap.wf_cons.mp hm
      obtain ⟨hb, hr'⟩ := CharMap.wf_cons.mp hm'
      have key : a.1 = b.1 := Nat.le_antisymm (CharMap.head_le hm fun ch => (h ch).symm) (CharMap.head_le hm' h)
      have code : a.2 = b.2 := by simpa [CharMap.get, key] using h b.1
      have tails : ∀ ch, CharMap.get rest ch = CharMap.get rest' ch := by
        intro ch
        by_cases hch : a.1 = ch
        · rw [CharMap.get_none_of_lt fun c hc => hch ▸ ha c hc,
            CharMap.get_none_of_lt fun c hc => hch ▸ key ▸ hb c hc]
        · simpa [CharMap.get, hch, key ▸ hch] using h ch
      rw [Prod.ext key code, ih hr hr' tails]

end Sys2Proof
end

section
/-! PROOFS. Who writes the registers (10_state.md section 1, R15 to R18), and the bytes the expander gets (R17, R18). -/

namespace Sys2Proof.Machine

open Sys2Proof

variable {i : Instr} {s m t : State}

/-! ### The character map -/

theorem Writes.cmap (hw : Writes i s m) (hm : ∀ ch code, i ≠ .mapCharacter ch code)
    (hu : ∀ ch, i ≠ .unmapCharacter ch) : m.cmap = s.cmap := by
  cases hw with
  | put hi => exact absurd hi (hm _ _)
  | del hi => exact absurd hi (hu _)
  | nothing | em _ | dc _ | bl _ _ | addr _ _ => rfl

theorem Writes.cmap_wf (hw : Writes i s m) (h : s.cmap.wf = true) : m.cmap.wf = true := by
  cases hw with
  | put _ => exact CharMap.wf_put h _ _
  | del _ => exact CharMap.wf_del h _
  | nothing | em _ | dc _ | bl _ _ | addr _ _ => exact h

/-- A cell of the map was there before, or its key is the operand of `map_character`. -/
theorem Writes.mem_cmap (hw : Writes i s m) {cell : Host.Cell} (h : cell ∈ m.cmap) :
    cell ∈ s.cmap ∨ ∃ code, i = .mapCharacter cell.1 code := by
  cases hw with
  | put hi =>
    rcases CharMap.mem_put h with rfl | h
    · exact .inr ⟨_, hi⟩
    · exact .inl h
  | del _ => exact .inl (CharMap.mem_del h)
  | nothing | em _ | dc _ | bl _ _ | addr _ _ => exact .inl h

/-- What `exec` makes of the character map, `init` included: the write of one instruction, if any. -/
theorem exec_cmap (hx : exec i s = .next t) : ∃ m, Writes i s m ∧ t.cmap = m.cmap := by
  by_cases hi : i = .init
  · subst hi
    obtain ⟨-, f, -⟩ := init_next hx
    exact ⟨s, .nothing, f.cmap⟩
  · obtain ⟨m, hw, he⟩ := exec_writes_ends hi hx
    exact ⟨m, hw, he.frame.cmap⟩

/-- The two operations on the map do no bus I/O (44_text.md R151, R152). -/
theorem Effect.trace_of_mapWriter (h : Effect i s t)
    (hi : (∃ ch code, i = .mapCharacter ch code) ∨ ∃ ch, i = .unmapCharacter ch) : t.trace = s.trace := by
  cases h with
  | plain _ hm hu =>
    rcases hi with ⟨ch, code, hi⟩ | ⟨ch, hi⟩
    · exact absurd hi (hm ch code)
    · exact absurd hi (hu ch)
  | em hf _ _ => rcases hi with ⟨ch, code, rfl⟩ | ⟨ch, rfl⟩ <;> simp [emFunction] at hf
  | dc hf _ _ => rcases hi with ⟨ch, code, rfl⟩ | ⟨ch, rfl⟩ <;> simp [dcFunction] at hf
  | bl hf _ _ => rcases hi with ⟨ch, code, rfl⟩ | ⟨ch, rfl⟩ <;> simp [blFunction] at hf
  | map _ h => rcases h with rfl | rfl <;> rfl
  | unmap _ h => rcases h with rfl | rfl | rfl <;> rfl

/-- A well-typed instruction keeps the keys Unicode scalar values (decision D40). -/
theorem exec_cmap_scalar (hwf : i.wf = true) (hx : exec i s = .next t) (h : ∀ cell ∈ s.cmap, isScalar cell.1 = true) :
    ∀ cell ∈ t.cmap, isScalar cell.1 = true := by
  obtain ⟨m, hw, hm⟩ := exec_cmap hx
  rw [hm]
  intro cell hc
  rcases hw.mem_cmap hc with hc | ⟨code, rfl⟩
  · exact h cell hc
  · exact hwf

/-- Settles O15, from the one write an instruction makes and from extensionality of canonical maps. -/
theorem characterMapWriters : Obligations.CharacterMapWriters := by
  refine ⟨fun i s t hx => ⟨fun hm hu => ?_, ?_, ?_, fun hwf => ?_⟩, fun _ _ => CharMap.ext_get, by simp [State.constructed],
    fun s t hx h => ?_⟩
  · obtain ⟨m, hw, ht⟩ := exec_cmap hx
    exact ht.trans (hw.cmap hm hu)
  · rintro ch code rfl
    exact (mapCharacter_effect hx).trace_of_mapWriter (.inl ⟨ch, code, rfl⟩)
  · rintro ch rfl
    exact (unmapCharacter_effect hx).trace_of_mapWriter (.inr ⟨ch, rfl⟩)
  · obtain ⟨m, hw, ht⟩ := exec_cmap hx
    rw [ht]
    exact hw.cmap_wf hwf
  · obtain ⟨-, rfl⟩ | ⟨c, rest, i, -, -, hwf, hx⟩ := step_cases hx
    · exact h
    · exact exec_cmap_scalar (s := { s with calls := rest }) hwf hx h

/-! ### EM, DC, FS, bl and i2c_addr -/

theorem emFunction_none (h1 : i ≠ .setAutoscrollOn) (h2 : i ≠ .setAutoscrollOff) (h3 : i ≠ .setLeftToRight)
    (h4 : i ≠ .setRightToLeft) : emFunction i = none := by
  unfold emFunction
  split
  · exact absurd rfl h1
  · exact absurd rfl h2
  · exact absurd rfl h3
  · exact absurd rfl h4
  · rfl

theorem dcFunction_none (h1 : i ≠ .setDisplayOn) (h2 : i ≠ .setDisplayOff) (h3 : ∀ c, i ≠ .setCursorType c) :
    dcFunction i = none := by
  unfold dcFunction
  split
  · exact absurd rfl h1
  · exact absurd rfl h2
  · exact absurd rfl (h3 _)
  · rfl

theorem blFunction_none (h1 : i ≠ .setBacklightOn) (h2 : i ≠ .setBacklightOff) (h3 : ∀ b, i ≠ .busSetBacklightPar b)
    (h4 : ∀ b, i ≠ .busSetBacklightI2C b) : blFunction i = none := by
  unfold blFunction
  split
  · exact absurd rfl h1
  · exact absurd rfl h2
  · exact absurd rfl (h3 _)
  · exact absurd rfl (h4 _)
  · rfl

theorem Writes.em_eq (hw : Writes i s m) (h : emFunction i = none) : m.em = s.em := by
  cases hw with
  | em hf => exact absurd (h.symm.trans hf) (by simp)
  | nothing | dc _ | bl _ _ | put _ | del _ | addr _ _ => rfl

theorem Writes.dc_eq (hw : Writes i s m) (h : dcFunction i = none) : m.dc = s.dc := by
  cases hw with
  | dc hf => exact absurd (h.symm.trans hf) (by simp)
  | nothing | em _ | bl _ _ | put _ | del _ | addr _ _ => rfl

theorem Writes.fs_eq (hw : Writes i s m) : m.fs = s.fs := by
  cases hw <;> rfl

theorem Writes.bl_eq (hw : Writes i s m) (h : blFunction i = none) : m.bl = s.bl := by
  cases hw with
  | bl hf _ => exact absurd (h.symm.trans hf) (by simp)
  | nothing | em _ | dc _ | put _ | del _ | addr _ _ => rfl

theorem Writes.i2cAddr_eq (hw : Writes i s m) (h : i ≠ .busInitI2C) : m.i2cAddr = s.i2cAddr := by
  cases hw with
  | addr hi _ => exact absurd hi h
  | nothing | em _ | dc _ | bl _ _ | put _ | del _ => rfl

/-- Only `init` and `bus.init` of I2C-Mux4 select an address (R18). -/
theorem exec_i2cAddr (hi : i ≠ .init) (hb : i ≠ .busInitI2C) (hx : exec i s = .next t) : t.i2cAddr = s.i2cAddr := by
  obtain ⟨m, hw, he⟩ := exec_writes_ends hi hx
  exact he.frame.i2cAddr.trans (hw.i2cAddr_eq hb)

/-- Settles O16: `init` is excepted everywhere, and every other instruction changes a register only by its own write. -/
theorem registerWriters : Obligations.RegisterWriters := by
  intro i s t hx
  by_cases hi : i = .init
  · exact ⟨fun h => absurd hi h, fun h => absurd hi h, fun h => absurd hi h, fun h => absurd hi h, fun h => absurd hi h⟩
  obtain ⟨m, hw, he⟩ := exec_writes_ends hi hx
  have f := he.frame
  refine ⟨fun _ h1 h2 h3 h4 => ?_, fun _ h1 h2 h3 => ?_, fun _ => ?_, fun _ h1 h2 h3 h4 => ?_,
    fun _ hb => exec_i2cAddr hi hb hx⟩
  · exact f.em.trans (hw.em_eq (emFunction_none h1 h2 h3 h4))
  · exact f.dc.trans (hw.dc_eq (dcFunction_none h1 h2 h3))
  · exact f.fs.trans hw.fs_eq
  · exact f.bl.trans (hw.bl_eq (blFunction_none h1 h2 h3 h4))

/-! ### Expander bytes -/

section ExpanderBytes

variable {cfg : Config} {ad : Option Addr7} {bl : Bool} {q : Bool → Prop}

/-- Every byte of a write cycle is composed with the flag at the start of the activity (41_transport.md R113, R114). -/
theorem i2cOk_writeEvents (hq : q bl) : WriteEventsOk (Event.i2cOk cfg.i2cMap ad q) cfg ad bl where
  fail _ := trivial
  drive _ _ _ := trivial
  sleepUs _ := trivial
  sleepMs _ := trivial
  byte _ rs rw e nib ha := ⟨ha, rs, rw, e, bl, nib, hq, rfl⟩

theorem i2cOk_readEvents (hq : q bl) : ReadEventsOk (Event.i2cOk cfg.i2cMap ad q) cfg ad bl where
  toWriteEventsOk := i2cOk_writeEvents hq
  setDir _ _ := trivial
  sample _ _ := trivial
  i2cRead _ _ ha := ha
  ticks _ := trivial
  warn _ := trivial

end ExpanderBytes

theorem exec_appended_i2cOk (hx : exec i s = .next t) :
    Appended (Event.i2cOk s.cfg.i2cMap t.i2cAddr fun l => l = s.bl ∨ l = t.bl) s t := by
  by_cases hi : i = .init
  · subst hi
    refine init_appended hx trivial (i2cOk_writeEvents (.inl rfl)) (fun _ => i2cOk_readEvents (.inl rfl))
      (fun _ => trivial) fun hbl a ha => ?_
    exact ⟨ha, false, false, false, true, 0, .inr hbl.symm, rfl⟩
  by_cases hb : i = .busInitI2C
  · subst hb
    exact busInitI2C_appended hx trivial (i2cOk_writeEvents (.inl rfl))
  rw [exec_i2cAddr hi hb hx]
  refine exec_appended hi hb hx (i2cOk_writeEvents (.inl rfl)) (fun _ => i2cOk_readEvents (.inl rfl))
    (fun _ => trivial) fun a ha => ?_
  exact ⟨ha, false, false, false, t.bl, 0, .inr rfl, rfl⟩

/-- Settles O17: bus transfers use the flag and the address they start with, and a backlight change its new flag. -/
theorem expanderBytesCarryTheBacklight : Obligations.ExpanderBytesCarryTheBacklight :=
  fun _ _ _ hx => (exec_appended_i2cOk hx).trace

end Sys2Proof.Machine
end

section
/-! PROOFS. The calls that do not run (60_exceptions.md R178, R182): what they are fetched as, and the step that stops there. -/

namespace Sys2Proof.Machine

open Sys2Proof

/-! ### What stops at the fetch -/

/-- The overlap is looked at before the request (R178). -/
theorem fetch_overlapping (r : Request) : fetch ⟨true, r⟩ = .fault .concurrentCall := if_pos rfl

theorem decode_eq_aboveTenBits {w : Nat} (h : 1024 ≤ w) : decode w = .error (.aboveTenBits w) := if_neg (Nat.not_lt.mpr h)

theorem fetch_wordOutOfRange {w : Nat} (h : 1024 ≤ w) : fetch ⟨false, .word w⟩ = .refused (.wordOutOfRange w) := by
  simp [fetch, decode_eq_aboveTenBits h]

theorem checkTypes_of_not_wf {i : Instr} (h : i.wf = false) : checkTypes i = .refused .illTypedArgument :=
  if_neg (ne_true_of_eq_false h)

theorem fetch_illTyped {i : Instr} (h : i.wf = false) : fetch ⟨false, .op i⟩ = .refused .illTypedArgument :=
  checkTypes_of_not_wf h

theorem fetch_unknown (name : String) : fetch ⟨false, .unknown name⟩ = .refused (.unknownOperation name) := rfl

/-! ### The step that stops -/

section Step

variable {s : State} {c : Call} {rest : List Call}

theorem step_of_fetch_fault {f : Fault} (hc : s.calls = c :: rest) (hf : fetch c = .fault f) : step s = .fault f := by
  simp [step, hc, hf]

theorem step_of_fetch_refused {r : Refusal} (hc : s.calls = c :: rest) (hf : fetch c = .refused r) :
    step s = .refused r := by
  simp [step, hc, hf]

end Step

/-- Settles O5, from what each kind of call that does not run is fetched as. -/
theorem callsThatDoNotRun : Obligations.CallsThatDoNotRun := by
  intro s rest
  refine ⟨fun r hc => ?_, fun w hw hc => ?_, fun i hi hc => ?_, fun name hc => ?_⟩
  · exact step_of_fetch_fault hc (fetch_overlapping r)
  · exact step_of_fetch_refused hc (fetch_wordOutOfRange hw)
  · exact step_of_fetch_refused hc (fetch_illTyped hi)
  · exact step_of_fetch_refused hc (fetch_unknown name)

end Sys2Proof.Machine
end

section
/-! PROOFS. The two translations between display positions and DDRAM addresses (20_memory.md R41 to R43). -/

namespace Sys2Proof

variable {col line a : Nat}

@[simp] theorem ddramAddr_line_zero (col : Nat) : ddramAddr col 0 = col := by
  simp [ddramAddr, lineOffset]

@[simp] theorem ddramAddr_line_one (col : Nat) : ddramAddr col 1 = 0x40 + col := by
  simp [ddramAddr, lineOffset]

/-- The address of a position lies in the window of its line (R41). -/
theorem ddramAddr_window (hcol : col ≤ 39) (hline : line ≤ 1) :
    ddramAddr col line ≤ 0x27 ∨ 0x40 ≤ ddramAddr col line ∧ ddramAddr col line ≤ 0x67 := by
  obtain rfl | rfl := Nat.le_one_iff_eq_zero_or_eq_one.mp hline
  · rw [ddramAddr_line_zero]
    omega
  · rw [ddramAddr_line_one]
    omega

theorem ddramInverse_ddramAddr (hcol : col ≤ 39) (hline : line ≤ 1) :
    ddramInverse (ddramAddr col line) = some (col, line) := by
  obtain rfl | rfl := Nat.le_one_iff_eq_zero_or_eq_one.mp hline
  · simp [ddramInverse, hcol]
  · have above : ¬ 0x40 + col ≤ 0x27 := by omega
    have inside : 0x40 + col ≤ 0x67 := by omega
    simp [ddramInverse, above, inside]

theorem ddramAddr_of_ddramInverse (h : ddramInverse a = some (col, line)) :
    col ≤ 39 ∧ line ≤ 1 ∧ ddramAddr col line = a := by
  unfold ddramInverse at h
  split_ifs at h with hlower hupper
  · obtain ⟨rfl, rfl⟩ := Prod.mk.inj (Option.some.inj h)
    simpa using hlower
  · obtain ⟨rfl, rfl⟩ := Prod.mk.inj (Option.some.inj h)
    rw [ddramAddr_line_one]
    omega

/-- Settles O28, line by line in one direction and window by window in the other. -/
theorem addressTranslationInverse : Obligations.AddressTranslationInverse :=
  ⟨fun _ _ hcol hline => ⟨ddramInverse_ddramAddr hcol hline, ddramAddr_window hcol hline⟩,
    fun _ _ _ => ddramAddr_of_ddramInverse⟩

end Sys2Proof
end

section
/-! PROOFS. The command words (30_encoding.md R63 to R65, R69): encoding and decoding are inverse. -/

namespace Sys2Proof.Machine

open Sys2Proof

/-! ### Decoding a word that was encoded -/

/-- An operand in the `k` bits its base leaves zero is read back from the word (R63). -/
theorem extractLsb'_base_or {k : Nat} {base : Cmd} (hk : k ≤ 10) (hbase : base.extractLsb' 0 k = 0)
    (x : BitVec k) : (base ||| x.setWidth 10).extractLsb' 0 k = x := by
  rw [BitVec.extractLsb'_or, hbase, ← BitVec.setWidth_eq_extractLsb' hk, BitVec.setWidth_setWidth_of_le _ hk,
    BitVec.setWidth_eq]
  exact BitVec.zero_or

/-- The decoder reads back an instruction from its word: flags and don't-care bits by trying them all, an address or a byte
as the operand below the base. -/
theorem decodeCmd_of_encode {i : Instr} {w : Cmd} (h : encode i = some w) : decodeCmd w = i := by
  cases i with
  | clear | home _ | entry _ _ | dispctl _ _ _ | shift _ _ _ | funcset _ _ _ _ | noneWord =>
    obtain rfl := Option.some.inj h
    decide +revert
  | setcg _ | setdd _ | rdbf _ | wrdata _ | rddata _ =>
    obtain rfl := Option.some.inj h
    simp [decodeCmd, extractLsb'_base_or, baseSetcg, baseSetdd, baseRdbf, baseWrdata, baseRddata]
  | _ => exact absurd h (by simp [encode])

/-! ### Encoding what a word decodes to -/

/-- The lowest `k` bits of a word, in place: what the decoder has still to read once it has looked at the bits above. -/
def lowBits (k : Nat) (w : Cmd) : Cmd := (w.setWidth k).setWidth 10

theorem lowBits_zero (w : Cmd) : lowBits 0 w = 0#10 := by
  rw [lowBits, BitVec.of_length_zero (x := w.setWidth 0), BitVec.setWidth_zero]

theorem lowBits_ten (w : Cmd) : lowBits 10 w = w := by
  rw [lowBits, BitVec.setWidth_eq, BitVec.setWidth_eq]

/-- The highest of the lowest bits moves over to the bits already read. -/
theorem or_lowBits_succ (m : Cmd) (k : Nat) (w : Cmd) :
    m ||| lowBits (k + 1) w = m ||| argIf (w.getLsbD k) (maskDB k) ||| lowBits k w := by
  cases h : w.getLsbD k with
  | true =>
    rw [BitVec.or_assoc, BitVec.or_comm (argIf _ _)]
    exact congrArg (m ||| ·) (BitVec.setWidth_setWidth_succ_eq_setWidth_setWidth_or_twoPow_of_getLsbD_true h)
  | false =>
    rw [show argIf false (maskDB k) = 0#10 from rfl, BitVec.or_zero]
    exact congrArg (m ||| ·) (BitVec.setWidth_setWidth_succ_eq_setWidth_setWidth_of_getLsbD_false h)

/-- One branch of the decoder: it looks at bit `k` with the bits `m` above it read. -/
theorem encode_ite_bit {k : Nat} {m w : Cmd} {i j : Instr}
    (hset : encode i = some (m ||| maskDB k ||| lowBits k w))
    (hclear : encode j = some (m ||| lowBits k w)) :
    encode (if w.getLsbD k then i else j) = some (m ||| lowBits (k + 1) w) := by
  rw [or_lowBits_succ]
  cases w.getLsbD k with
  | true => exact hset
  | false => simpa [argIf] using hclear

/-- The word of what a word decodes to is that word, branch by branch of R64: the bits read are the base, and the bits left
are the operand, or its flags one at a time. -/
theorem encode_decodeCmd (w : Cmd) : encode (decodeCmd w) = some w := by
  suffices h : encode (decodeCmd w) = some (0#10 ||| lowBits 10 w) by rwa [lowBits_ten, BitVec.zero_or] at h
  have data := encode_ite_bit (w := w) (k := 8) (m := 0#10 ||| maskDB 9) (i := .rddata w.db) (j := .wrdata w.db) rfl rfl
  refine encode_ite_bit data <| encode_ite_bit ?rdbf <| encode_ite_bit ?setdd <| encode_ite_bit ?setcg <|
    encode_ite_bit ?funcset <| encode_ite_bit ?shift <| encode_ite_bit ?dispctl <| encode_ite_bit ?entry <|
    encode_ite_bit ?home <| encode_ite_bit ?clear ?noneWord
  case rdbf | setdd | setcg => rfl
  case funcset =>
    rw [or_lowBits_succ, or_lowBits_succ, or_lowBits_succ]
    rfl
  case shift =>
    rw [or_lowBits_succ, or_lowBits_succ]
    rfl
  case dispctl | entry | home | clear | noneWord =>
    simp only [or_lowBits_succ, lowBits_zero, BitVec.or_zero]
    rfl

/-- Settles O7, by cases on the instruction in one direction and bit by bit of the decoder in the other. -/
theorem encodeDecodeAgree : Obligations.EncodeDecodeAgree := by
  refine ⟨fun i c h => decode_eq_ok.mpr ⟨c.isLt, ?_⟩, encode_decodeCmd⟩
  rw [BitVec.ofNat_toNat, BitVec.setWidth_eq]
  exact decodeCmd_of_encode h

/-- Settles O6, by evaluating the decoder on each written-out word. -/
theorem sampleWordsDecode : Obligations.SampleWordsDecode := by
  unfold Obligations.SampleWordsDecode
  decide

end Sys2Proof.Machine
end

section
/-! PROOFS. The command words run as one step (40_commands.md R80 to R91): a write word returns nothing, a read word the 8
bits of its own transfer or E2. -/

namespace Sys2Proof.Machine

open Sys2Proof

variable {c : Cmd} {s : State}

/-- `ac_space` after a word that spells an instruction, from the instruction's name (42_execute.md R133). -/
theorem acSpaceAfter_of_encode {i : Instr} (h : encode i = some c) (a : AcSpace) : acSpaceAfter c a = spaceAfter i a := by
  rw [acSpaceAfter_decodeCmd, decodeCmd_of_encode h]

/-- Where no primitive fails, a word the bus can transfer ends its step with a return: it ran as its transfer and its
completion, and nothing changes but what those drive, `ac_space` and the reply (42_execute.md R131 to R134). -/
theorem runWord_completes (h : c.rw = false ∨ s.cfg.canRead = true) (hb : s.busOk = true) :
    ∃ v u, execCmd c s = .ok v u ∧ WordRun c s u ∧ runWord c s = .next (returnValue (execValue v) u) ∧
      BusDone { s with acSpace := acSpaceAfter c s.acSpace, reply := .returned (execValue v) }
        (returnValue (execValue v) u) := by
  obtain ⟨v, u, hx, -, hd⟩ := execCmd_completes h hb
  exact ⟨v, u, hx, execCmd_wordRun h hx, runWord_ok hx, hd.setReply _⟩

/-- Settles O19: a write word's `exec` completes and returns no value, and its name gives `ac_space`. -/
theorem writeWordsComplete : Obligations.WriteWordsComplete := by
  intro i c s he hw hb
  obtain ⟨v, u, hx, hrun, hret, hd⟩ := runWord_completes (.inl hw) hb
  obtain ⟨rfl, evs, htrace⟩ := execCmd_write hw hx
  rw [acSpaceAfter_of_encode he] at hd
  exact ⟨u, evs, hrun, (exec_of_encode he s).trans hret, hd, htrace⟩

/-- A read word that leaves `ac_space` alone returns the bits of its own transfer (42_execute.md R137). -/
theorem exec_readWord {i : Instr} {rs : Bool} (he : encode i = some c) (hr : c.rw = true) (hrs : c.rs = rs)
    (hsp : spaceAfter i s.acSpace = s.acSpace) (hc : s.cfg.canRead = true) (hb : s.busOk = true) :
    ∃ u evs, WordRun c s u ∧ exec i s = .next (returnValue (.byte s.nextRead) u) ∧
      BusDone { s with reply := .returned (.byte s.nextRead) } (returnValue (.byte s.nextRead) u) ∧
      u.trace = s.trace ++ readEvents s rs ++ evs := by
  obtain ⟨v, u, hx, hrun, hret, hd⟩ := runWord_completes (.inr hc) hb
  obtain ⟨rfl, evs, htrace⟩ := execCmd_read hr hc hx
  rw [acSpaceAfter_of_encode he, hsp] at hd
  rw [hrs] at htrace
  exact ⟨u, evs, hrun, (exec_of_encode he s).trans hret, hd, htrace⟩

/-- On a write-only bus a read word raises E2, and only the reply changes (41_transport.md R111). -/
theorem exec_readWord_unsupported {i : Instr} (he : encode i = some c) (hr : c.rw = true) (hc : s.cfg.canRead = false) :
    exec i s = .next { s with reply := .error (.e2 .readUnsupported) } :=
  (exec_of_encode he s).trans (finish_error (bind_error (execCmd_unsupported hr hc)))

/-! ### The bits of the two read words -/

theorem rdbfWord_rw (x : Byte) : Cmd.rw (0x100 ||| x.setWidth 10) = true := by simp

theorem rdbfWord_rs (x : Byte) : Cmd.rs (0x100 ||| x.setWidth 10) = false := by simp

theorem rddataWord_rw (x : Byte) : Cmd.rw (0x300 ||| x.setWidth 10) = true := by simp

theorem rddataWord_rs (x : Byte) : Cmd.rs (0x300 ||| x.setWidth 10) = true := by simp

/-- Settles O21: both words are reads that leave `ac_space` alone, and their RS bits select the transfer's register. -/
theorem readWords : Obligations.ReadWords := by
  refine fun x s => ⟨fun hc hb => ⟨?_, ?_⟩, fun hc => ⟨?_, ?_⟩⟩
  · exact exec_readWord rfl (rdbfWord_rw x) (rdbfWord_rs x) rfl hc hb
  · exact exec_readWord rfl (rddataWord_rw x) (rddataWord_rs x) rfl hc hb
  · exact exec_readWord_unsupported rfl (rdbfWord_rw x) hc
  · exact exec_readWord_unsupported rfl (rddataWord_rw x) hc

end Sys2Proof.Machine
end

section
/-! PROOFS. The calls of the transport functions (41_transport.md R100) and their checks (R107, R111). -/

namespace Sys2Proof.Machine

open Sys2Proof

variable {s : State}

/-! ### How a transport function's call ends -/

theorem runBus_returned {v : Variant} {m : Drv Unit} {t : State} (hv : s.cfg.variant = v) (h : m s = .ok () t) :
    runBus v m s = .next (returnValue .nothing t) :=
  finish_ok (by rw [bind_ok (requireVariant_eq hv), bind_ok h, pure_run])

theorem runBus_raised {v : Variant} {m : Drv Unit} {t : State} {e : Error} (hv : s.cfg.variant = v)
    (h : m s = .error (.error e) t) : runBus v m s = .next (raiseError e t) :=
  finish_error (by rw [bind_ok (requireVariant_eq hv), bind_error h])

theorem runBusRead_returned {v : Variant} {m : Drv Byte} {b : Byte} {t : State} (hv : s.cfg.variant = v)
    (h : m s = .ok b t) : runBusRead v m s = .next (returnValue (.byte b) t) :=
  finish_ok (by rw [bind_ok (requireVariant_eq hv), bind_ok h, pure_run])

theorem runBusRead_raised {v : Variant} {m : Drv Byte} {t : State} {e : Error} (hv : s.cfg.variant = v)
    (h : m s = .error (.error e) t) : runBusRead v m s = .next (raiseError e t) :=
  finish_error (by rw [bind_ok (requireVariant_eq hv), bind_error h])

/-! ### The checks -/

theorem writeChecks_outOfRange {c : Nat} (hc : 1024 ≤ c) (s : State) :
    writeChecks c s = .error (.error (.e1 (.commandOutOfRange c))) s :=
  bind_error (require_false (by simpa using hc) _ _)

theorem writeChecks_wrongDirection {c : Nat} (hc : c < 1024) (hr : c.testBit 8 = true) (s : State) :
    writeChecks c s = .error (.error (.e1 (.wrongDirection c))) s := by
  rw [writeChecks, bind_ok (require_true (by simpa using hc) _ _)]
  exact require_false (by simpa using hr) _ _

theorem readChecks_outOfRange {c : Nat} (hc : 1024 ≤ c) (s : State) :
    readChecks c s = .error (.error (.e1 (.commandOutOfRange c))) s :=
  bind_error (require_false (by simpa using hc) _ _)

theorem readChecks_wrongDirection {c : Nat} (hc : c < 1024) (hw : c.testBit 8 = false) (s : State) :
    readChecks c s = .error (.error (.e1 (.wrongDirection c))) s := by
  rw [readChecks, bind_ok (require_true (by simpa using hc) _ _)]
  exact bind_error (require_false hw _ _)

/-- A `bus.write` that its checks stop changes only the reply, whatever its body is. -/
theorem runBus_writeChecks {v : Variant} (body : Drv Unit) (hv : s.cfg.variant = v) (c : Nat) :
    (1024 ≤ c → runBus v (writeChecks c >>= fun _ => body) s =
      .next { s with reply := .error (.e1 (.commandOutOfRange c)) }) ∧
    (c < 1024 → c.testBit 8 = true → runBus v (writeChecks c >>= fun _ => body) s =
      .next { s with reply := .error (.e1 (.wrongDirection c)) }) :=
  ⟨fun hc => runBus_raised hv (bind_error (writeChecks_outOfRange hc s)),
    fun hc hr => runBus_raised hv (bind_error (writeChecks_wrongDirection hc hr s))⟩

/-- A `bus.read` that its checks stop changes only the reply, whatever its body is. -/
theorem runBusRead_readChecks {v : Variant} (body : Drv Byte) (hv : s.cfg.variant = v) (c : Nat) :
    (1024 ≤ c → runBusRead v (readChecks c >>= fun _ => body) s =
      .next { s with reply := .error (.e1 (.commandOutOfRange c)) }) ∧
    (c < 1024 → c.testBit 8 = false → runBusRead v (readChecks c >>= fun _ => body) s =
      .next { s with reply := .error (.e1 (.wrongDirection c)) }) ∧
    (c < 1024 → c.testBit 8 = true → s.cfg.canRead = false → runBusRead v (readChecks c >>= fun _ => body) s =
      .next { s with reply := .error (.e2 .readUnsupported) }) :=
  ⟨fun hc => runBusRead_raised hv (bind_error (readChecks_outOfRange hc s)),
    fun hc hw => runBusRead_raised hv (bind_error (readChecks_wrongDirection hc hw s)),
    fun hc hr hu => runBusRead_raised hv (bind_error (readChecks_unsupported hc hr hu))⟩

/-- Settles O54: each of the three `bus.write` begins with the write checks. -/
theorem busWriteChecks : Obligations.BusWriteChecks := by
  intro v i hi c s hv
  simp only [List.mem_cons, Prod.mk.injEq, List.not_mem_nil, or_false] at hi
  rcases hi with ⟨rfl, rfl⟩ | ⟨rfl, rfl⟩ | ⟨rfl, rfl⟩
  · exact runBus_writeChecks (parWrite8 _) hv c
  · exact runBus_writeChecks (parWrite4 _) hv c
  · exact runBus_writeChecks (i2cWriteWord _) hv c

/-- Settles O58: each of the three `bus.read` begins with the read checks. -/
theorem busReadChecks : Obligations.BusReadChecks := by
  intro v i hi c s hv
  simp only [List.mem_cons, Prod.mk.injEq, List.not_mem_nil, or_false] at hi
  rcases hi with ⟨rfl, rfl⟩ | ⟨rfl, rfl⟩ | ⟨rfl, rfl⟩
  · exact runBusRead_readChecks (parReadBody _) hv c
  · exact runBusRead_readChecks (parReadBody _) hv c
  · exact runBusRead_readChecks (i2cReadBody _) hv c

end Sys2Proof.Machine
end

section
/-! PROOFS. The transfers of the three transports (41_transport.md R103 to R117): where no primitive fails, `bus.write` drives
the word and `bus.read` returns the next answer of the environment. -/

namespace Sys2Proof.Machine

open Sys2Proof

variable {s : State}

theorem busOk_of_parallel (hq : s.quiet = true) (hv : s.cfg.variant ≠ .i2cMux4) : s.busOk = true := by
  simp [State.busOk, State.resolved, hq, hv]

theorem busOk_of_addr {a : Addr7} (hq : s.quiet = true) (ha : s.i2cAddr = some a) : s.busOk = true := by
  simp [State.busOk, State.resolved, hq, ha]

/-! ### The levels after a parallel write cycle -/

section CycleLevels

/-- Driving data lines leaves RS and RW alone. -/
theorem dataLevels_rs_rw (val : Byte) (low : Nat) (ls : List (Fin 8)) (v : Levels) :
    (dataLevels val low ls v).rs = v.rs ∧ (dataLevels val low ls v).rw = v.rw := by
  induction ls generalizing v with
  | nil => exact ⟨rfl, rfl⟩
  | cons i is ih => exact ih _

/-- Each driven data line holds and carries its bit of the value, and every other line is as before. -/
theorem dataLevels_lines (val : Byte) (low : Nat) (ls : List (Fin 8)) (v : Levels) (i : Fin 8) :
    ((dataLevels val low ls v).data[i] = if i ∈ ls then .driven (val.getLsbD (i - low)) else v.data[i]) ∧
      (dataLevels val low ls v).wire[i] = if i ∈ ls then .driven (val.getLsbD (i - low)) else v.wire[i] := by
  induction ls generalizing v with
  | nil => exact ⟨rfl, rfl⟩
  | cons j js ih =>
    obtain ⟨hdata, hwire⟩ := ih (v.drive (.data j) (val.getLsbD (j - low)))
    rw [dataLevels, hdata, hwire]
    by_cases hij : i = j
    · subst hij
      simp
    · have hji : (j : Nat) ≠ i := fun h => hij (Fin.ext h.symm)
      simp [hij, Vector.getElem_set_ne, hji]

variable (cfg : Config) (rs : Bool) (val : Byte) (v : Levels)

theorem parCycleLevels_rs : (parCycleLevels cfg rs val v).rs = .driven rs := by
  refine (dataLevels_rs_rw _ _ _ _).1.trans ?_
  cases cfg.rwWired <;> rfl

theorem parCycleLevels_rw (h : cfg.rwWired = true) : (parCycleLevels cfg rs val v).rw = .driven false := by
  refine (dataLevels_rs_rw _ _ _ _).2.trans ?_
  rw [h]
  rfl

theorem parCycleLevels_lines (i : Fin 8) :
    ((parCycleLevels cfg rs val v).data[i] =
      if i ∈ cfg.dataLines then .driven (val.getLsbD (i - (8 - cfg.width))) else v.data[i]) ∧
    (parCycleLevels cfg rs val v).wire[i] =
      if i ∈ cfg.dataLines then .driven (val.getLsbD (i - (8 - cfg.width))) else v.wire[i] := by
  have h := dataLevels_lines val (8 - cfg.width) cfg.dataLines
    ((if cfg.rwWired then Levels.drive .rw false else id) (v.drive .rs rs)) i
  cases hw : cfg.rwWired <;> rw [hw] at h <;> simpa [parCycleLevels, hw] using h

/-- The data lines of a 4-bit bus are the upper four (41_transport.md R101). -/
theorem mem_upperLines (i : Fin 8) : i ∈ ([7, 6, 5, 4] : List (Fin 8)) ↔ 4 ≤ i.val := by decide +revert

/-- The data lines of an 8-bit bus are all eight (41_transport.md R101). -/
theorem mem_allLines (i : Fin 8) : i ∈ ([7, 6, 5, 4, 3, 2, 1, 0] : List (Fin 8)) := by decide +revert

/-- On Parallel-8 every line ends with its bit of the word (41_transport.md R105). -/
theorem write8_lines (hv : cfg.variant = .parallel8) (w : Cmd) (i : Fin 8) :
    (parCycleLevels cfg w.rs w.db v).data[i] = .driven (w.getLsbD i) ∧
      (parCycleLevels cfg w.rs w.db v).wire[i] = .driven (w.getLsbD i) := by
  have hbit : w.db.getLsbD (i - (8 - cfg.width)) = w.getLsbD i := by
    simp [Config.width, hv]
  have hmem : i ∈ cfg.dataLines := by
    rw [Config.dataLines, hv]
    exact mem_allLines i
  obtain ⟨hdata, hwire⟩ := parCycleLevels_lines cfg w.rs w.db v i
  rw [hdata, hwire, if_pos hmem, if_pos hmem, hbit]
  exact ⟨rfl, rfl⟩

/-- On Parallel-4 the upper lines end with the low nibble, whatever the first cycle drove (41_transport.md R106). -/
theorem write4_lines (hv : cfg.variant = .parallel4) (w : Cmd) (i : Fin 8) :
    ((parCycleLevels cfg w.rs (w.lo.setWidth 8) (parCycleLevels cfg w.rs (w.hi.setWidth 8) v)).data[i] =
      if 4 ≤ i.val then .driven (w.getLsbD (i - 4)) else v.data[i]) ∧
    (parCycleLevels cfg w.rs (w.lo.setWidth 8) (parCycleLevels cfg w.rs (w.hi.setWidth 8) v)).wire[i] =
      if 4 ≤ i.val then .driven (w.getLsbD (i - 4)) else v.wire[i] := by
  have hbit : (w.lo.setWidth 8).getLsbD (i - (8 - cfg.width)) = w.getLsbD (i - 4) := by
    have h4 : i.val - 4 < 4 := by omega
    have h8 : i.val - 4 < 8 := by omega
    simp [Config.width, hv, h4, h8]
  have hmem : i ∈ cfg.dataLines ↔ 4 ≤ i.val := by
    rw [Config.dataLines, hv]
    exact mem_upperLines i
  obtain ⟨hdata, hwire⟩ := parCycleLevels_lines cfg w.rs (w.lo.setWidth 8) (parCycleLevels cfg w.rs (w.hi.setWidth 8) v) i
  obtain ⟨hdata', hwire'⟩ := parCycleLevels_lines cfg w.rs (w.hi.setWidth 8) v i
  rw [hdata, hwire, hdata', hwire', hbit]
  simp only [hmem]
  split <;> exact ⟨rfl, rfl⟩

end CycleLevels

/-! ### bus.write -/

/-- Where no primitive fails, the transfer of a word completes with exactly its events and its levels. -/
theorem writeBody_completes (w : Cmd) (hb : s.busOk = true) :
    ∃ u, writeBody s.cfg.variant w s = .ok () u ∧ BusDone s u ∧ u.trace = s.trace ++ writeEvents s w ∧
      u.lvl = writeLevels s.cfg s.bl w s.lvl := by
  obtain ⟨_, u, hu, -⟩ := (writeBody_busOp w).completes rfl hb
  have he := writeBody_emits hu
  refine ⟨u, hu, writeBody_done w s _ u rfl hu, he.trace, ?_⟩
  obtain ⟨fs, -, rfl⟩ := he
  rfl

/-- The `bus.write` of the variant `v`, its checks and then its transfer, of a write word. -/
theorem runBus_write_completes {v : Variant} {w : Cmd} (hw : w.rw = false) (hv : s.cfg.variant = v)
    (hb : s.busOk = true) :
    ∃ t, runBus v (writeChecks w.toNat >>= fun _ => writeBody v (BitVec.ofNat 10 w.toNat)) s = .next t ∧
      BusDone { s with reply := .returned .nothing } t ∧ t.trace = s.trace ++ writeEvents s w ∧
      t.lvl = writeLevels s.cfg s.bl w s.lvl := by
  obtain ⟨u, hu, hd, htrace, hlvl⟩ := writeBody_completes w hb
  rw [hv] at hu
  refine ⟨_, runBus_returned hv ?_, hd.setReply _, htrace, hlvl⟩
  rw [bind_ok (writeChecks_pass w.isLt (by simpa using hw) s), BitVec.ofNat_toNat, BitVec.setWidth_eq, hu]

/-- Settles O53: each transport's transfer completes, and the last cycle's levels are the final ones. -/
theorem busWriteTransfersTheWord : Obligations.BusWriteTransfersTheWord := by
  intro w s hw hq
  refine ⟨fun hv => ?_, fun hv => ?_, fun hv a ha => ?_⟩
  · obtain ⟨t, hx, hd, htrace, hlvl⟩ := runBus_write_completes hw hv (busOk_of_parallel hq (by simp [hv]))
    simp only [writeEvents, hv] at htrace
    simp only [writeLevels, hv] at hlvl
    refine ⟨t, hx, hd, htrace, ?_⟩
    rw [hlvl]
    exact ⟨parCycleLevels_rs _ _ _ _, parCycleLevels_rw _ _ _ _, rfl, write8_lines _ _ hv w⟩
  · obtain ⟨t, hx, hd, htrace, hlvl⟩ := runBus_write_completes hw hv (busOk_of_parallel hq (by simp [hv]))
    simp only [writeEvents, hv] at htrace
    simp only [writeLevels, hv] at hlvl
    refine ⟨t, hx, hd, htrace, ?_⟩
    rw [hlvl]
    exact ⟨parCycleLevels_rs _ _ _ _, parCycleLevels_rw _ _ _ _, rfl, write4_lines _ _ hv w⟩
  · obtain ⟨t, hx, hd, htrace, hlvl⟩ := runBus_write_completes hw hv (busOk_of_addr hq ha)
    simp only [writeEvents, hv, ha] at htrace
    simp only [writeLevels, hv] at hlvl
    exact ⟨t, hx, hd, htrace, by rw [hlvl]⟩

/-! ### bus.read -/

/-- Where no primitive fails, a read completes, returns the next answer, and emits exactly its events. -/
theorem readBody_completes (rs : Bool) (hb : s.busOk = true) :
    ∃ u, readBody s.cfg.variant rs s = .ok s.nextRead u ∧ BusDone s u ∧ u.trace = s.trace ++ readEvents s rs := by
  obtain ⟨b, u, hu, -⟩ := (readBody_busOp rs).completes rfl hb
  obtain ⟨rfl, htrace⟩ := readBody_value hu
  exact ⟨u, hu, readBody_done rs s _ u rfl hu, htrace⟩

/-- The `bus.read` of the variant `v`, its checks and then its transfer, of a read word on a readable bus. -/
theorem runBusRead_completes {v : Variant} {w : Cmd} (hr : w.rw = true) (hv : s.cfg.variant = v)
    (hc : s.cfg.canRead = true) (hb : s.busOk = true) :
    ∃ t, runBusRead v (readChecks w.toNat >>= fun _ => readBody v (w.toNat.testBit 9)) s = .next t ∧
      BusDone { s with reply := .returned (.byte s.nextRead) } t ∧ t.trace = s.trace ++ readEvents s w.rs := by
  obtain ⟨u, hu, hd, htrace⟩ := readBody_completes w.rs hb
  rw [hv] at hu
  refine ⟨_, runBusRead_returned hv ?_, hd.setReply _, htrace⟩
  rw [bind_ok (readChecks_pass w.isLt (by simpa using hr) hc), Cmd.testBit9, hu]

/-- On a parallel transport bit `7 - k` of the next answer is the `k`-th sample, D7 first (41_transport.md R109, R110). -/
theorem nextRead_sampleAt (hv : s.cfg.variant ≠ .i2cMux4) {k : Nat} (hk : k < 8) :
    s.nextRead.getLsbD (7 - k) = s.sampleAt k := by
  rw [nextRead_parallel hv, shiftIn_eight _ _ hk]

/-- Settles O55: the answer of a read is its eight samples. -/
theorem busReadEightSamples : Obligations.BusReadEightSamples := by
  intro w s hr hv hc hq
  have hp : s.cfg.variant ≠ .i2cMux4 := by simp [hv]
  obtain ⟨t, hx, hd, htrace⟩ := runBusRead_completes hr hv hc (busOk_of_parallel hq hp)
  simp only [readEvents, hv] at htrace
  exact ⟨t, s.nextRead, hx, hd, fun k hk => nextRead_sampleAt hp hk, htrace⟩

/-- Settles O56: the second cycle's samples are the fifth to the eighth. -/
theorem busReadTwoNibbles : Obligations.BusReadTwoNibbles := by
  intro w s hr hv hc hq
  have hp : s.cfg.variant ≠ .i2cMux4 := by simp [hv]
  obtain ⟨t, hx, hd, htrace⟩ := runBusRead_completes hr hv hc (busOk_of_parallel hq hp)
  simp only [readEvents, hv] at htrace
  refine ⟨t, s.nextRead, hx, hd, fun k hk => ⟨nextRead_sampleAt hp (by omega), ?_⟩, htrace⟩
  rw [show 3 - k = 7 - (4 + k) by omega, nextRead_sampleAt hp (by omega)]

/-- The nibble read back from an expander byte is its four mapped data bits (30_encoding.md R67). -/
theorem expNibble_bits (m : I2CMap) (b : Byte) :
    (expNibble m b).getLsbD 3 = b.getLsbD m.d7 ∧ (expNibble m b).getLsbD 2 = b.getLsbD m.d6 ∧
      (expNibble m b).getLsbD 1 = b.getLsbD m.d5 ∧ (expNibble m b).getLsbD 0 = b.getLsbD m.d4 := by
  have h : ∀ d7 d6 d5 d4 : Bool, ∀ n : Nibble,
      n = BitVec.ofBool d7 ++ BitVec.ofBool d6 ++ BitVec.ofBool d5 ++ BitVec.ofBool d4 →
        n.getLsbD 3 = d7 ∧ n.getLsbD 2 = d6 ∧ n.getLsbD 1 = d5 ∧ n.getLsbD 0 = d4 := by decide
  exact h _ _ _ _ _ rfl

theorem joinNibbles_high (hi lo : Nibble) {k : Nat} (hk : k < 4) : (joinNibbles hi lo).getLsbD (4 + k) = hi.getLsbD k := by
  have : 4 + k < 8 := by omega
  simp [joinNibbles, this]

theorem joinNibbles_low (hi lo : Nibble) {k : Nat} (hk : k < 4) : (joinNibbles hi lo).getLsbD k = lo.getLsbD k := by
  have : k < 8 := by omega
  simp [joinNibbles, hk, this]

/-- Settles O57: the answer of a read joins the nibbles of the next two expander bytes. -/
theorem busReadExpander : Obligations.BusReadExpander := by
  intro w s a hr hv hc hq ha
  obtain ⟨t, hx, hd, htrace⟩ := runBusRead_completes hr hv hc (busOk_of_addr hq ha)
  simp only [readEvents, hv, ha] at htrace
  have hval : s.nextRead = joinNibbles (expNibble s.cfg.i2cMap (s.readAt 0)) (expNibble s.cfg.i2cMap (s.readAt 1)) := by
    rw [State.nextRead, hv]
  obtain ⟨h7, h6, h5, h4⟩ := expNibble_bits s.cfg.i2cMap (s.readAt 0)
  obtain ⟨h3, h2, h1, h0⟩ := expNibble_bits s.cfg.i2cMap (s.readAt 1)
  refine ⟨t, s.nextRead, hx, hd, ?_⟩
  rw [hval]
  exact ⟨(joinNibbles_high _ _ (k := 3) (by simp)).trans h7, (joinNibbles_high _ _ (k := 2) (by simp)).trans h6,
    (joinNibbles_high _ _ (k := 1) (by simp)).trans h5, (joinNibbles_high _ _ (k := 0) (by simp)).trans h4,
    (joinNibbles_low _ _ (by simp)).trans h3, (joinNibbles_low _ _ (by simp)).trans h2,
    (joinNibbles_low _ _ (by simp)).trans h1, (joinNibbles_low _ _ (by simp)).trans h0, htrace⟩

end Sys2Proof.Machine
end

section
/-! PROOFS. The enable pulse of a parallel bus cycle, and the data lines after a parallel read (41_transport.md R102, R103, R108). -/

namespace Sys2Proof.Machine

open Sys2Proof

variable {s t : State}

/-! ### The events before E goes high -/

/-- The events of a write cycle before its pulse: RS, RW, the data lines, the setup time (41_transport.md R103). -/
def writeSetupEvents (cfg : Config) (rs : Bool) (val : Byte) : List Event :=
  .drive .rs rs :: (if cfg.rwWired then [.drive .rw false] else [])
    ++ cfg.dataLines.map (fun i => .drive (.data i) (val.getLsbD (i.val - (8 - cfg.width))))
    ++ [.sleepUs cfg.tAsUs]

/-- The events of a read cycle before E goes high: RS, RW, the setup time (41_transport.md R108). -/
def readSetupEvents (cfg : Config) (rs : Bool) : List Event := [.drive .rs rs, .drive .rw true, .sleepUs cfg.tAsUs]

theorem parCycleEvents_eq_setup_pulse (cfg : Config) (rs : Bool) (val : Byte) :
    parCycleEvents cfg rs val = writeSetupEvents cfg rs val ++ pulseEvents cfg := by
  simp [parCycleEvents, writeSetupEvents]

theorem writeSetupEvents_ne_e {cfg : Config} {rs : Bool} {val : Byte} {e : Event} (he : e ∈ writeSetupEvents cfg rs val)
    (b : Bool) : e ≠ .drive .e b := by
  rintro rfl
  cases hw : cfg.rwWired <;> simp [writeSetupEvents, hw] at he

theorem parWriteCycle_trace {rs : Bool} {val : Byte} (h : parWriteCycle rs val s = .ok () t) :
    t.trace = s.trace ++ parCycleEvents s.cfg rs val :=
  Emits.trace (parWriteCycle_writeOp rs val s () t rfl rfl rfl h)

/-! ### The data lines after a parallel read -/

/-- A transport read that returned to the caller ran its body to the end. -/
theorem runBusRead_ok {v : Variant} {m : Drv Byte} {x : Value} (h : runBusRead v m s = .next t)
    (hr : t.reply = .returned x) : ∃ b u, m s = .ok b u ∧ t = returnValue (.byte b) u := by
  obtain ⟨w, u, hu, rfl⟩ | ⟨e, u, -, rfl⟩ := finish_next h
  · obtain ⟨_, x, hv, hu⟩ := bind_eq_ok.mp hu
    obtain ⟨b, y, hm, hy⟩ := bind_eq_ok.mp hu
    obtain ⟨rfl, rfl⟩ : Value.byte b = w ∧ y = u := by simpa using hy
    have hx : s = x := by
      obtain ⟨_, k⟩ | ⟨_, k, -⟩ := requireVariant_check v s <;> rw [k] at hv
      · simpa using hv
      · simp at hv
    exact ⟨b, y, hx ▸ hm, rfl⟩
  · simp at hr

/-- A completed `bus.read` of a parallel transport is its transfer. -/
theorem parRead_ok {c : Nat} {b : Byte} (h : parRead c s = .ok b t) : parReadBody (c.testBit 9) s = .ok b t := by
  obtain ⟨_, x, hc, hx⟩ := bind_eq_ok.mp h
  obtain ⟨k, -⟩ | ⟨_, k⟩ | ⟨_, k⟩ := readChecks_cases c s <;> rw [k] at hc
  · obtain rfl : s = x := by simpa using hc
    exact hx
  · simp at hc
  · simp at hc

/-- Both parallel `bus.read` are the same function behind the check of the variant (R109, R110). -/
theorem busRead_parallel_returned {i : Instr} {c : Nat} {x : Value} (hi : i = .busReadP8 c ∨ i = .busReadP4 c)
    (h : exec i s = .next t) (hr : t.reply = .returned x) :
    ∃ b u, parReadBody (c.testBit 9) s = .ok b u ∧ t = returnValue (.byte b) u := by
  obtain ⟨b, u, hm, ht⟩ : ∃ b u, parRead c s = .ok b u ∧ t = returnValue (.byte b) u := by
    rcases hi with rfl | rfl <;> exact runBusRead_ok h hr
  exact ⟨b, u, parRead_ok hm, ht⟩

/-- Settles O52: the exact events of a cycle hold its one pulse, and a read restores the lines. -/
theorem oneEnablePulsePerCycle : Obligations.OneEnablePulsePerCycle := by
  intro rs s hv
  refine ⟨fun val t h => ?_, fun v t h => ?_, fun c i v t hi h hr => ?_⟩
  · refine ⟨writeSetupEvents s.cfg rs val, ?_, fun e he => writeSetupEvents_ne_e he⟩
    rw [parWriteCycle_trace h, parCycleEvents_eq_setup_pulse, List.append_assoc]
    rfl
  · refine ⟨readSetupEvents s.cfg rs, (List.range s.cfg.dataLines.length).map s.sampleAt, ?_, by simp, ?_⟩
    · rw [(parReadCycle_samples h).2.trace]
      simp [parReadCycleEvents, readSetupEvents]
    · simp [readSetupEvents]
  · obtain ⟨b, u, hu, rfl⟩ := busRead_parallel_returned hi h hr
    obtain ⟨hdata, hlines⟩ := parReadBody_lines hv hu
    refine ⟨hdata, fun l hl => ?_, fun l hl => ?_⟩
    · simpa [hl] using hlines l
    · simpa [hl] using hlines l

end Sys2Proof.Machine
end

section
/-! PROOFS. `bus.set_backlight` (41_transport.md R112, R118): the flag, one event, one level. -/

namespace Sys2Proof.Machine

open Sys2Proof

variable {s : State}

/-- The expander byte of a backlight change is the backlight bit alone (41_transport.md R118). -/
theorem expByte_backlight (m : I2CMap) (en : Bool) :
    expByte m false false false en 0 = if en then 1#8 <<< m.bl else 0 := by
  simp [expByte, expBit]

/-- The levels after a backlight change: the line, or the expander byte (41_transport.md R112, R118). -/
def backlightLevels (cfg : Config) (en : Bool) (v : Levels) : Levels :=
  match cfg.variant with
  | .parallel8 | .parallel4 => { v with bl := .driven (if en then cfg.blActiveLevel else !cfg.blActiveLevel) }
  | .i2cMux4 => { v with i2c := .driven (if en then 1#8 <<< cfg.i2cMap.bl else 0) }

/-- Where no primitive fails the line is driven, or the byte written, and nothing else happens. -/
theorem blBody_completes (en : Bool) (hb : s.busOk = true) :
    ∃ u, blBody s.cfg en s = .ok () u ∧ Emits (backlightEvents s en) (backlightLevels s.cfg en) s u := by
  obtain ⟨_, u, hu, -⟩ := (blBody_busOp en).completes rfl hb
  refine ⟨u, hu, ?_⟩
  unfold backlightEvents backlightLevels
  cases hv : s.cfg.variant with
  | parallel8 | parallel4 =>
    simp only [blBody, hv] at hu
    exact drive_ok hu
  | i2cMux4 =>
    simp only [blBody, hv, expByte_backlight] at hu
    obtain ⟨a, fs, ha, hfs, hu⟩ := i2cWrite_ok hu
    simp only [ha]
    exact ⟨fs, hfs, hu⟩

/-- The run of a backlight change where no primitive fails: the flag, then its one event. -/
theorem lightRun_completes (en : Bool) (hb : s.busOk = true) :
    ∃ t, lightRun en s = .next t ∧ t.trace = s.trace ++ backlightEvents s en ∧ t.lvl = backlightLevels s.cfg en s.lvl ∧
      t = { s with bl := en, reply := .returned .nothing, lvl := t.lvl, log := t.log, env := t.env } ∧
      t.env = { s.env with faults := t.env.faults } := by
  obtain ⟨u, hu, he⟩ := blBody_completes (s := { s with bl := en }) en hb
  refine ⟨returnValue .nothing u, finish_ok (by rw [bind_ok hu, pure_run]), he.trace, ?_⟩
  obtain ⟨fs, -, rfl⟩ := he
  exact ⟨rfl, rfl, rfl⟩

/-- Settles O59: without the line E2, otherwise the run of the change. -/
theorem busSetBacklight_unsupported_or_completes : Obligations.BusSetBacklight := by
  refine fun en s => ⟨fun hv hw => ?_, fun hv hw hq => ?_, fun hv hb => ?_⟩
  · exact busSetBacklightPar_unsupported hv (by rw [canBl_eq_ite, if_neg hv, hw])
  · obtain ⟨t, hx, htrace, hlvl, ht, henv⟩ := lightRun_completes en (busOk_of_parallel hq hv)
    refine ⟨t, ?_, htrace, hlvl.trans ?_, ht, henv⟩
    · exact (busSetBacklightPar_eq hv (by rw [canBl_eq_ite, if_neg hv, hw])).trans hx
    · unfold backlightLevels
      cases h : s.cfg.variant with
      | parallel8 | parallel4 => rfl
      | i2cMux4 => exact absurd h hv
  · obtain ⟨t, hx, htrace, hlvl, ht, henv⟩ := lightRun_completes en hb
    refine ⟨t, (busSetBacklightI2C_eq hv).trans hx, htrace, hlvl.trans ?_, ht, henv⟩
    simp only [backlightLevels, hv]

end Sys2Proof.Machine
end

section
/-! PROOFS. `bus.init` (41_transport.md R119 to R122) and `init` on a bus whose scan selects nothing (70_reset_and_hazards.md
R202): the scan, the selection of the address, the power-on sequence. -/

namespace Sys2Proof.Machine

open Sys2Proof

/-! ### When a scan selects an address -/

section Selects

variable {cfg : Config} {addrs : List Addr7} {a b : Addr7}

theorem selects_unconfigured (hc : cfg.i2cAddrCfg = none) : selects cfg addrs a ↔ addrs = [a] := by
  simp [selects, hc]

theorem selects_configured {n : Nat} (hc : cfg.i2cAddrCfg = some n) :
    selects cfg addrs a ↔ a = BitVec.ofNat 7 n ∧ ∃ d ∈ addrs, d.toNat = n := by
  simp [selects, hc]

theorem not_selects_nil : ¬ selects cfg [] a := by
  cases hc : cfg.i2cAddrCfg with
  | none => simp [selects_unconfigured hc]
  | some n => simp [selects_configured hc]

/-- At most one address is selected. -/
theorem selects_unique (ha : selects cfg addrs a) (hb : selects cfg addrs b) : a = b := by
  cases hc : cfg.i2cAddrCfg with
  | none =>
    rw [selects_unconfigured hc] at ha hb
    simpa using ha.symm.trans hb
  | some n => exact ((selects_configured hc).mp ha).1.trans ((selects_configured hc).mp hb).1.symm

end Selects

/-- The reason of the E3 that a scan raises when it selects nothing (41_transport.md R119). -/
def scanError (cfg : Config) (addrs : List Addr7) : E3Info :=
  if addrs = [] then .noDevice
  else match cfg.i2cAddrCfg with
    | none => .ambiguous addrs
    | some n => .addressMissing n

theorem scanError_noDevice (cfg : Config) : scanError cfg [] = .noDevice := if_pos rfl

theorem scanError_ambiguous {cfg : Config} {addrs : List Addr7} (h : addrs ≠ []) (hc : cfg.i2cAddrCfg = none) :
    scanError cfg addrs = .ambiguous addrs := by
  rw [scanError, if_neg h, hc]

theorem scanError_addressMissing {cfg : Config} {addrs : List Addr7} {n : Nat} (h : addrs ≠ [])
    (hc : cfg.i2cAddrCfg = some n) : scanError cfg addrs = .addressMissing n := by
  rw [scanError, if_neg h, hc]

/-! ### The selection where no primitive fails -/

variable {s : State} {a : Addr7}

/-- The scan's event and the address are all that a successful selection adds. -/
theorem i2cSelect_completes (hq : s.quiet = true) (h : selects s.cfg s.nextScan a) :
    ∃ x, i2cSelect s = .ok () x ∧ BusDone { s with i2cAddr := some a } x ∧ x.trace = s.trace ++ [.i2cScan s.nextScan] := by
  obtain ⟨b, x, env, hx, hb, f, rfl⟩ | ⟨_, _, _, -, -, hn, -⟩ | ⟨_, -, hf, -⟩ := i2cSelect_cases s
  · obtain rfl := selects_unique hb h
    exact ⟨_, hx, { BusDone.refl { s with i2cAddr := some b } with toOnlyBus := f.withAddr rfl },
      trace_append (evs := [.i2cScan s.nextScan]) rfl⟩
  · exact absurd h (hn a)
  · simp [hq] at hf

/-- The scan's event is all that a selection of nothing adds, before its E3. -/
theorem i2cSelect_fails (hq : s.quiet = true) (h : ∀ b, ¬ selects s.cfg s.nextScan b) :
    ∃ env, i2cSelect s = .error (.error (.e3 (scanError s.cfg s.nextScan)))
      { s with log := .i2cScan s.nextScan :: s.log, env := env } := by
  obtain ⟨b, _, _, -, hb, -⟩ | ⟨i, _, env, hx, -, -, rfl, hi⟩ | ⟨_, -, hf, -⟩ := i2cSelect_cases s
  · exact absurd hb (h b)
  · refine ⟨env, ?_⟩
    obtain ⟨hn, rfl⟩ | ⟨hn, hc, rfl⟩ | ⟨n, hn, hc, rfl⟩ := hi
    · rw [hx, hn, scanError_noDevice]
    · rw [hx, scanError_ambiguous hn hc]
    · rw [hx, scanError_addressMissing hn hc]
  · simp [hq] at hf

/-! ### bus.init -/

/-- The power-on sequence of a parallel transport completes with exactly its events (R120, R122). -/
theorem parInit_completes (hq : s.quiet = true) (hv : s.cfg.variant ≠ .i2cMux4) :
    ∃ u, parInit s = .ok () u ∧ BusDone s u ∧ u.trace = s.trace ++ powerOnEvents s := by
  obtain ⟨_, u, hu, -⟩ := (parInit_busOp (cfg := s.cfg)).completes rfl (busOk_of_parallel hq hv)
  exact ⟨u, hu, parInit_done s _ u rfl hu, parInit_trace hu⟩

/-- The power-on sequence of I2C-Mux4, once there is an address (R121, R122). -/
theorem i2cPowerOn_completes (hq : s.quiet = true) (hv : s.cfg.variant = .i2cMux4) (ha : s.i2cAddr = some a) :
    ∃ u, i2cPowerOn s = .ok () u ∧ BusDone s u ∧ u.trace = s.trace ++ powerOnEvents s := by
  obtain ⟨_, u, hu, -⟩ := (i2cPowerOn_busOp (cfg := s.cfg)).completes rfl (busOk_of_addr hq ha)
  exact ⟨u, hu, i2cPowerOn_done s _ u rfl hu, i2cPowerOn_trace hv hu⟩

/-- The power-on events are those of the configuration, the address and the flag. -/
theorem powerOnEvents_congr {x y : State} (hc : x.cfg = y.cfg) (ha : x.i2cAddr = y.i2cAddr) (hb : x.bl = y.bl) :
    powerOnEvents x = powerOnEvents y := by
  rw [powerOnEvents_eq, powerOnEvents_eq, hc, ha, hb]

/-- `bus.init` of I2C-Mux4 whose scan selects `a`: the scan, the address, the power-on sequence to it. -/
theorem busInitI2C_completes (hq : s.quiet = true) (hv : s.cfg.variant = .i2cMux4) (h : selects s.cfg s.nextScan a) :
    ∃ t, exec .busInitI2C s = .next t ∧ BusDone { s with i2cAddr := some a, reply := .returned .nothing } t ∧
      t.trace = s.trace ++ .i2cScan s.nextScan :: powerOnEvents { s with i2cAddr := some a } := by
  obtain ⟨x, hx, hd, htrace⟩ := i2cSelect_completes hq h
  obtain ⟨u, hu, hd', htrace'⟩ := i2cPowerOn_completes (hd.quiet hq) (by rw [hd.cfg]; exact hv) hd.i2cAddr
  refine ⟨_, runBus_returned hv ((bind_ok hx).trans hu), (hd.trans hd').setReply _, ?_⟩
  rw [returnValue_trace, htrace', htrace, powerOnEvents_congr hd.cfg hd.i2cAddr hd.bl, List.append_assoc]
  rfl

/-- `bus.init` of I2C-Mux4 whose scan selects nothing: the scan, and E3 before any write. -/
theorem busInitI2C_fails (hq : s.quiet = true) (hv : s.cfg.variant = .i2cMux4)
    (h : ∀ b, ¬ selects s.cfg s.nextScan b) :
    ∃ t, exec .busInitI2C s = .next t ∧ t.reply = .error (.e3 (scanError s.cfg s.nextScan)) ∧
      t.trace = s.trace ++ [.i2cScan s.nextScan] ∧ t.i2cAddr = s.i2cAddr := by
  obtain ⟨env, hx⟩ := i2cSelect_fails hq h
  exact ⟨_, runBus_raised hv (bind_error hx), rfl, trace_append (evs := [.i2cScan s.nextScan]) rfl, rfl⟩

/-- Settles O50: each transport's sequence completes with exactly its events. -/
theorem busInitPowerOn : Obligations.BusInitPowerOn := by
  have par : ∀ {s : State} {v : Variant}, s.quiet = true → s.cfg.variant = v → v ≠ .i2cMux4 →
      ∃ t, runBus v parInit s = .next t ∧ BusDone { s with reply := .returned .nothing } t ∧
        t.trace = s.trace ++ powerOnEvents s := by
    intro s v hq hv hp
    obtain ⟨u, hu, hd, htrace⟩ := parInit_completes hq (hv ▸ hp)
    exact ⟨_, runBus_returned hv hu, hd.setReply _, htrace⟩
  exact fun s hq => ⟨fun hv => par hq hv (by simp), fun hv => par hq hv (by simp),
    fun hv a => busInitI2C_completes hq hv⟩

/-- Settles O49: each clause says whether the scan selects an address, and which error it is if not. -/
theorem scanSelectsTheAddress : Obligations.ScanSelectsTheAddress := by
  intro s hv hq
  have fails : ∀ {i : E3Info}, (∀ b, ¬ selects s.cfg s.nextScan b) → scanError s.cfg s.nextScan = i →
      ∃ t, exec .busInitI2C s = .next t ∧ t.reply = .error (.e3 i) ∧ t.trace = s.trace ++ [.i2cScan s.nextScan] ∧
        t.i2cAddr = s.i2cAddr := by
    rintro _ hn rfl
    exact busInitI2C_fails hq hv hn
  have selected : ∀ {a : Addr7}, selects s.cfg s.nextScan a →
      ∃ t, exec .busInitI2C s = .next t ∧ t.reply = .returned .nothing ∧ t.i2cAddr = some a := by
    intro a h
    obtain ⟨t, hx, hd, -⟩ := busInitI2C_completes hq hv h
    exact ⟨t, hx, hd.reply, hd.i2cAddr⟩
  refine ⟨fun h0 => ?_, fun hc h2 => ?_, fun hc a h1 => ?_, fun n hc h0 hn => ?_, fun a hc ha => ?_⟩
  · rw [h0] at fails
    exact fails (fun _ => not_selects_nil) (scanError_noDevice _)
  · refine fails (fun b hb => ?_) (scanError_ambiguous (List.ne_nil_of_length_pos (by omega)) hc)
    rw [(selects_unconfigured hc).mp hb] at h2
    simp at h2
  · exact selected ((selects_unconfigured hc).mpr h1)
  · refine fails (fun b hb => ?_) (scanError_addressMissing h0 hc)
    obtain ⟨-, d, hd, hdn⟩ := (selects_configured hc).mp hb
    exact hn d hd hdn
  · exact selected ((selects_configured hc).mpr ⟨by simp, a, ha, rfl⟩)

/-! ### init -/

/-- `init` on I2C-Mux4 ends where its scan does, if that stops it (70_reset_and_hazards.md R192, R202). -/
theorem execInit_of_scan_error {e : Error} {u : State} (hp : s.phase ≠ .failed) (hv : s.cfg.variant = .i2cMux4)
    (h : i2cSelect (initStart s) = .error (.error e) u) :
    execInit s = .next (raiseError e { u with phase := .failed }) := by
  rw [execInit_eq hp, initBody_i2c (s := initStart s) hv, bind_error h]
  rfl

/-- Settles O48: the defaults are written, the scan selects nothing, and its E3 ends `init`. -/
theorem initScanFailure : Obligations.InitScanFailure := by
  intro s hp hq hv hn
  obtain ⟨env, hx⟩ := i2cSelect_fails (s := initStart s) hq hn
  exact ⟨_, scanError s.cfg s.nextScan, execInit_of_scan_error hp hv hx, rfl, rfl,
    trace_append (evs := [.i2cScan s.nextScan]) rfl, rfl, rfl, rfl, rfl, rfl,
    fun h0 => by rw [h0, scanError_noDevice], scanError_ambiguous, fun n => scanError_addressMissing⟩

end Sys2Proof.Machine
end

section
/-! PROOFS. What `bus.init` leaves alone, whether it completes or not (41_transport.md R123). -/

namespace Sys2Proof.Machine

open Sys2Proof

variable {α β : Type}

/-! ### Parts that leave the flags, the map and the backlight alone -/

/-- What R123 says `bus.init` does not touch: EM, DC, FS, the map, the backlight flag and the backlight line. -/
def State.flagsMapLight (s : State) : Cmd × Cmd × Cmd × CharMap × Bool × Latch Bool :=
  (s.em, s.dc, s.fs, s.cmap, s.bl, s.lvl.bl)

/-- However `m` ends, it has left them alone. -/
def KeepsFlags (m : Drv α) : Prop := ∀ s, (endState (m s)).flagsMapLight = s.flagsMapLight

theorem KeepsFlags.pure (a : α) : KeepsFlags (pure a : Drv α) := fun _ => rfl

theorem KeepsFlags.bind {m : Drv α} {f : α → Drv β} (hm : KeepsFlags m) (hf : ∀ a, KeepsFlags (f a)) :
    KeepsFlags (m >>= f) := by
  intro s
  have h := hm s
  rw [bind_run]
  cases k : m s with
  | ok a t =>
    rw [k] at h
    exact (hf a t).trans h
  | error e t =>
    rw [k] at h
    exact h

theorem KeepsFlags.bindCfg {f : Config → Drv β} (h : ∀ cfg, KeepsFlags (f cfg)) : KeepsFlags (getCfg >>= f) :=
  fun s => h s.cfg s

theorem KeepsFlags.bindBl {f : Bool → Drv β} (h : ∀ bl, KeepsFlags (f bl)) : KeepsFlags (getBl >>= f) :=
  fun s => h s.bl s

theorem KeepsFlags.update {f : State → State} (h : ∀ s, (f s).flagsMapLight = s.flagsMapLight) :
    KeepsFlags (update f) := h

theorem KeepsFlags.emit (e : Event) : KeepsFlags (emit e) := fun _ => rfl

theorem KeepsFlags.onlyIf {b : Bool} {m : Drv Unit} (h : KeepsFlags m) : KeepsFlags (onlyIf b m) := by
  cases b with
  | true => exact h
  | false => exact KeepsFlags.pure ()

theorem KeepsFlags.require (c : Bool) (e : Stop) : KeepsFlags (require c e) := by
  intro s
  cases c <;> rfl

theorem KeepsFlags.ofCheck {m : Drv α} (h : Check m) : KeepsFlags m := by
  intro s
  obtain ⟨a, k⟩ | ⟨e, k, -⟩ := h s <;> rw [k] <;> rfl

theorem platform_keepsFlags (p : Primitive) : KeepsFlags (platform p) := by
  intro s
  obtain ⟨fs, -, k⟩ | ⟨fs, -, -, k⟩ := platform_cases p s <;> rw [k] <;> rfl

theorem drive_keepsFlags {l : Line} (hl : l ≠ .bl) (b : Bool) : KeepsFlags (drive l b) :=
  (platform_keepsFlags _).bind fun _ =>
    (KeepsFlags.update fun s => by simp only [State.flagsMapLight, drive_bl hl]).bind fun _ => KeepsFlags.emit _

theorem driveData_keepsFlags (val : Byte) (low : Nat) (ls : List (Fin 8)) : KeepsFlags (driveData val low ls) := by
  induction ls with
  | nil => exact KeepsFlags.pure ()
  | cons i is ih => exact (drive_keepsFlags (by simp) _).bind fun _ => ih

theorem pulse_keepsFlags : KeepsFlags pulse :=
  KeepsFlags.bindCfg fun _ => (drive_keepsFlags (by simp) _).bind fun _ => (KeepsFlags.emit _).bind fun _ =>
    (drive_keepsFlags (by simp) _).bind fun _ => KeepsFlags.emit _

theorem parWriteCycle_keepsFlags (rs : Bool) (val : Byte) : KeepsFlags (parWriteCycle rs val) :=
  KeepsFlags.bindCfg fun _ => (drive_keepsFlags (by simp) _).bind fun _ =>
    (KeepsFlags.onlyIf (drive_keepsFlags (by simp) _)).bind fun _ => (driveData_keepsFlags _ _ _).bind fun _ =>
    (KeepsFlags.emit _).bind fun _ => pulse_keepsFlags

theorem i2cTarget_keepsFlags : KeepsFlags i2cTarget := by
  intro s
  unfold i2cTarget
  split <;> rfl

theorem i2cPut_keepsFlags (b : Byte) (n : Nat) : KeepsFlags (i2cPut b n) :=
  KeepsFlags.bind (i2cTarget_keepsFlags.bind fun _ => (platform_keepsFlags _).bind fun _ =>
    KeepsFlags.bind (KeepsFlags.update fun _ => rfl) fun _ => KeepsFlags.emit _) fun _ => KeepsFlags.emit _

theorem i2cWriteCycle_keepsFlags (rs : Bool) (nib : Nibble) : KeepsFlags (i2cWriteCycle rs nib) :=
  KeepsFlags.bindCfg fun _ => KeepsFlags.bindBl fun _ => (i2cPut_keepsFlags _ _).bind fun _ =>
    (i2cPut_keepsFlags _ _).bind fun _ => i2cPut_keepsFlags _ _

/-! ### bus.init as such a part -/

theorem initPulse_keepsFlags (nib : Nibble) : KeepsFlags (initPulse nib) :=
  KeepsFlags.bindCfg fun cfg => by
    cases cfg.variant with
    | parallel8 | parallel4 => exact parWriteCycle_keepsFlags _ _
    | i2cMux4 => exact i2cWriteCycle_keepsFlags _ _

theorem powerOn_keepsFlags : KeepsFlags powerOn :=
  KeepsFlags.bindCfg fun _ => (KeepsFlags.emit _).bind fun _ => (initPulse_keepsFlags _).bind fun _ =>
    (KeepsFlags.emit _).bind fun _ => (initPulse_keepsFlags _).bind fun _ => (KeepsFlags.emit _).bind fun _ =>
    (initPulse_keepsFlags _).bind fun _ => KeepsFlags.emit _

theorem parInit_keepsFlags : KeepsFlags parInit :=
  powerOn_keepsFlags.bind fun _ => KeepsFlags.bindCfg fun _ => KeepsFlags.onlyIf (initPulse_keepsFlags _)

theorem i2cScan_keepsFlags : KeepsFlags i2cScan :=
  (platform_keepsFlags _).bind fun _ => KeepsFlags.bind (fun s => by unfold drawFrom; split <;> rfl) fun _ =>
    (KeepsFlags.emit _).bind fun _ => KeepsFlags.pure _

theorem i2cSelect_keepsFlags : KeepsFlags i2cSelect :=
  i2cScan_keepsFlags.bind fun _ => (KeepsFlags.require _ _).bind fun _ => KeepsFlags.bindCfg fun cfg => by
    cases cfg.i2cAddrCfg with
    | none | some n => exact (KeepsFlags.require _ _).bind fun _ => KeepsFlags.update fun _ => rfl

theorem i2cInit_keepsFlags : KeepsFlags i2cInit :=
  i2cSelect_keepsFlags.bind fun _ => powerOn_keepsFlags.bind fun _ => initPulse_keepsFlags _

/-- The end of a transport function's call writes only the reply and the phase. -/
theorem runBus_keepsFlags {v : Variant} {m : Drv Unit} {s t : State} (hm : KeepsFlags m) (h : runBus v m s = .next t) :
    t.flagsMapLight = s.flagsMapLight := by
  have k : KeepsFlags (requireVariant v >>= fun _ => m >>= fun _ => (pure Value.nothing : Drv Value)) :=
    (KeepsFlags.ofCheck (requireVariant_check v)).bind fun _ => hm.bind fun _ => KeepsFlags.pure _
  have hs := k s
  obtain ⟨w, u, hu, rfl⟩ | ⟨e, u, hu, rfl⟩ := finish_next h <;> rw [hu] at hs <;> exact hs

/-! ### The events and the reply -/

/-- The events of writes are no reads, no polls and no warnings. -/
theorem writeEvents_noReadNoWarn (cfg : Config) (ad : Option Addr7) (bl : Bool) :
    WriteEventsOk (fun e => e.isRead = false ∧ e.isWarn = false) cfg ad bl where
  fail _ := ⟨rfl, rfl⟩
  drive _ _ _ := ⟨rfl, rfl⟩
  sleepUs _ := ⟨rfl, rfl⟩
  sleepMs _ := ⟨rfl, rfl⟩
  byte _ _ _ _ _ _ := ⟨rfl, rfl⟩

/-- A transport function whose body is a run replies with a return of nothing or a platform error. -/
theorem runBus_reply {v : Variant} {m : Drv Unit} {s t : State} (hm : Ran s (m s)) (h : runBus v m s = .next t) :
    t.reply = .returned .nothing ∨ ∃ p, t.reply = .error (.e3 (.platformError p)) := by
  by_cases hv : s.cfg.variant = v
  · obtain ⟨w, u, hu, rfl⟩ | ⟨e, u, hu, rfl⟩ := finish_next h <;> rw [bind_ok (requireVariant_eq hv)] at hu
    · obtain ⟨_, _, -, hw⟩ := bind_eq_ok.mp hu
      obtain ⟨rfl, -⟩ : Value.nothing = w ∧ _ := by simpa using hw
      exact .inl rfl
    · have hr : Ran s ((m >>= fun _ => (pure .nothing : Drv Value)) s) := Ran.bind hm fun _ u _ _ => Ran.pure _ u
      obtain ⟨p, rfl⟩ := hr.stops e u hu
      exact .inr ⟨p, rfl⟩
  · rw [runBus_variantMismatch hv] at h
    simp at h

/-- Settles O51: every part of `bus.init` keeps what R123 names, and appends events of writes only. -/
theorem busInitReadsNothing : Obligations.BusInitReadsNothing := by
  intro i s t hi h
  have hkeep : t.flagsMapLight = s.flagsMapLight := by
    rcases hi with rfl | rfl | rfl
    · exact runBus_keepsFlags parInit_keepsFlags h
    · exact runBus_keepsFlags parInit_keepsFlags h
    · exact runBus_keepsFlags i2cInit_keepsFlags h
  have happ : Appended (fun e => e.isRead = false ∧ e.isWarn = false) s t := by
    rcases hi with rfl | rfl | rfl
    · exact runBus_appended (fun _ => (parInit_logs (writeEvents_noReadNoWarn _ _ _)).logged) h
    · exact runBus_appended (fun _ => (parInit_logs (writeEvents_noReadNoWarn _ _ _)).logged) h
    · exact busInitI2C_appended h ⟨rfl, rfl⟩ (writeEvents_noReadNoWarn _ _ _)
  simp only [State.flagsMapLight, Prod.mk.injEq] at hkeep
  obtain ⟨hem, hdc, hfs, hcmap, hbl, hline⟩ := hkeep
  refine ⟨hem, hdc, hfs, hcmap, hbl, hline, happ.trace, fun hne => ?_⟩
  rcases hi with rfl | rfl | rfl
  · exact runBus_reply (parInit_ran s) h
  · exact runBus_reply (parInit_ran s) h
  · exact absurd rfl hne

end Sys2Proof.Machine
end

section
/-! PROOFS. The completion of a command word (42_execute.md R134 to R136, R138): the limit by the word's class, the fixed delay
of a write-only bus, and the end of the busy poll. -/

namespace Sys2Proof.Machine

open Sys2Proof

variable {c : Cmd} {s t u : State}

/-! ### The limit -/

/-- The long class is three words: CLEAR and the two forms of HOME (30_encoding.md R70, decision D9). -/
theorem limitUs_eq (cfg : Config) (c : Cmd) :
    limitUs cfg c = if c = 0x001 ∨ c = 0x002 ∨ c = 0x003 then cfg.tLongUs else cfg.tShortUs := by
  simp [limitUs, isLong, or_assoc]

/-! ### The fixed delay -/

/-- Settles O22: a write-only bus completes by its one delay, which is all it adds to the log. -/
theorem fixedDelayCompletion : Obligations.FixedDelayCompletion :=
  fun c _ h => ⟨_, complete_writeOnly h c, trace_append rfl, rfl⟩

/-- Settles O20: the step ends with a return of nothing, and its log is that of the internal `exec` on a write-only bus. -/
theorem writeOnlyWordTrace : Obligations.WriteOnlyWordTrace := by
  intro i c s he hw hb hc
  obtain ⟨v, u, hx, -, hret, -⟩ := runWord_completes (.inl hw) hb
  obtain ⟨rfl, -⟩ := execCmd_write hw hx
  obtain ⟨fs, -, rfl⟩ := execCmd_writeOnly hw hc hx
  refine ⟨_, (exec_of_encode he s).trans hret, rfl, ?_⟩
  rw [← limitUs_eq, List.append_assoc]
  exact trace_append rfl

/-! ### One iteration of the busy poll -/

section Iteration

variable {limit start fuel now : Nat} {v : Byte}

theorem pollLoop_clear (hr : busRead 0x100 s = .ok v t) (hv : busyFlag v = false) :
    pollLoop c limit start (fuel + 1) s = .ok () t := by
  simp [pollLoop, bind_ok hr, hv]

theorem pollLoop_timeout (hr : busRead 0x100 s = .ok v t) (hv : busyFlag v = true) (hk : ticks t = .ok now u)
    (hlim : limit < (now - start) * 1000) :
    pollLoop c limit start (fuel + 1) s = .ok () { u with log := .warn c :: u.log } := by
  simp [pollLoop, bind_ok hr, hv, bind_ok hk, hlim]

theorem pollLoop_again (hr : busRead 0x100 s = .ok v t) (hv : busyFlag v = true) (hk : ticks t = .ok now u)
    (hlim : (now - start) * 1000 ≤ limit) :
    pollLoop c limit start (fuel + 1) s = pollLoop c limit start fuel u := by
  simp [pollLoop, bind_ok hr, hv, bind_ok hk, Nat.not_lt.mpr hlim]

/-- The fuel is enough for the supplied increments that are left and for the milliseconds left of the limit, of which each
unsupplied tick takes at least one (10_state.md R32, log 8). -/
structure FuelEnough (limit start fuel : Nat) (s : State) : Prop where
  started : start ≤ s.env.now
  within : s.env.now - start ≤ limit / 1000
  covered : s.env.ticks.length + (limit / 1000 + 1 - (s.env.now - start)) ≤ fuel

/-- From the start tick on, the poll's own fuel is enough. -/
theorem FuelEnough.ofPollFuel (limit : Nat) (s : State) : FuelEnough limit s.env.now (pollFuel limit s) s where
  started := le_rfl
  within := by simp
  covered := by simp only [pollFuel]; omega

theorem FuelEnough.ne_zero (h : FuelEnough limit start fuel s) : fuel ≠ 0 := by
  obtain ⟨-, hw, hf⟩ := h
  omega

/-- A read and a tick within the limit take one off the fuel that is needed. -/
theorem FuelEnough.again (h : FuelEnough limit start (fuel + 1) s) (hf : OnlyBus s t) (hk : ticks t = .ok now u)
    (hlim : (now - start) * 1000 ≤ limit) : FuelEnough limit start fuel u := by
  obtain ⟨hs, hw, hfuel⟩ := h
  obtain ⟨env, hk', hnow, -, -, -, -, -, htick⟩ := ticks_cases t
  obtain ⟨rfl, rfl⟩ : env.now = now ∧ _ = u := by simpa [hk'] using hk
  have hlen : t.env.ticks.length ≤ s.env.ticks.length := hf.ticks.length_le
  have hs' := hf.now
  refine ⟨by dsimp only; omega, by dsimp only; omega, ?_⟩
  dsimp only
  obtain ⟨d, hd, -⟩ | ⟨-, hnil, hlt⟩ := htick
  · rw [hd, List.length_cons] at hlen
    omega
  · rw [hnil, List.length_nil]
    omega

/-! ### The poll ends, in one state -/

/-- With enough fuel the loop ends in a state the poll of R135 reaches: the fuel is never what ends it. -/
theorem pollLoop_polled (hc : s.cfg.canRead = true) (hb : s.busOk = true) (h : FuelEnough limit start fuel s) :
    ∃ t, pollLoop c limit start fuel s = .ok () t ∧ Polled c limit start s t := by
  induction fuel generalizing s with
  | zero => exact absurd rfl h.ne_zero
  | succ n ih =>
    obtain ⟨v, t, hr, hf, hbt⟩ := (pollRead_busOp hc).completes rfl hb
    cases hv : busyFlag v with
    | false => exact ⟨t, pollLoop_clear hr hv, .clear hr hv⟩
    | true =>
      obtain ⟨now, u, hk, hfu, hbu⟩ := (ticks_busOp (cfg := t.cfg)).completes rfl hbt
      by_cases hlim : limit < (now - start) * 1000
      · exact ⟨_, pollLoop_timeout hr hv hk hlim, .timeout hr hv hk hlim⟩
      · have hle := Nat.not_lt.mp hlim
        have hcu : u.cfg.canRead = true := by rw [hfu.cfg, hf.cfg, hc]
        obtain ⟨w, hw, hp⟩ := ih hcu hbu (h.again hf hk hle)
        exact ⟨w, (pollLoop_again hr hv hk hle).trans hw, .again hr hv hk hle hp⟩

/-- A state the poll reaches is where the loop ends with any fuel above the number of its iterations. -/
theorem Polled.pollLoop_eq (h : Polled c limit start s t) :
    ∃ n, ∀ fuel, n < fuel → pollLoop c limit start fuel s = .ok () t := by
  induction h with
  | clear hr hv =>
    refine ⟨0, fun fuel hlt => ?_⟩
    obtain ⟨m, rfl⟩ := Nat.exists_eq_add_one.mpr hlt
    exact pollLoop_clear hr hv
  | timeout hr hv hk hlim =>
    refine ⟨0, fun fuel hlt => ?_⟩
    obtain ⟨m, rfl⟩ := Nat.exists_eq_add_one.mpr hlt
    exact pollLoop_timeout hr hv hk hlim
  | again hr hv hk hlim _ ih =>
    obtain ⟨n, hn⟩ := ih
    refine ⟨n + 1, fun fuel hlt => ?_⟩
    obtain ⟨m, rfl⟩ := Nat.exists_eq_add_one.mpr (Nat.zero_lt_of_lt hlt)
    exact (pollLoop_again hr hv hk hlim).trans (hn m (Nat.lt_of_succ_lt_succ hlt))

/-- The poll reaches one state only. -/
theorem Polled.unique (ht : Polled c limit start s t) (hu : Polled c limit start s u) : t = u := by
  obtain ⟨n, hn⟩ := ht.pollLoop_eq
  obtain ⟨m, hm⟩ := hu.pollLoop_eq
  have hsame := (hn (max n m + 1) (by omega)).symm.trans (hm (max n m + 1) (by omega))
  exact (EStateM.Result.ok.inj hsame).2

end Iteration

/-- The tick read is the counter's new value (10_state.md R32). -/
theorem ticks_now {now : Nat} (hk : ticks s = .ok now u) : u.env.now = now := by
  obtain ⟨env, hk', -⟩ := ticks_cases s
  obtain ⟨rfl, rfl⟩ : env.now = now ∧ _ = u := by simpa [hk'] using hk
  rfl

/-- On a readable bus completion is the start tick and then the loop with the fuel of that moment (R135). -/
theorem complete_readable {start : Nat} (hc : s.cfg.canRead = true) (hk : ticks s = .ok start u) :
    complete c s = pollLoop c (limitUs s.cfg c) start (pollFuel (limitUs s.cfg c) u) u := by
  rw [complete, bind_getCfg, if_pos hc, busyPoll, bind_ok hk, bind_get]

/-- Settles O23: from the start tick on the loop has enough fuel to end as the poll does, and the poll's end is unique. -/
theorem busyPollEnds : Obligations.BusyPollEnds := by
  intro c s hc hb
  obtain ⟨start, u, hk, hf, hbu⟩ := (ticks_busOp (cfg := s.cfg)).completes rfl hb
  obtain rfl := ticks_now hk
  have hcu : u.cfg.canRead = true := by rw [hf.cfg, hc]
  obtain ⟨t, ht, hp⟩ := pollLoop_polled hcu hbu (.ofPollFuel (limitUs s.cfg c) u)
  rw [← limitUs_eq]
  exact ⟨u.env.now, u, t, hk, (complete_readable hc hk).trans ht, hp, fun _ hp' => hp'.unique hp⟩

end Sys2Proof.Machine
end

section
/-! PROOFS. `execute_command` and `is_command_supported` (42_execute.md R130, R131, R137). -/

namespace Sys2Proof.Machine

open Sys2Proof

variable {c : Nat} {s : State}

/-- The capability test as a proposition (R130). -/
theorem commandSupported_eq (cfg : Config) (c : Nat) :
    commandSupported cfg c = decide (c < 1024 ∧ (c.testBit 8 = false ∨ cfg.canRead = true)) := by
  simp [commandSupported]

/-- Settles O25: the answer is the capability test, which reads the configuration alone. -/
theorem commandSupportAnswer : Obligations.CommandSupportAnswer := by
  intro c s
  rw [← commandSupported_eq]
  exact finish_ok rfl

/-! ### The checks of execute_command, in their order -/

theorem executeCommandOp_outOfRange (hp : s.phase = .ready) (hc : 1024 ≤ c) :
    executeCommandOp c s = .error (.error (.e2 (.outOfRange c))) s := by
  rw [executeCommandOp, bind_ok (phaseCheckReady_ready hp)]
  exact bind_error (require_false (decide_eq_false (Nat.not_lt.mpr hc)) _ s)

theorem executeCommandOp_unsupported (hp : s.phase = .ready) (hc : c < 1024) (hr : c.testBit 8 = true)
    (hn : s.cfg.canRead = false) :
    executeCommandOp c s = .error (.error (.e2 .readUnsupported)) s := by
  rw [executeCommandOp, bind_ok (phaseCheckReady_ready hp), bind_ok (require_true (decide_eq_true hc) _ s), bind_getCfg]
  exact bind_error (require_false (by simp [hr, hn]) _ s)

/-- Past its checks `execute_command` is the step of the word itself. -/
theorem execExecuteCommand_eq_runWord (hp : s.phase = .ready) (hc : c < 1024)
    (h : c.testBit 8 = false ∨ s.cfg.canRead = true) :
    execExecuteCommand c s = runWord (BitVec.ofNat 10 c) s := by
  unfold execExecuteCommand runWord finish
  rw [executeCommandOp, bind_ok (phaseCheckReady_ready hp), bind_ok (require_true (decide_eq_true hc) _ s), bind_getCfg,
    bind_ok (require_true (by simpa using h) _ s)]

/-! ### The word that runs -/

/-- The RW bit of a number's word is bit 8 of the number (30_encoding.md R60). -/
theorem rw_ofNat_eq_testBit (c : Nat) : Cmd.rw (BitVec.ofNat 10 c) = c.testBit 8 := by
  rw [Cmd.rw, BitVec.getLsbD_ofNat, decide_eq_true (by decide), Bool.true_and]

/-- What a completed word returns: a read the 8 bits of its own transfer, a write nothing (R137). -/
theorem execValue_of_execCmd {w : Cmd} {u : State} {v : Option Byte} (h : w.rw = false ∨ s.cfg.canRead = true)
    (k : execCmd w s = .ok v u) : execValue v = if w.rw then .byte s.nextRead else .nothing := by
  cases hr : w.rw with
  | false => obtain ⟨rfl, -⟩ := execCmd_write hr k; rfl
  | true => obtain ⟨rfl, -⟩ := execCmd_read hr (h.resolve_left (by simp [hr])) k; rfl

/-- Settles O24: the two checks stop it with E2, and past them it is the step of the word, as the decoded word is. -/
theorem executeCommandRunsTheWord : Obligations.ExecuteCommandRunsTheWord := by
  refine fun c s hp => ⟨fun hc => finish_error (executeCommandOp_outOfRange hp hc),
    fun hc hr hn => finish_error (executeCommandOp_unsupported hp hc hr hn), fun hc h hb => ?_⟩
  have hw : Cmd.rw (BitVec.ofNat 10 c) = false ∨ s.cfg.canRead = true := by rwa [rw_ofNat_eq_testBit]
  obtain ⟨v, u, hx, hrun, hret, hd⟩ := runWord_completes hw hb
  rw [execValue_of_execCmd hw hx, rw_ofNat_eq_testBit] at hret hd
  rw [acSpaceAfter_decodeCmd] at hd
  exact ⟨u, _, hrun, rfl, (execExecuteCommand_eq_runWord hp hc h).trans hret,
    (exec_of_encode (encode_decodeCmd _) s).trans hret, hd⟩

end Sys2Proof.Machine
end

section
/-! PROOFS. The cursor and display-shift operations (43_cursor.md R140 to R145): past its checks each is one word. -/

namespace Sys2Proof.Machine

open Sys2Proof

variable {s : State} {col line : Nat}

/-- Where no primitive fails, a write word is issued, and `ac_space` follows it (42_execute.md R133). -/
theorem issue_completes {c : Cmd} (hw : c.rw = false) (hb : s.busOk = true) :
    ∃ u, Issued [c] s u ∧ issue c s = .ok () u ∧ u.acSpace = spaceAfter (decodeCmd c) s.acSpace := by
  obtain ⟨u, hu, -⟩ := issueAll_completes (ws := [c]) (List.forall_mem_singleton.mpr hw) hb
  exact ⟨u, hu, (issueAll_one c s).symm.trans hu.run, hu.frame.acSpace.trans (acSpaceAfter_decodeCmd c _)⟩

/-! ### The checks of a position, in their order (R140) -/

theorem require_column (hcol : col ≤ 39) (e : Stop) : require (col < colCount) e s = .ok () s :=
  require_true (decide_eq_true (Nat.lt_succ_of_le hcol)) e s

theorem positionChecks_inside (hcol : col ≤ 39) (hline : line ≤ 1) : positionChecks col line s = .ok () s :=
  (bind_ok (require_column hcol _)).trans (require_true (decide_eq_true (Nat.lt_succ_of_le hline)) _ s)

theorem positionChecks_column (hcol : 39 < col) :
    positionChecks col line s = .error (.error (.e1 (.columnOutOfRange col))) s :=
  bind_error (require_false (decide_eq_false (Nat.not_lt.mpr hcol)) _ s)

theorem positionChecks_line (hcol : col ≤ 39) (hline : 1 < line) :
    positionChecks col line s = .error (.error (.e1 (.lineOutOfRange line))) s :=
  (bind_ok (require_column hcol _)).trans (require_false (decide_eq_false (Nat.not_lt.mpr hline)) _ s)

/-- In the display's range, `position` issues the address word and leaves the chip's counter in DDRAM (R140). -/
theorem position_completes (hcol : col ≤ 39) (hline : line ≤ 1) (hb : s.busOk = true) :
    ∃ u, Issued [setddWord col line] s u ∧ position col line s = .ok () u ∧ u.acSpace = .ddram := by
  obtain ⟨hw, hd⟩ := setddWord_facts (Nat.lt_succ_of_le hcol) (Nat.lt_succ_of_le hline)
  obtain ⟨u, hi, hx, ha⟩ := issue_completes hw hb
  rw [hd] at ha
  exact ⟨u, hi, (bind_ok (positionChecks_inside hcol hline)).trans hx, ha⟩

theorem execSetCursorPosition_error {e : Error} (hp : s.phase = .ready)
    (h : positionChecks col line s = .error (.error e) s) : execSetCursorPosition col line s = .next (raiseError e s) :=
  finish_error ((bind_ok (phaseCheckReady_ready hp)).trans (bind_error (bind_error h)))

/-- Settles O26: the two checks stop it with E1, and past them it is the address word. -/
theorem setCursorPosition : Obligations.SetCursorPosition := by
  refine fun col line s hp => ⟨fun hcol hline hb => ?_,
    fun hcol => execSetCursorPosition_error hp (positionChecks_column hcol),
    fun hcol hline => execSetCursorPosition_error hp (positionChecks_line hcol hline)⟩
  obtain ⟨u, hi, hx, ha⟩ := position_completes hcol hline hb
  exact ⟨u, hi, ha, finish_ok ((bind_ok (phaseCheckReady_ready hp)).trans (bind_ok hx))⟩

/-! ### The cursor moves and the scrolls (R142 to R145) -/

theorem cgramCheck_cgram (h : s.acSpace = .cgram) : cgramCheck s = .error (.fault .cgramPointerHazard) s := by
  simp [cgramCheck, h]

theorem cgramCheck_pass (h : s.acSpace ≠ .cgram) : cgramCheck s = .ok () s := by
  unfold cgramCheck
  split
  · exact absurd ‹_› h
  · rfl
  · rfl

theorem moveCursor_cgram (right : Bool) (hp : s.phase = .ready) (h : s.acSpace = .cgram) :
    finish (moveCursor right) s = .fault .cgramPointerHazard :=
  finish_fault ((bind_ok (phaseCheckReady_ready hp)).trans (bind_error (cgramCheck_cgram h)))

/-- No shift word names an address space (42_execute.md R133). -/
theorem issue_shift_completes (sc rl : Bool) (hb : s.busOk = true) :
    ∃ u, Issued [shiftWord sc rl] s u ∧ issue (shiftWord sc rl) s = .ok () u ∧ u.acSpace = s.acSpace := by
  obtain ⟨hw, hd⟩ := shiftWord_facts sc rl
  obtain ⟨u, hi, hx, ha⟩ := issue_completes hw hb
  rw [hd] at ha
  exact ⟨u, hi, hx, ha⟩

theorem moveCursor_completes (right : Bool) (hp : s.phase = .ready) (h : s.acSpace ≠ .cgram) (hb : s.busOk = true) :
    ∃ u, Issued [shiftWord false right] s u ∧ u.acSpace = s.acSpace ∧
      finish (moveCursor right) s = .next (returnValue .nothing u) := by
  obtain ⟨u, hi, hx, ha⟩ := issue_shift_completes false right hb
  refine ⟨u, hi, ha, finish_ok ?_⟩
  rw [moveCursor, bind_ok (phaseCheckReady_ready hp), bind_ok (cgramCheck_pass h), bind_ok hx, pure_run]

/-- Settles O29: both directions are one move, stopped in CGRAM and otherwise one shift word. -/
theorem moveCursor_issues_or_faults : Obligations.MoveCursor :=
  fun _ hp => ⟨fun h => ⟨moveCursor_cgram false hp h, moveCursor_cgram true hp h⟩,
    fun h hb => ⟨moveCursor_completes false hp h hb, moveCursor_completes true hp h hb⟩⟩

theorem scrollDisplay_completes (left : Bool) (hp : s.phase = .ready) (hb : s.busOk = true) :
    ∃ u, Issued [shiftWord true (left == s.cfg.scrollRlInverted)] s u ∧ u.acSpace = s.acSpace ∧
      finish (scrollDisplay left) s = .next (returnValue .nothing u) := by
  obtain ⟨u, hi, hx, ha⟩ := issue_shift_completes true (left == s.cfg.scrollRlInverted) hb
  refine ⟨u, hi, ha, finish_ok ?_⟩
  rw [scrollDisplay, bind_ok (phaseCheckReady_ready hp), bind_getCfg, bind_ok hx, pure_run]

theorem shiftWord_scrollLeft (inverted : Bool) :
    shiftWord true (true == inverted) = if inverted then 0x01C else 0x018 := by decide +revert

theorem shiftWord_scrollRight (inverted : Bool) :
    shiftWord true (false == inverted) = if inverted then 0x018 else 0x01C := by decide +revert

/-- Settles O30: both directions are one scroll, whose word the parameter chooses. -/
theorem scrollDisplay_issues : Obligations.ScrollDisplay := by
  intro s hp hb
  rw [← shiftWord_scrollLeft, ← shiftWord_scrollRight]
  exact ⟨scrollDisplay_completes true hp hb, scrollDisplay_completes false hp hb⟩

/-! ### get_cursor_position (R141) -/

/-- The address counter is the low 7 bits read (40_commands.md R88). -/
theorem addressCounter_toNat (v : Byte) : (addressCounter v).toNat = v.toNat % 128 := by
  simp [addressCounter]

theorem positionOf_inside {v : Byte} (hcol : col ≤ 39) (hline : line ≤ 1) (h : v.toNat % 128 = ddramAddr col line) :
    positionOf (some v) s = .ok (.position col line) s := by
  simp [positionOf, inverse, addressCounter_toNat, h, ddramInverse_ddramAddr hcol hline]

theorem positionOf_outside {v : Byte} (h : ∀ col line, col ≤ 39 → line ≤ 1 → v.toNat % 128 ≠ ddramAddr col line) :
    positionOf (some v) s = .error (.fault (.internalInvariant (addressCounter v))) s := by
  have hnone : ddramInverse (v.toNat % 128) = none := by
    refine Option.eq_none_iff_forall_ne_some.mpr fun ⟨col, line⟩ hsome => ?_
    obtain ⟨hcol, hline, ha⟩ := ddramAddr_of_ddramInverse hsome
    exact h col line hcol hline ha.symm
  simp [positionOf, inverse, addressCounter_toNat, hnone]

theorem execGetCursorPosition_unsupported (hp : s.phase = .ready) (hc : s.cfg.canRead = false) :
    execGetCursorPosition s = .next (raiseError (.e2 .readUnsupported) s) := by
  refine finish_error ?_
  rw [bind_ok (phaseCheckReady_ready hp), bind_getCfg]
  exact bind_error (require_false hc _ s)

theorem execGetCursorPosition_cgram (hp : s.phase = .ready) (hc : s.cfg.canRead = true) (ha : s.acSpace = .cgram) :
    execGetCursorPosition s = .fault .cgramPointerHazard := by
  refine finish_fault (t := s) ?_
  rw [bind_ok (phaseCheckReady_ready hp), bind_getCfg, bind_ok (require_true hc _ s)]
  exact bind_error (cgramCheck_cgram ha)

/-- Past its checks `get_cursor_position` is the busy-flag/address read and the translation of what it answers. -/
theorem execGetCursorPosition_eq_read (hp : s.phase = .ready) (hc : s.cfg.canRead = true) (ha : s.acSpace ≠ .cgram) :
    execGetCursorPosition s = finish (execCmd baseRdbf >>= positionOf) s := by
  unfold execGetCursorPosition finish
  rw [bind_ok (phaseCheckReady_ready hp), bind_getCfg, bind_ok (require_true hc _ s), bind_ok (cgramCheck_pass ha)]

/-- Settles O27: the read answers the next 8 bits, and their address decides between the position and F3. -/
theorem getCursorPosition : Obligations.GetCursorPosition := by
  refine fun s hp => ⟨execGetCursorPosition_unsupported hp, execGetCursorPosition_cgram hp, fun hc ha hb => ?_⟩
  obtain ⟨v, u, hx, -, hd⟩ := execCmd_completes (c := baseRdbf) (.inr hc) hb
  obtain ⟨rfl, -⟩ := execCmd_read rfl hc hx
  have hread : exec .getCursorPosition s = finish (execCmd baseRdbf >>= positionOf) s :=
    execGetCursorPosition_eq_read hp hc ha
  rw [hread]
  refine ⟨u, hx, execCmd_wordRun (.inr hc) hx, hd, fun col line hcol hline h => ?_, fun h => ?_⟩
  · exact finish_ok ((bind_ok hx).trans (positionOf_inside hcol hline h))
  · exact finish_fault ((bind_ok hx).trans (positionOf_outside h))

end Sys2Proof.Machine
end

section
/-! PROOFS. The character map's operations and character resolution (44_text.md R151 to R153). -/

namespace Sys2Proof.Machine

open Sys2Proof

variable {s : State} {ch : Nat} {code : Int}

theorem codeInRange_iff {k : Int} : codeInRange k = true ↔ 0 ≤ k ∧ k ≤ 255 := by simp [codeInRange]

theorem codeInRange_eq_false {k : Int} (h : k < 0 ∨ 255 < k) : codeInRange k = false := by
  rw [← Bool.not_eq_true, codeInRange_iff]
  omega

theorem execMapCharacter_inRange (hp : s.phase ≠ .failed) (h : codeInRange code = true) :
    execMapCharacter ch code s =
      .next (returnValue .nothing { s with cmap := s.cmap.put ch (BitVec.ofNat 8 code.toNat) }) := by
  refine finish_ok ?_
  rw [bind_ok (phaseCheckLive_live hp), bind_ok (require_true h _ s), bind_update, pure_run]

theorem execMapCharacter_outOfRange (hp : s.phase ≠ .failed) (h : codeInRange code = false) :
    execMapCharacter ch code s = .next (raiseError (.e1 (.characterCodeOutOfRange code)) s) :=
  finish_error ((bind_ok (phaseCheckLive_live hp)).trans (bind_error (require_false h _ s)))

/-- Settles O34: past its check it is the map's put, whose laws say what each character then gives. -/
theorem mapCharacter : Obligations.MapCharacter := by
  refine fun ch code s hp => ⟨fun h0 h255 => ?_, fun h => execMapCharacter_outOfRange hp (codeInRange_eq_false h)⟩
  have hcode : ((BitVec.ofNat 8 code.toNat).toNat : Int) = code := by
    rw [BitVec.toNat_ofNat]
    omega
  exact ⟨_, execMapCharacter_inRange hp (codeInRange_iff.mpr ⟨h0, h255⟩), ⟨_, CharMap.get_put_self _ _ _, hcode⟩,
    fun _ hc => CharMap.get_put_other _ _ hc, fun hwf => CharMap.wf_put hwf _ _⟩

/-! ### unmap_character (R152) -/

theorem unmapKey_mapped {k : Byte} (h : s.cmap.get ch = some k) :
    unmapKey ch s = .ok () { s with cmap := s.cmap.del ch } := by
  simp [unmapKey, h]

theorem unmapKey_absent (h : s.cmap.get ch = none) (hcfg : s.cfg.unmapAbsentError = false) :
    unmapKey ch s = .ok () s := by
  simp [unmapKey, h, hcfg]

theorem unmapKey_absentError (h : s.cmap.get ch = none) (hcfg : s.cfg.unmapAbsentError = true) :
    unmapKey ch s = .error (.error (.e1 (.notMapped ch))) s := by
  simp [unmapKey, h, hcfg]

theorem execUnmapCharacter_ok {t : State} (hp : s.phase ≠ .failed) (h : unmapKey ch s = .ok () t) :
    execUnmapCharacter ch s = .next (returnValue .nothing t) :=
  finish_ok ((bind_ok (phaseCheckLive_live hp)).trans (bind_ok h))

theorem execUnmapCharacter_error {e : Error} (hp : s.phase ≠ .failed) (h : unmapKey ch s = .error (.error e) s) :
    execUnmapCharacter ch s = .next (raiseError e s) :=
  finish_error ((bind_ok (phaseCheckLive_live hp)).trans (bind_error h))

/-- Settles O35: a listed key is the map's deletion, and for an absent one the parameter decides. -/
theorem unmapCharacter : Obligations.UnmapCharacter :=
  fun ch s hp hwf =>
    ⟨fun _ h => ⟨s.cmap.del ch, execUnmapCharacter_ok hp (unmapKey_mapped h), CharMap.get_del_self hwf ch,
      fun _ hc => CharMap.get_del_other s.cmap hc, CharMap.wf_del hwf ch⟩,
    fun h hcfg => execUnmapCharacter_ok hp (unmapKey_absent h hcfg),
    fun h hcfg => execUnmapCharacter_error hp (unmapKey_absentError h hcfg)⟩

/-! ### Resolution (R153) -/

theorem resolve_mapped {m : CharMap} {k : Byte} (h : m.get ch = some k) : resolve m ch = k.toNat := by
  simp only [resolve, h]
  exact if_neg (Nat.not_lt.mpr (Nat.le_of_lt_succ k.isLt))

theorem resolve_unmapped {m : CharMap} (h : m.get ch = none) : resolve m ch = if ch > 255 then 0x20 else ch := by
  simp only [resolve, h]

/-- Settles O36: a mapped code is a byte, and an unmapped character is its own code. -/
theorem characterResolution : Obligations.CharacterResolution :=
  fun _ _ => ⟨fun _ h => resolve_mapped h, fun h hle => (resolve_unmapped h).trans (if_neg (Nat.not_lt.mpr hle)),
    fun h hlt => (resolve_unmapped h).trans (if_pos hlt)⟩

end Sys2Proof.Machine
end

section
/-! PROOFS. The operations that send data words: `create_character`, `write_text`, `write_code`, `write_codes` and
`read_code` (44_text.md R150, R154 to R157). -/

namespace Sys2Proof.Machine

open Sys2Proof

variable {s : State} {col line : Nat}

/-! ### Data words -/

/-- Words issued after other words are issued with them. -/
theorem Issued.append {ws vs : List Cmd} {t u : State} (hw : AllWrites ws) (hv : AllWrites vs) (h : Issued ws s t)
    (k : Issued vs t u) : Issued (ws ++ vs) s u :=
  issueAll_issued (List.forall_mem_append.mpr ⟨hw, hv⟩) ((issueAll_append ws vs s).trans ((bind_ok h.run).trans k.run))

section DataWords

variable {α : Type} {f : α → Nat} {xs : List α}

theorem dataWords_writes (h : ∀ x ∈ xs, f x < 256) : AllWrites (xs.map fun x => wrdataWord (f x)) :=
  List.forall_mem_map.mpr fun x hx => (wrdataWord_facts (h x hx)).1

/-- Data words leave the address-counter space alone (42_execute.md R133). -/
theorem acSpaceAfterAll_dataWords (h : ∀ x ∈ xs, f x < 256) (a : AcSpace) :
    acSpaceAfterAll (xs.map fun x => wrdataWord (f x)) a = a := by
  induction xs with
  | nil => rfl
  | cons x xs ih =>
    obtain ⟨hx, hxs⟩ := List.forall_mem_cons.mp h
    rw [List.map_cons, acSpaceAfterAll, acSpaceAfter_decodeCmd, (wrdataWord_facts hx).2]
    exact ih hxs

/-- In the display's range, `position` and then data words are issued as one sequence; the map stays as it was. -/
theorem position_dataWords_completes (hcol : col ≤ 39) (hline : line ≤ 1) (h : ∀ x ∈ xs, f x < 256)
    (hb : s.busOk = true) :
    ∃ t u, position col line s = .ok () t ∧ t.cmap = s.cmap ∧
      issueAll (xs.map fun x => wrdataWord (f x)) t = .ok () u ∧
      Issued (setddWord col line :: xs.map fun x => wrdataWord (f x)) s u ∧ u.acSpace = .ddram := by
  obtain ⟨t, ht, hpos, ha⟩ := position_completes hcol hline hb
  obtain ⟨u, hu, -⟩ := issueAll_completes (dataWords_writes h) (ht.frame.busOk hb)
  have haddr : AllWrites [setddWord col line] :=
    List.forall_mem_singleton.mpr (setddWord_facts (Nat.lt_succ_of_le hcol) (Nat.lt_succ_of_le hline)).1
  exact ⟨t, u, hpos, ht.frame.cmap, hu.run, ht.append haddr (dataWords_writes h) hu,
    hu.frame.acSpace.trans ((acSpaceAfterAll_dataWords h _).trans ha)⟩

end DataWords

/-! ### create_character (R150) -/

section Glyphs

variable {code : Nat} {rows : List Nat}

/-- Rows up to 31 are passed over, and counted. -/
theorem firstBadRow_append {pre : List Nat} (h : ∀ r ∈ pre, r ≤ 31) (i : Nat) :
    firstBadRow i (pre ++ rows) = firstBadRow (i + pre.length) rows := by
  induction pre generalizing i with
  | nil => rfl
  | cons r pre ih =>
    obtain ⟨hr, hpre⟩ := List.forall_mem_cons.mp h
    rw [List.cons_append, firstBadRow, if_neg (Nat.not_lt.mpr hr), ih hpre, List.length_cons, Nat.add_right_comm,
      Nat.add_assoc]

theorem firstBadRow_eq_none (h : ∀ r ∈ rows, r ≤ 31) (i : Nat) : firstBadRow i rows = none := by
  simpa [firstBadRow] using firstBadRow_append (rows := []) h i

theorem firstBadRow_eq_some {pre post : List Nat} {v : Nat} (h : ∀ r ∈ pre, r ≤ 31) (hv : 31 < v) :
    firstBadRow 0 (pre ++ v :: post) = some (pre.length, v) := by
  rw [firstBadRow_append h, Nat.zero_add, firstBadRow, if_pos hv]

theorem glyphChecks_slot (h : 7 < code) :
    glyphChecks code rows s = .error (.error (.e1 (.cgSlotOutOfRange code))) s :=
  bind_error (require_false (decide_eq_false (Nat.not_lt.mpr h)) _ s)

theorem require_slot (hc : code ≤ 7) (e : Stop) : require (code < cgSlots) e s = .ok () s :=
  require_true (decide_eq_true (Nat.lt_succ_of_le hc)) e s

theorem require_rowCount (hl : rows.length = 8) (e : Stop) : require (rows.length == cgRows) e s = .ok () s :=
  require_true (beq_iff_eq.mpr hl) e s

theorem glyphChecks_length (hc : code ≤ 7) (h : rows.length ≠ 8) :
    glyphChecks code rows s = .error (.error (.e1 (.bitmapLength rows.length))) s := by
  rw [glyphChecks, bind_ok (require_slot hc _)]
  exact bind_error (require_false (beq_eq_false_iff_ne.mpr h) _ s)

theorem glyphChecks_badRow {i v : Nat} (hc : code ≤ 7) (hl : rows.length = 8) (h : firstBadRow 0 rows = some (i, v)) :
    glyphChecks code rows s = .error (.error (.e1 (.bitmapRowOutOfRange i v))) s := by
  rw [glyphChecks, bind_ok (require_slot hc _), bind_ok (require_rowCount hl _), h]
  exact require_false rfl _ s

theorem glyphChecks_legal (hc : code ≤ 7) (hl : rows.length = 8) (h : ∀ v ∈ rows, v ≤ 31) :
    glyphChecks code rows s = .ok () s := by
  rw [glyphChecks, bind_ok (require_slot hc _), bind_ok (require_rowCount hl _), firstBadRow_eq_none h]
  exact pure_run () s

theorem execCreateCharacter_error {e : Error} (hp : s.phase = .ready)
    (h : glyphChecks code rows s = .error (.error e) s) : execCreateCharacter code rows s = .next (raiseError e s) :=
  finish_error ((bind_ok (phaseCheckReady_ready hp)).trans (bind_error h))

/-- Settles O32: the checks stop it in their order, and the rows before the first bad one are passed over. -/
theorem createCharacterChecks : Obligations.CreateCharacterChecks := by
  refine fun code rows s hp => ⟨fun h => execCreateCharacter_error hp (glyphChecks_slot h),
    fun hc h => execCreateCharacter_error hp (glyphChecks_length hc h), fun hc hl pre v post hrows hpre hv => ?_⟩
  subst hrows
  exact execCreateCharacter_error hp (glyphChecks_badRow hc hl (firstBadRow_eq_some hpre hv))

/-- The slot's CGRAM address is 8 times the slot (20_memory.md R44). -/
theorem setcgWord_eq (code : Nat) : setcgWord code = 0x040 ||| BitVec.ofNat 10 (8 * code) := by
  rw [setcgWord, Nat.shiftLeft_eq, Nat.mul_comm]
  rfl

/-- A glyph's words leave the address counter in CGRAM (42_execute.md R133). -/
theorem acSpaceAfterAll_glyphWords (hc : code ≤ 7) (h : ∀ v ∈ rows, v ≤ 31) (a : AcSpace) :
    acSpaceAfterAll (glyphWords code rows) a = .cgram := by
  rw [glyphWords, acSpaceAfterAll, acSpaceAfter_decodeCmd, (setcgWord_facts (Nat.lt_succ_of_le hc)).2]
  exact acSpaceAfterAll_dataWords (f := fun v => v) (fun v hv => (h v hv).trans_lt (by decide)) _

/-- Settles O31: past its checks it is the glyph's words. -/
theorem createCharacterIssuesTheGlyph : Obligations.CreateCharacterIssuesTheGlyph := by
  intro code rows s hp hc hl h hb
  obtain ⟨u, hu, -⟩ := issueAll_completes (glyphWords_writes (Nat.lt_succ_of_le hc) h) hb
  refine ⟨u, setcgWord_eq code ▸ hu, hu.frame.acSpace.trans (acSpaceAfterAll_glyphWords hc h _), finish_ok ?_⟩
  rw [bind_ok (phaseCheckReady_ready hp), bind_ok (glyphChecks_legal hc hl h), bind_ok hu.run, pure_run]

end Glyphs

/-! ### write_text (R154) -/

section Text

variable {text : List Nat}

theorem execWriteText_error {e : Error} (hp : s.phase = .ready) (h : positionChecks col line s = .error (.error e) s) :
    execWriteText col line text s = .next (raiseError e s) :=
  finish_error ((bind_ok (phaseCheckReady_ready hp)).trans (bind_error (bind_error h)))

theorem bind_getMap {β : Type} (g : CharMap → Drv β) (s : State) : (getMap >>= g) s = g s.cmap s := rfl

theorem execWriteText_ok {t u : State} (hp : s.phase = .ready) (hpos : position col line s = .ok () t)
    (hx : issueAll (text.map fun ch => wrdataWord (resolve t.cmap ch)) t = .ok () u) :
    execWriteText col line text s = .next (returnValue .nothing u) := by
  refine finish_ok ?_
  rw [bind_ok (phaseCheckReady_ready hp), bind_ok hpos, bind_getMap, bind_ok hx, pure_run]

/-- Settles O37: the position's checks stop it, and past them it is the address word and the resolved characters. -/
theorem writeText : Obligations.WriteText := by
  refine fun col line text s hp => ⟨fun hcol hline hb => ?_,
    fun hcol => execWriteText_error hp (positionChecks_column hcol),
    fun hcol hline => execWriteText_error hp (positionChecks_line hcol hline)⟩
  obtain ⟨t, u, hpos, hmap, hx, hi, ha⟩ :=
    position_dataWords_completes (xs := text) hcol hline (fun ch _ => resolve_lt s.cmap ch) hb
  exact ⟨u, hi, ha, execWriteText_ok hp hpos (by rwa [hmap])⟩

end Text

/-! ### write_code and write_codes (R155, R156) -/

section Codes

variable {codes : List Int}

/-- Codes in range are passed over. -/
theorem firstBadCode_append {pre : List Int} (h : ∀ k ∈ pre, 0 ≤ k ∧ k ≤ 255) :
    firstBadCode (pre ++ codes) = firstBadCode codes := by
  induction pre with
  | nil => rfl
  | cons k pre ih =>
    obtain ⟨hk, hpre⟩ := List.forall_mem_cons.mp h
    rw [List.cons_append, firstBadCode, if_pos (codeInRange_iff.mpr hk), ih hpre]

theorem firstBadCode_eq_none (h : ∀ k ∈ codes, 0 ≤ k ∧ k ≤ 255) : firstBadCode codes = none := by
  simpa [firstBadCode] using firstBadCode_append (codes := []) h

theorem firstBadCode_eq_some {pre post : List Int} {k : Int} (h : ∀ j ∈ pre, 0 ≤ j ∧ j ≤ 255)
    (hk : k < 0 ∨ 255 < k) : firstBadCode (pre ++ k :: post) = some k := by
  rw [firstBadCode_append h, firstBadCode, if_neg (by simp [codeInRange_eq_false hk])]

theorem writeCodesOp_badPosition {e : Error} (hp : s.phase = .ready)
    (h : positionChecks col line s = .error (.error e) s) : writeCodesOp col line codes s = .error (.error e) s :=
  (bind_ok (phaseCheckReady_ready hp)).trans (bind_error h)

theorem writeCodesOp_badCode {k : Int} (hp : s.phase = .ready) (hcol : col ≤ 39) (hline : line ≤ 1)
    (h : firstBadCode codes = some k) :
    writeCodesOp col line codes s = .error (.error (.e1 (.characterCodeOutOfRange k))) s := by
  rw [writeCodesOp, bind_ok (phaseCheckReady_ready hp), bind_ok (positionChecks_inside hcol hline), h]
  exact bind_error (require_false rfl _ s)

/-- With every code in range it is the address word and then the codes, which no map resolves. -/
theorem writeCodesOp_completes (hp : s.phase = .ready) (hcol : col ≤ 39) (hline : line ≤ 1) (hb : s.busOk = true)
    (h : ∀ k ∈ codes, 0 ≤ k ∧ k ≤ 255) :
    ∃ u, Issued (setddWord col line :: codes.map fun k => wrdataWord k.toNat) s u ∧ u.acSpace = .ddram ∧
      finish (writeCodesOp col line codes) s = .next (returnValue .nothing u) := by
  obtain ⟨t, u, hpos, -, hx, hi, ha⟩ := position_dataWords_completes (xs := codes) hcol hline
    (fun k hk => codeInRange_toNat (codeInRange_iff.mpr (h k hk))) hb
  refine ⟨u, hi, ha, finish_ok ?_⟩
  rw [writeCodesOp, bind_ok (phaseCheckReady_ready hp), bind_ok (positionChecks_inside hcol hline),
    firstBadCode_eq_none h]
  dsimp only
  rw [bind_ok hpos, bind_ok hx, pure_run]

/-- Settles O38: `write_code` is `write_codes` of one code. -/
theorem writeCodes : Obligations.WriteCodes :=
  fun _ _ _ hp hcol hline hb => ⟨fun _ h => writeCodesOp_completes hp hcol hline hb h,
    fun k h0 h255 => writeCodesOp_completes (codes := [k]) hp hcol hline hb (List.forall_mem_singleton.mpr ⟨h0, h255⟩)⟩

/-- Settles O39: the position's checks stop it, then the first code that is not passed over. -/
theorem writeCodesChecks : Obligations.WriteCodesChecks := by
  refine fun col line s hp => ⟨fun hcol codes k => ?_, fun hcol hline codes k => ?_,
    fun hcol hline pre k post hpre hk => ?_⟩
  · have h := positionChecks_column (line := line) (s := s) hcol
    exact ⟨finish_error (writeCodesOp_badPosition hp h), finish_error (writeCodesOp_badPosition hp h)⟩
  · have h := positionChecks_line (s := s) hcol hline
    exact ⟨finish_error (writeCodesOp_badPosition hp h), finish_error (writeCodesOp_badPosition hp h)⟩
  · have hone : firstBadCode [k] = some k := firstBadCode_eq_some (pre := []) (by simp) hk
    exact ⟨finish_error (writeCodesOp_badCode hp hcol hline (firstBadCode_eq_some hpre hk)),
      finish_error (writeCodesOp_badCode hp hcol hline hone)⟩

end Codes

/-! ### read_code (R157) -/

theorem execReadCode_unsupported (hp : s.phase = .ready) (hc : s.cfg.canRead = false) :
    execReadCode col line s = .next (raiseError (.e2 .readUnsupported) s) := by
  refine finish_error ?_
  rw [bind_ok (phaseCheckReady_ready hp), bind_getCfg]
  exact bind_error (require_false hc _ s)

theorem execReadCode_error {e : Error} (hp : s.phase = .ready) (hc : s.cfg.canRead = true)
    (h : positionChecks col line s = .error (.error e) s) : execReadCode col line s = .next (raiseError e s) := by
  refine finish_error ?_
  rw [bind_ok (phaseCheckReady_ready hp), bind_getCfg, bind_ok (require_true hc _ s)]
  exact bind_error (bind_error h)

theorem execReadCode_ok {t u : State} {v : Option Byte} (hp : s.phase = .ready) (hc : s.cfg.canRead = true)
    (hpos : position col line s = .ok () t) (hx : execCmd baseRddata t = .ok v u) :
    execReadCode col line s = .next (returnValue (execValue v) u) := by
  refine finish_ok ?_
  rw [bind_ok (phaseCheckReady_ready hp), bind_getCfg, bind_ok (require_true hc _ s), bind_ok hpos, bind_ok hx,
    pure_run]

/-- Settles O40: past E2 and the position's E1 it is the address word and the data read, which answers its own bits. -/
theorem readCode : Obligations.ReadCode := by
  refine fun col line s hp => ⟨execReadCode_unsupported hp,
    fun hc hcol => execReadCode_error hp hc (positionChecks_column hcol),
    fun hc hcol hline => execReadCode_error hp hc (positionChecks_line hcol hline), fun hc hcol hline hb => ?_⟩
  obtain ⟨u, hi, hpos, ha⟩ := position_completes hcol hline hb
  have hcu : u.cfg.canRead = true := by rw [hi.frame.cfg, hc]
  obtain ⟨v, t, hx, -, hd⟩ := execCmd_completes (c := baseRddata) (.inr hcu) (hi.frame.busOk hb)
  obtain ⟨rfl, -⟩ := execCmd_read rfl hcu hx
  exact ⟨u, t, hi, ha, hx, execCmd_wordRun (.inr hcu) hx, hd, execReadCode_ok hp hc hpos hx⟩

end Sys2Proof.Machine
end

section
/-! PROOFS. The flag mutators (45_flags.md R160 to R167): past its phase check each writes a legal word to its register and
issues that word. -/

namespace Sys2Proof.Machine

open Sys2Proof

variable {r : FlagReg} {f : Cmd → Cmd} {s t : State}

/-! ### A mutation of a flag register (R160) -/

theorem FlagReg.read_write (r : FlagReg) (w : Cmd) (s : State) : r.read (r.write w s) = w := by cases r <;> rfl

/-- The legal words of a flag register (10_state.md R12, R13). -/
def FlagReg.Legal : FlagReg → Cmd → Prop
  | .em, w => w &&& 0x3FC = 0x004
  | .dc, w => w &&& 0x3F8 = 0x008

theorem FlagReg.Legal.rw {w : Cmd} (h : r.Legal w) : w.rw = false := by
  cases r with
  | em => exact (em_facts h).1
  | dc => exact (dc_facts h).1

/-- Neither ENTRY nor DISPCTL names an address space (42_execute.md R133). -/
theorem FlagReg.Legal.spaceAfter {w : Cmd} (h : r.Legal w) (a : AcSpace) : spaceAfter (decodeCmd w) a = a := by
  cases r with
  | em => rw [(em_facts h).2]; rfl
  | dc => rw [(dc_facts h).2]; rfl

/-- In `Ready` the register is written first, and the whole new word is issued from there (decision D44). -/
theorem mutate_ready (hp : s.phase = .ready) :
    mutate r f s = (issue (f (r.read s)) >>= fun _ => pure .nothing) (r.write (f (r.read s)) s) := by
  rw [mutate, bind_ok (phaseCheckReady_ready hp), bind_update, bind_get, r.read_write]

/-- Where no primitive fails, a mutation to a legal word completes. -/
theorem mutate_completes (hp : s.phase = .ready) (hw : r.Legal (f (r.read s))) (hb : s.busOk = true) :
    ∃ u, Issued [f (r.read s)] (r.write (f (r.read s)) s) u ∧ u.acSpace = s.acSpace ∧
      finish (mutate r f) s = .next (returnValue .nothing u) := by
  have hwrite : (r.write (f (r.read s)) s).busOk = s.busOk ∧ (r.write (f (r.read s)) s).acSpace = s.acSpace := by
    cases r <;> exact ⟨rfl, rfl⟩
  obtain ⟨u, hi, hx, ha⟩ := issue_completes hw.rw (hwrite.1.trans hb)
  refine ⟨u, hi, ha.trans ((hw.spaceAfter _).trans hwrite.2), finish_ok ?_⟩
  rw [mutate_ready hp, bind_ok hx, pure_run]

/-- A mutation to a legal word returns nothing or raises a platform failure (60_exceptions.md R174). -/
theorem mutate_reply (hp : s.phase = .ready) (hw : r.Legal (f (r.read s))) (h : finish (mutate r f) s = .next t) :
    t.reply = .returned .nothing ∨ ∃ p, t.reply = .error (.e3 (.platformError p)) := by
  rcases finish_next h with ⟨v, u, hx, rfl⟩ | ⟨e, u, hx, rfl⟩
  · rw [mutate_ready hp] at hx
    obtain ⟨_, m, -, hv⟩ := bind_eq_ok.mp hx
    obtain ⟨rfl, -⟩ : Value.nothing = v ∧ m = u := by simpa using hv
    exact .inl rfl
  · cases mutate_nextRan h hw.rw with
    | returned v' u' _ _ ht => exact absurd (congrArg State.reply ht) (by simp)
    | failed p u' _ ht => exact .inr ⟨p, congrArg State.reply ht⟩

/-- `DC` holds the new word however the issue of it ends (decision D44). -/
theorem mutate_dc_next (hp : s.phase = .ready) (hw : f s.dc &&& 0x3F8 = 0x008)
    (h : finish (mutate .dc f) s = .next t) :
    t.dc = f s.dc ∧ t.em = s.em ∧ t.fs = s.fs ∧
      (t.reply = .returned .nothing ∨ ∃ p, t.reply = .error (.e3 (.platformError p))) :=
  have hf := (mutate_nextRan (r := .dc) h (FlagReg.Legal.rw (r := .dc) hw)).next.ends.frame
  ⟨hf.dc, hf.em, hf.fs, mutate_reply (r := .dc) hp hw h⟩

/-- `EM` holds the new word however the issue of it ends (decision D44). -/
theorem mutate_em_next (hp : s.phase = .ready) (hw : f s.em &&& 0x3FC = 0x004)
    (h : finish (mutate .em f) s = .next t) :
    t.em = f s.em ∧ t.dc = s.dc ∧ t.fs = s.fs ∧
      (t.reply = .returned .nothing ∨ ∃ p, t.reply = .error (.e3 (.platformError p))) :=
  have hf := (mutate_nextRan (r := .em) h (FlagReg.Legal.rw (r := .em) hw)).next.ends.frame
  ⟨hf.em, hf.dc, hf.fs, mutate_reply (r := .em) hp hw h⟩

/-! ### The mutators of DC and EM (R161 to R166) -/

/-- Settles O41: both functions keep `DC` legal, so both operations are mutations to a legal word. -/
theorem displayMutators : Obligations.DisplayMutators := by
  intro s hp hdc
  obtain ⟨hOn, hOff⟩ := dc_mutators hdc
  exact ⟨fun hb => ⟨mutate_completes (r := .dc) hp hOn hb, mutate_completes (r := .dc) hp hOff hb⟩,
    fun _ h => mutate_dc_next hp hOn h, fun _ h => mutate_dc_next hp hOff h⟩

/-- Settles O42: both functions keep `EM` legal, so both operations are mutations to a legal word. -/
theorem autoscrollMutators : Obligations.AutoscrollMutators := by
  intro s hp hem
  obtain ⟨hOn, hOff, -, -⟩ := em_mutators hem
  exact ⟨fun hb => ⟨mutate_completes (r := .em) hp hOn hb, mutate_completes (r := .em) hp hOff hb⟩,
    fun _ h => mutate_em_next hp hOn h, fun _ h => mutate_em_next hp hOff h⟩

/-- Settles O43: both functions keep `EM` legal, so both operations are mutations to a legal word. -/
theorem directionMutators : Obligations.DirectionMutators := by
  intro s hp hem
  obtain ⟨-, -, hLeft, hRight⟩ := em_mutators hem
  exact ⟨fun hb => ⟨mutate_completes (r := .em) hp hLeft hb, mutate_completes (r := .em) hp hRight hb⟩,
    fun _ h => mutate_em_next hp hLeft h, fun _ h => mutate_em_next hp hRight h⟩

/-! ### set_cursor_type (R167) -/

theorem flagCursorType_eq (c : CursorType) (w : Cmd) :
    flagCursorType c w = w &&& ~~~0x003 ||| (argIf (cursorC c) argDispC ||| argIf (cursorB c) argDispB) :=
  BitVec.or_assoc _ _ _

/-- The bits C and B of a cursor type are those of the table of R167. -/
theorem cursorBits_table :
    ∀ p ∈ [(CursorType.none, (0b00 : Cmd)), (.underscore, 0b10), (.blinkingBlock, 0b01), (.both, 0b11)],
      argIf (cursorC p.1) argDispC ||| argIf (cursorB p.1) argDispB = p.2 := by decide

theorem setCursorType_completes (c : CursorType) (hp : s.phase = .ready) (hdc : s.dc &&& 0x3F8 = 0x008)
    (hb : s.busOk = true) :
    ∃ u, Issued [flagCursorType c s.dc] { s with dc := flagCursorType c s.dc } u ∧ u.acSpace = s.acSpace ∧
      exec (.setCursorType (.known c)) s = .next (returnValue .nothing u) := by
  obtain ⟨u, hi, ha, hx⟩ := mutate_completes (r := .dc) hp (dc_cursorType c hdc) hb
  exact ⟨u, hi, ha, (setCursorType_known c s).trans hx⟩

/-- A value that is no cursor type is stopped by the value check (decision D28). -/
theorem setCursorType_invalid (tag : Nat) (hp : s.phase = .ready) :
    exec (.setCursorType (.other tag)) s = .next (raiseError (.e1 (.invalidCursorType tag)) s) :=
  finish_error ((bind_ok (phaseCheckReady_ready hp)).trans (bind_error (require_false rfl _ s)))

/-- Settles O44: a type of the table is a mutation of `DC` to D and the table's bits, any other value is stopped. -/
theorem cursorTypeMutator : Obligations.CursorTypeMutator := by
  refine fun s hp hdc => ⟨fun hb p hmem => ?_, fun tag => setCursorType_invalid tag hp⟩
  rw [← cursorBits_table p hmem, ← flagCursorType_eq]
  exact setCursorType_completes p.1 hp hdc hb

end Sys2Proof.Machine
end

section
/-! PROOFS. `set_backlight_on` and `set_backlight_off` (45_flags.md R168, R169): the transport's backlight change, past the
capability check. -/

namespace Sys2Proof.Machine

open Sys2Proof

variable {s : State}

theorem backlightOp_completes (en : Bool) (hp : s.phase = .ready) (hc : s.cfg.canBl = true) (hb : s.busOk = true) :
    ∃ t, finish (backlightOp en) s = .next t ∧ t.bl = en ∧ t.trace = s.trace ++ backlightEvents s en ∧
      t = { s with bl := en, reply := .returned .nothing, lvl := t.lvl, log := t.log, env := t.env } ∧
      t.env = { s.env with faults := t.env.faults } := by
  obtain ⟨t, hx, htrace, -, ht, henv⟩ := lightRun_completes en hb
  exact ⟨t, (backlightOp_eq (phaseCheckReady_ready hp) hc).trans hx, congrArg State.bl ht, htrace, ht, henv⟩

/-- Settles O45: without the capability both are E2, with it both are the run of a backlight change. -/
theorem backlightOperations : Obligations.BacklightOperations :=
  fun _ hp => ⟨fun hc => ⟨backlightOp_unsupported (phaseCheckReady_ready hp) hc,
      backlightOp_unsupported (phaseCheckReady_ready hp) hc⟩,
    fun hc hb => ⟨backlightOp_completes true hp hc hb, backlightOp_completes false hp hc hb⟩⟩

end Sys2Proof.Machine
end

section
/-! PROOFS. The faults of the phase (60_exceptions.md R178, R180), and what an instruction that ends in E1 or E2 changes (R171, R172,
R176). -/

namespace Sys2Proof.Machine

open Sys2Proof

variable {i : Instr} {s t : State}

/-! ### The phase checks -/

/-- Every public operation that may not be called before `init` is `phase_check_ready` and then the rest (R180). -/
theorem exec_eq_phaseCheckReady (hi : isPublic i = true) (ha : allowedBeforeInit i = false) :
    ∃ m : Drv Value, ∀ s, exec i s = finish (phaseCheckReady >>= fun _ => m) s := by
  cases i with
  | setCursorPosition _ _ | getCursorPosition | moveCursorLeft | moveCursorRight | scrollDisplayLeft | scrollDisplayRight
  | createCharacter _ _ | writeText _ _ _ | writeCode _ _ _ | writeCodes _ _ _ | readCode _ _ | setDisplayOn | setDisplayOff
  | setAutoscrollOn | setAutoscrollOff | setLeftToRight | setRightToLeft | setCursorType _ | setBacklightOn
  | setBacklightOff | executeCommand _ => exact ⟨_, fun _ => rfl⟩
  | init | mapCharacter _ _ | unmapCharacter _ | isCommandSupported _ => simp [allowedBeforeInit] at ha
  | clear | home _ | entry _ _ | dispctl _ _ _ | shift _ _ _ | funcset _ _ _ _ | setcg _ | setdd _ | rdbf _ | wrdata _
  | rddata _ | noneWord | busWriteP8 _ | busWriteP4 _ | busWriteI2C _ | busReadP8 _ | busReadP4 _ | busReadI2C _
  | busSetBacklightPar _ | busSetBacklightI2C _ | busInitP8 | busInitP4 | busInitI2C => simp [isPublic] at hi

/-- The operations that may be called before `init` look for `Failed` all the same, but for `is_command_supported` (R180,
decision D24). -/
theorem exec_useAfterFailure_of_allowedBeforeInit (ha : allowedBeforeInit i = true) (hn : ∀ c, i ≠ .isCommandSupported c)
    (hp : s.phase = .failed) : exec i s = .fault .useAfterFailure := by
  unfold allowedBeforeInit at ha
  split at ha
  · exact execInit_failed hp
  · exact finish_fault (bind_error (phaseCheckLive_failed hp))
  · exact finish_fault (bind_error (phaseCheckLive_failed hp))
  · exact absurd rfl (hn _)
  · simp at ha

/-- Settles O10, by which of the two phase checks the operation starts with. -/
theorem phaseFaults : Obligations.PhaseFaults := by
  refine fun i s hi => ⟨fun hp hn => ?_, fun hp ha => ?_⟩
  · cases ha : allowedBeforeInit i with
    | true => exact exec_useAfterFailure_of_allowedBeforeInit ha hn hp
    | false =>
      obtain ⟨m, hm⟩ := exec_eq_phaseCheckReady hi ha
      exact (hm s).trans (finish_fault (bind_error (phaseCheckReady_failed hp)))
  · obtain ⟨m, hm⟩ := exec_eq_phaseCheckReady hi ha
    exact (hm s).trans (finish_fault (bind_error (phaseCheckReady_constructed hp)))

/-! ### The three ways to a next state -/

/-- How an instruction gives a next state: it completes, it raises E3, or a check rejects it in the state it started from
(R171 to R173, R176). -/
inductive Answer (s t : State) : Prop where
  | returned (v : Value) (hr : t.reply = .returned v)
  | failed (info : E3Info) (hr : t.reply = .error (.e3 info))
  | rejected (e : Error) (ht : t = raiseError e s)

theorem NextRan.answer {m : State} (h : NextRan m t) : Answer s t := by
  cases h with
  | returned v u _ _ ht => exact .returned v (congrArg State.reply ht)
  | failed p u _ ht => exact .failed _ (congrArg State.reply ht)

theorem Next.answer (h : Next s t) : Answer s t := by
  cases h with
  | rejected e _ ht => exact .rejected e ht
  | returned v u f c ht => exact (NextRan.returned v u f c ht).answer
  | failed p u f ht => exact (NextRan.failed p u f ht).answer

/-- A mutator has written its register when its word runs, but a legal word is not rejected. -/
theorem Effect.answer (h : Effect i s t) (hs : Inv s) : Answer s t := by
  cases h with
  | plain h _ _ => exact h.answer
  | em hf _ hr => exact (hr (em_facts (emFunction_legal hf hs.em)).1).answer
  | dc hf _ hr => exact (hr (dc_facts (dcFunction_legal hf hs.dc)).1).answer
  | bl _ _ h => exact h.answer
  | map _ h =>
    rcases h with ht | ht
    · exact .returned _ (congrArg State.reply ht)
    · exact .rejected (.e1 _) ht
  | unmap _ h =>
    rcases h with ht | ht | ht
    · exact .returned _ (congrArg State.reply ht)
    · exact .returned _ (congrArg State.reply ht)
    · exact .rejected (.e1 _) ht

theorem init_answer (hx : execInit s = .next t) : Answer s t := by
  obtain ⟨-, -, ⟨hr, -⟩ | ⟨info, hr, -⟩⟩ := init_next hx
  · exact .returned _ hr
  · exact .failed info hr

theorem busInitI2C_answer (hx : execBusInitI2C s = .next t) : Answer s t := by
  obtain ⟨-, ⟨info, u, -, -, ht⟩ | ⟨a, h⟩ | ⟨info, u, -, ht⟩⟩ := busInitI2C_next hx
  · exact .failed info (congrArg State.reply ht)
  · exact h.answer
  · exact .failed info (congrArg State.reply ht)

theorem exec_answer (hs : Inv s) (hx : exec i s = .next t) : Answer s t := by
  by_cases hi : i = .init
  · subst hi
    exact init_answer hx
  by_cases hb : i = .busInitI2C
  · subst hb
    exact busInitI2C_answer hx
  exact (exec_effect hi hb hx).answer hs

theorem Answer.eq_raiseError {e : Error} (h : Answer s t) (hr : t.reply = .error e) (he : ∀ info, e ≠ .e3 info) :
    t = raiseError e s := by
  cases h with
  | returned v hv => exact absurd (hv.symm.trans hr) (by simp)
  | failed info hf => exact absurd (Reply.error.inj (hr.symm.trans hf)) (he info)
  | rejected e' ht =>
    obtain rfl : e' = e := Reply.error.inj ((congrArg State.reply ht).symm.trans hr)
    exact ht

/-- Settles O11: only a check raises E1 or E2, and it rejects the instruction in the state it started from. -/
theorem validationErrorsChangeNothing : Obligations.ValidationErrorsChangeNothing := by
  intro i s t hs hx
  have h := exec_answer hs hx
  exact ⟨fun info hr => h.eq_raiseError hr (by simp), fun info hr => h.eq_raiseError hr (by simp)⟩

end Sys2Proof.Machine
end

section
/-! PROOFS. What an instruction appends to the trace: a platform failure comes last (60_exceptions.md R174), and a warning only on a
bus that can read (R175). -/

namespace Sys2Proof.Machine

open Sys2Proof

variable {i : Instr} {s t : State} {cfg : Config} {ad : Option Addr7} {bl : Bool}

/-- A warning stands only where the bus can read (42_execute.md R135, R136). -/
def Event.WarnOk (cfg : Config) (e : Event) : Prop := e.isWarn = true → cfg.canRead = true

theorem Event.warnOk_of_not_isWarn {e : Event} (h : e.isWarn = false) : e.WarnOk cfg :=
  fun hw => absurd (h.symm.trans hw) (by simp)

theorem warnOk_writeEvents : WriteEventsOk (Event.WarnOk cfg) cfg ad bl where
  fail _ := Event.warnOk_of_not_isWarn rfl
  drive _ _ _ := Event.warnOk_of_not_isWarn rfl
  sleepUs _ := Event.warnOk_of_not_isWarn rfl
  sleepMs _ := Event.warnOk_of_not_isWarn rfl
  byte _ _ _ _ _ _ := Event.warnOk_of_not_isWarn rfl

theorem warnOk_readEvents (hc : cfg.canRead = true) : ReadEventsOk (Event.WarnOk cfg) cfg ad bl where
  toWriteEventsOk := warnOk_writeEvents
  setDir _ _ _ := hc
  sample _ _ _ := hc
  i2cRead _ _ _ _ := hc
  ticks _ _ := hc
  warn _ _ := hc

/-- What any instruction appends, `init` and `bus.init` of I2C-Mux4 among them. -/
theorem exec_appended_warnOk (hx : exec i s = .next t) : Appended (Event.WarnOk s.cfg) s t := by
  have scan : ∀ l, Event.WarnOk s.cfg (.i2cScan l) := fun _ => Event.warnOk_of_not_isWarn rfl
  have line : ∀ b, Event.WarnOk s.cfg (.drive .bl b) := fun _ => Event.warnOk_of_not_isWarn rfl
  have byte : ∀ a b, Event.WarnOk s.cfg (.i2cWrite a b) := fun _ _ => Event.warnOk_of_not_isWarn rfl
  by_cases hi : i = .init
  · subst hi
    exact init_appended hx (scan _) warnOk_writeEvents warnOk_readEvents line fun _ _ _ => byte _ _
  by_cases hb : i = .busInitI2C
  · subst hb
    exact busInitI2C_appended hx (scan _) warnOk_writeEvents
  exact exec_appended hi hb hx warnOk_writeEvents warnOk_readEvents line fun _ _ => byte _ _

/-- Settles O12: an appended platform failure is the newest event of the log. -/
theorem platformFailureIsRecorded : Obligations.PlatformFailureIsRecorded := by
  intro i s t p hx hr
  obtain ⟨hc, evs, hlog⟩ := (exec_appended_warnOk hx).fail p hr
  exact ⟨hc, evs.reverse, by simp [State.trace, hlog]⟩

/-- Settles O18: an appended warning would need a readable bus. -/
theorem warningsNeedReadableBus : Obligations.WarningsNeedReadableBus := by
  intro i s t hx hc
  obtain ⟨evs, htrace, hwarn⟩ := (exec_appended_warnOk hx).trace
  refine ⟨evs, htrace, fun e he => Bool.eq_false_iff.mpr fun hw => ?_⟩
  exact absurd (hwarn e he hw) (by simp [hc])

end Sys2Proof.Machine
end

section
/-! PROOFS. Construction (70_reset_and_hazards.md R190): its four checks in plain terms, and the state it gives. -/

namespace Sys2Proof.Machine

open Sys2Proof

variable {cfg : Config}

/-! ### The four checks -/

theorem allDistinct_iff {l : List Nat} : allDistinct l = true ↔ l.Nodup := by
  induction l with
  | nil => simp [allDistinct]
  | cons n ns ih => simp [allDistinct, ih]

theorem addrCfgInRange_iff : addrCfgInRange cfg = true ↔ ∀ a, cfg.i2cAddrCfg = some a → a ≤ 127 := by
  unfold addrCfgInRange
  cases cfg.i2cAddrCfg <;> simp

/-- A list of `n` numbers is a permutation of those below `n` exactly when none reaches `n` and none stands twice. -/
theorem perm_range_iff {l : List Nat} {n : Nat} (hl : l.length = n) :
    l.Perm (List.range n) ↔ (∀ x ∈ l, x < n) ∧ l.Nodup := by
  constructor
  · exact fun h => ⟨fun x hx => List.mem_range.mp (h.mem_iff.mp hx), h.nodup_iff.mpr List.nodup_range⟩
  · rintro ⟨hlt, hnodup⟩
    have hsub : l.Subperm (List.range n) := hnodup.subperm fun x hx => List.mem_range.mpr (hlt x hx)
    exact hsub.perm_of_length_le (by simp [hl])

theorem mapIsBijection_iff {m : I2CMap} : mapIsBijection m = true ↔ (mapBits m).Perm (List.range 8) := by
  rw [perm_range_iff (n := 8) (l := mapBits m) rfl, mapIsBijection, Bool.and_eq_true, allDistinct_iff, List.all_eq_true]
  simp only [decide_eq_true_eq]

/-- No check of R190 fails exactly when the configuration passes all four. -/
theorem badConfig_eq_none_iff : badConfig cfg = none ↔
    addrCfgInRange cfg = true ∧ mapIsBijection cfg.i2cMap = true ∧ 40 ≤ cfg.tPowerMs ∧
      allDistinct (cfg.pins.map (·.2)) = true := by
  simp [badConfig, ite_eq_iff]

theorem construct_passed (h : badConfig cfg = none) : construct cfg = .ok (State.constructed cfg) := by
  rw [construct, h]

theorem construct_rejected {reason : BadReason} (h : badConfig cfg = some reason) :
    construct cfg = .error (.e1 (.badConfig reason)) := by
  rw [construct, h]

theorem construct_eq_ok_iff : construct cfg = .ok (State.constructed cfg) ↔ badConfig cfg = none := by
  refine ⟨fun h => ?_, construct_passed⟩
  cases hb : badConfig cfg with
  | none => rfl
  | some reason => simp [construct_rejected hb] at h

/-- Settles O2: construction gives the driver exactly when no check fails, and otherwise names one that does. -/
theorem constructionChecks : Obligations.ConstructionChecks := by
  intro cfg
  constructor
  · rw [construct_eq_ok_iff, badConfig_eq_none_iff, addrCfgInRange_iff, mapIsBijection_iff, allDistinct_iff]
    rfl
  · cases hb : badConfig cfg with
    | none => exact .inl (construct_passed hb)
    | some reason => exact .inr ⟨reason, construct_rejected hb⟩

/-! ### The constructed driver -/

/-- The default of FS, bit by bit (10_state.md R14): DL on an 8-bit bus only, N, and F by `FONT_F`. -/
theorem fsDefault_eq (cfg : Config) : fsDefault cfg =
    0x020 ||| (if cfg.variant = .parallel8 then 0x010 else 0) ||| 0x008 ||| (if cfg.fontF then 0x004 else 0) := by
  unfold fsDefault Config.width
  cases cfg.variant <;> cases cfg.fontF <;> rfl

/-- Settles O1: the lines, level by level; FS by its default, every other field as it is written. -/
theorem constructionResetValues : Obligations.ConstructionResetValues := by
  have undriven : ∀ i : Fin 8, (Vector.replicate 8 (Latch.unknown (α := Bool)))[i] = .unknown := by decide
  have outputs : ∀ i : Fin 8, (Vector.replicate 8 Dir.out)[i] = .out := by decide
  exact fun cfg => ⟨rfl, rfl, rfl, rfl, fsDefault_eq cfg, rfl, rfl, rfl, outputs, rfl, rfl, rfl, rfl, undriven, undriven,
    rfl, rfl, rfl⟩

theorem constructed_inv (cfg : Config) : Inv (State.constructed cfg) where
  em := emDefault_legal
  dc := dcDefault_legal
  fs := rfl
  cmap := rfl
  phase := by simp [State.constructed]
  noAddr _ := rfl
  addr h := by simp [State.constructed] at h
  bl _ := rfl
  dir _ i := by simp [State.constructed]
  e _ := by simp [State.constructed, Levels.unknown]

/-- Settles O3: `State.reset` is the constructed driver of one configuration. -/
theorem constructionMeetsInv : Obligations.ConstructionMeetsInv :=
  ⟨constructed_inv, constructed_inv Config.atReset⟩

end Sys2Proof.Machine
end

section
/-! PROOFS. The CGRAM pointer hazard (70_reset_and_hazards.md R204): after `create_character` the cursor operations fault until the
cursor is positioned. The phase is one that passes the phase check, so `Initializing` is not left out. -/

namespace Sys2Proof.Machine

open Sys2Proof

variable {s t : State} {code col line : Nat} {rows : List Nat}

/-- The phase check looks at the phase alone. -/
theorem phaseCheckReady_of_phase_eq (h : phaseCheckReady s = .ok () s) (hp : t.phase = s.phase) :
    phaseCheckReady t = .ok () t := by
  obtain ⟨-, hf, hc⟩ := phaseCheckReady_ok h
  unfold phaseCheckReady
  split
  · exact absurd (hp.symm.trans ‹_›) hf
  · exact absurd (hp.symm.trans ‹_›) hc
  · rfl
  · rfl

/-- A check that passes leaves the state as it was. -/
theorem Check.state_eq {α : Type} {m : Drv α} {x : α} (hm : Check m) (h : m s = .ok x t) : t = s := by
  obtain ⟨_, hs⟩ | ⟨_, hs, -⟩ := hm s
  · exact (EStateM.Result.ok.inj (h.symm.trans hs)).2
  · simp [h] at hs

/-- A `create_character` that returned was past its phase check, and leaves the address counter in CGRAM (R204). -/
theorem execCreateCharacter_returned {v : Value} (h : execCreateCharacter code rows s = .next t)
    (hr : t.reply = .returned v) : phaseCheckReady t = .ok () t ∧ t.acSpace = .cgram := by
  obtain ⟨w, u, hu, rfl⟩ | ⟨e, u, -, rfl⟩ := finish_next h
  · obtain ⟨_, x, hp, hchecked⟩ := bind_eq_ok.mp hu
    obtain ⟨rfl, -⟩ := phaseCheckReady_ok hp
    obtain ⟨_, y, hg, hissued⟩ := bind_eq_ok.mp hchecked
    obtain ⟨hcode, -, hrows⟩ := glyphChecks_pass hg
    obtain rfl := (glyphChecks_check code rows).state_eq hg
    obtain ⟨_, z, hz, hreturn⟩ := bind_eq_ok.mp hissued
    obtain ⟨-, rfl⟩ : _ ∧ z = u := by simpa using hreturn
    have hd := issueAll_done (glyphWords_writes hcode hrows) hz
    exact ⟨phaseCheckReady_of_phase_eq hp hd.phase,
      hd.acSpace.trans (acSpaceAfterAll_glyphWords (Nat.le_of_lt_succ hcode) hrows _)⟩
  · simp at hr

/-- In CGRAM a cursor move faults F4, in every phase that passes the phase check. -/
theorem moveCursor_faults (right : Bool) (hp : phaseCheckReady s = .ok () s) (ha : s.acSpace = .cgram) :
    finish (moveCursor right) s = .fault .cgramPointerHazard :=
  finish_fault ((bind_ok hp).trans (bind_error (cgramCheck_cgram ha)))

/-- In CGRAM a read of the cursor position faults F4. -/
theorem execGetCursorPosition_faults (hp : phaseCheckReady s = .ok () s) (hc : s.cfg.canRead = true)
    (ha : s.acSpace = .cgram) : execGetCursorPosition s = .fault .cgramPointerHazard := by
  refine finish_fault (t := s) ?_
  rw [bind_ok hp, bind_getCfg, bind_ok (require_true hc _ s)]
  exact bind_error (cgramCheck_cgram ha)

/-- Positioning the cursor ends the hazard, wherever the address counter was: the next move completes. -/
theorem setCursorPosition_then_move (right : Bool) (hp : phaseCheckReady s = .ok () s) (hb : s.busOk = true)
    (hcol : col ≤ 39) (hline : line ≤ 1) :
    ∃ u v, execSetCursorPosition col line s = .next u ∧ finish (moveCursor right) u = .next v := by
  obtain ⟨u, hu, hpos, ha⟩ := position_completes hcol hline hb
  have hpu : phaseCheckReady (returnValue .nothing u) = .ok () (returnValue .nothing u) :=
    phaseCheckReady_of_phase_eq hp hu.frame.phase
  have hbu : (returnValue .nothing u).busOk = true := hu.frame.busOk hb
  have hau : (returnValue .nothing u).acSpace ≠ .cgram := by simp [ha]
  obtain ⟨v, -, hv, -⟩ := issue_shift_completes false right hbu
  refine ⟨_, _, finish_ok ((bind_ok hp).trans (bind_ok hpos)), finish_ok (v := .nothing) (t := v) ?_⟩
  rw [moveCursor, bind_ok hpu, bind_ok (cgramCheck_pass hau), bind_ok hv, pure_run]

/-- Settles O33: the glyph's words leave the address counter in CGRAM, and the address word brings it back to DDRAM. -/
theorem cgramPointerHazard : Obligations.CgramPointerHazard := by
  intro code rows s t h hr
  obtain ⟨hp, ha⟩ := execCreateCharacter_returned h hr
  exact ⟨moveCursor_faults false hp ha, moveCursor_faults true hp ha, fun hc => execGetCursorPosition_faults hp hc ha,
    fun hb col line hcol hline => setCursorPosition_then_move false hp hb hcol hline⟩

end Sys2Proof.Machine
end

section
/-! PROOFS. `init` where no primitive fails and there is a device to talk to (70_reset_and_hazards.md R190 to R203): `bus.init`,
the 77 words, the backlight; the state it ends in, and its whole trace on a write-only bus. -/

namespace Sys2Proof.Machine

open Sys2Proof

variable {s p q u : State} {a : Option Addr7} {cfg : Config}

/-! ### bus.init -/

theorem busInit_par (hv : s.cfg.variant ≠ .i2cMux4) : busInit s = parInit s := by
  rw [busInit, bind_getCfg]
  cases h : s.cfg.variant with
  | parallel8 | parallel4 => rfl
  | i2cMux4 => exact absurd h hv

theorem busInit_i2c (hv : s.cfg.variant = .i2cMux4) : busInit s = (i2cSelect >>= fun _ => i2cPowerOn) s := by
  rw [busInit, bind_getCfg, hv]
  rfl

/-- The address after `bus.init` from `s`: on I2C-Mux4 the one the scan selects, on a parallel transport as before (R119). -/
structure AddressAfterScan (s : State) (a : Option Addr7) : Prop where
  parallel : s.cfg.variant ≠ .i2cMux4 → a = s.i2cAddr
  i2c : s.cfg.variant = .i2cMux4 → ∃ b, a = some b ∧ selects s.cfg s.nextScan b

/-- The event of the scan, which only I2C-Mux4 makes (R121). -/
def scanEvents (s : State) : List Event := if s.cfg.variant = .i2cMux4 then [.i2cScan s.nextScan] else []

/-- On any transport `bus.init` completes: the scan and its address, then the power-on sequence. -/
theorem busInit_completes (hq : s.quiet = true) (ha : AddressAfterScan s a) :
    ∃ p, busInit s = .ok () p ∧ BusDone { s with i2cAddr := a } p ∧ p.busOk = true ∧
      p.trace = s.trace ++ scanEvents s ++ powerOnEvents { s with i2cAddr := a } := by
  by_cases hv : s.cfg.variant = .i2cMux4
  · obtain ⟨b, rfl, hsel⟩ := ha.i2c hv
    obtain ⟨x, hx, hd, htrace⟩ := i2cSelect_completes hq hsel
    have hxv : x.cfg.variant = .i2cMux4 := (congrArg Config.variant hd.cfg).trans hv
    obtain ⟨p, hp, hd', htrace'⟩ := i2cPowerOn_completes (hd.quiet hq) hxv hd.i2cAddr
    refine ⟨p, ?_, hd.trans hd', hd'.busOk (busOk_of_addr (hd.quiet hq) hd.i2cAddr), ?_⟩
    · rw [busInit_i2c hv, bind_ok hx, hp]
    · rw [htrace', htrace, powerOnEvents_congr hd.cfg hd.i2cAddr hd.bl, scanEvents, if_pos hv]
  · obtain rfl := ha.parallel hv
    obtain ⟨p, hp, hd, htrace⟩ := parInit_completes hq hv
    refine ⟨p, (busInit_par hv).trans hp, hd, hd.busOk (busOk_of_parallel hq hv), ?_⟩
    rw [htrace, scanEvents, if_neg hv, List.append_nil]

/-! ### The words -/

theorem zeroGlyphs_eq : zeroGlyphs 0 cgSlots =
    (List.range 8).flatMap fun k => (0x040 ||| BitVec.ofNat 10 (8 * k)) :: List.replicate 8 0x200 := by decide

/-- With the defaults in the flag registers the words are those of R194 to R199. -/
theorem initWords_eq (hem : s.em = emDefault) (hdc : s.dc = dcDefault) (hfs : s.fs = fsDefault s.cfg) :
    initWords s = initWordList s.cfg := by
  rw [initWords, hem, hdc, hfs, fsDefault_eq, zeroGlyphs_eq]
  rfl

/-- HOME comes last, so the address counter ends in DDRAM (R199, 42_execute.md R133). -/
theorem acSpaceAfterAll_initWordList (cfg : Config) (x : AcSpace) : acSpaceAfterAll (initWordList cfg) x = .ddram := by
  rw [initWordList, acSpaceAfterAll_append]
  rfl

/-- A write cycle of a parallel transport ends with E low (41_transport.md R102). -/
theorem writeLevels_e (hv : cfg.variant ≠ .i2cMux4) (bl : Bool) (c : Cmd) (v : Levels) :
    (writeLevels cfg bl c v).e = .driven false := by
  unfold writeLevels
  cases h : cfg.variant with
  | parallel8 | parallel4 => rfl
  | i2cMux4 => exact absurd h hv

theorem WordRun.e_low {c : Cmd} (hw : c.rw = false) (hv : s.cfg.variant ≠ .i2cMux4) (h : WordRun c s u) :
    u.lvl.e = .driven false := by
  obtain ⟨m, hm, hc⟩ := h
  obtain ⟨hx, -⟩ := hm.write hw
  rw [busWrite_eq hw] at hx
  obtain ⟨fs, -, rfl⟩ := writeBody_emits hx
  exact (complete_done c _ _ _ rfl hc).eLow.elim (·.trans (writeLevels_e hv _ _ _)) id

/-- The first of the words leaves E low, and the others keep it so. -/
theorem issueAll_e_low {ws : List Cmd} (hne : ws ≠ []) (hw : AllWrites ws) (hv : s.cfg.variant ≠ .i2cMux4)
    (h : issueAll ws s = .ok () u) : u.lvl.e = .driven false := by
  obtain ⟨c, cs, rfl⟩ := List.exists_cons_of_ne_nil hne
  obtain ⟨hc, hcs⟩ := List.forall_mem_cons.mp hw
  obtain ⟨_, x, hissue, hrest⟩ := bind_eq_ok.mp h
  obtain ⟨v, hx⟩ := issue_ok.mp hissue
  have hlow : x.lvl.e = .driven false := (execCmd_wordRun_write hc hx).e_low hc hv
  exact (issueAll_done hcs hrest).eLow.elim (·.trans hlow) id

/-! ### The backlight -/

/-- The event with which `init` turns the backlight on, where it can be controlled (R200). -/
def initLightEvents (s : State) : List Event := if s.cfg.canBl then backlightEvents s true else []

/-- The levels after it. -/
def initLightLevels (cfg : Config) (v : Levels) : Levels := if cfg.canBl then backlightLevels cfg true v else v

/-- The last bus activity of `init` (R200): the backlight on, where it can be controlled. -/
theorem initBacklight_completes (hb : s.busOk = true) :
    ∃ u, onlyIf s.cfg.canBl (busSetBacklight true) s = .ok () u ∧
      Emits (initLightEvents s) (initLightLevels s.cfg) { s with bl := s.cfg.canBl || s.bl } u := by
  unfold initLightEvents initLightLevels
  cases hc : s.cfg.canBl with
  | true =>
    obtain ⟨u, hu, he⟩ := blBody_completes (s := { s with bl := true }) true hb
    exact ⟨u, (busSetBacklight_eq hc true).trans hu, he⟩
  | false => exact ⟨s, rfl, s.env.faults, List.suffix_refl _, rfl⟩

theorem initLightEvents_congr {x y : State} (hc : x.cfg = y.cfg) (ha : x.i2cAddr = y.i2cAddr) :
    initLightEvents x = initLightEvents y := by
  unfold initLightEvents backlightEvents
  rw [hc, ha]

theorem initLightLevels_e (v : Levels) : (initLightLevels cfg v).e = v.e := by
  unfold initLightLevels backlightLevels
  split
  · cases cfg.variant <;> rfl
  · rfl

theorem initLightLevels_noBl (hc : cfg.canBl = false) (v : Levels) : initLightLevels cfg v = v := by
  rw [initLightLevels, hc, if_neg Bool.false_ne_true]

/-! ### The whole of init -/

/-- `init` from `s`, with the address `a` after the scan: `bus.init` ends in `p`, the words in `q`, the backlight in `u`. -/
structure InitRun (s : State) (a : Option Addr7) (p q u : State) : Prop where
  powerOn : BusDone { initStart s with i2cAddr := a } p
  powerOnTrace : p.trace = s.trace ++ scanEvents s ++ powerOnEvents { s with i2cAddr := a }
  writes : AllWrites (initWordList s.cfg)
  words : Issued (initWordList s.cfg) p q
  light : Emits (initLightEvents q) (initLightLevels q.cfg) { q with bl := q.cfg.canBl || q.bl } u
  next : exec .init s = .next (returnValue .nothing { u with phase := .ready })

theorem init_completes (hp : s.phase ≠ .failed) (hq : s.quiet = true) (ha : AddressAfterScan s a) :
    ∃ p q u, InitRun s a p q u := by
  obtain ⟨p, hbus, hd, hb, htrace⟩ := busInit_completes (s := initStart s) hq ⟨ha.parallel, ha.i2c⟩
  have hlist : initWords p = initWordList s.cfg := by
    rw [initWords_eq hd.em hd.dc (hd.fs.trans (congrArg fsDefault hd.cfg.symm)), hd.cfg]
    rfl
  have hw : AllWrites (initWordList s.cfg) := hlist ▸ initWords_writes (by rw [hd.em]; exact emDefault_rw)
    (by rw [hd.dc]; exact dcDefault_rw) (by rw [hd.fs]; exact (fsDefault_facts _).1)
  obtain ⟨q, hwords, hbq⟩ := issueAll_completes hw hb
  obtain ⟨u, hu, hlight⟩ := initBacklight_completes hbq
  have hbody : initBody (initStart s) = .ok () u := by
    rw [initBody, bind_ok hbus, bind_get, hlist, bind_ok hwords.run, ← hwords.frame.cfg, hu]
  exact ⟨p, q, u, hd, htrace, hw, hwords, hlight, (execInit_eq hp).trans (congrArg initOutcome hbody)⟩

/-- Up to the backlight `init` writes the defaults, the address and `ac_space`; the rest is bus activity. -/
theorem InitRun.frame (h : InitRun s a p q u) : BusDone { initStart s with i2cAddr := a, acSpace := .ddram } q := by
  have hwords := h.words.frame
  rw [acSpaceAfterAll_initWordList] at hwords
  exact (h.powerOn.setAcSpace .ddram).trans hwords

theorem InitRun.e_low (h : InitRun s a p q u) (hv : s.cfg.variant ≠ .i2cMux4) : q.lvl.e = .driven false :=
  issueAll_e_low (by simp [initWordList]) h.writes (by rw [h.powerOn.cfg]; exact hv) h.words.run

theorem InitRun.trace (h : InitRun s a p q u) : u.trace = q.trace ++ initLightEvents { s with i2cAddr := a } :=
  h.light.trace.trans (congrArg (q.trace ++ ·) (initLightEvents_congr h.frame.cfg h.frame.i2cAddr))

/-- Settles O46: up to the backlight the run's frame says what each field is, and the backlight changes its own level alone. -/
theorem initReachesReady : Obligations.InitReachesReady := by
  intro s a hp hq hpar hi2c
  obtain ⟨p, q, u, h⟩ := init_completes hp hq ⟨hpar, hi2c⟩
  have hd := h.frame
  have hx := h.next
  have htrace := h.trace
  have hprefix : s.trace <+: u.trace := (trace_prefix hd.log).trans (htrace ▸ List.prefix_append _ _)
  obtain ⟨fs, -, rfl⟩ := h.light
  refine ⟨_, hx, rfl, rfl, hd.em, hd.dc, hd.fs.trans (fsDefault_eq _), hd.cmap, ?bl, hd.i2cAddr, hd.acSpace, hd.dir,
    fun hv => (initLightLevels_e _).trans (h.e_low hv), fun hc => ?blLine, hd.cfg, hd.calls, hprefix, p, q,
    h.powerOnTrace, h.powerOn.cfg, h.words, htrace⟩
  case bl => exact congrArg₂ (fun c b => Config.canBl c || b) hd.cfg hd.bl
  case blLine =>
    have hqc : q.cfg.canBl = false := (congrArg Config.canBl hd.cfg).trans hc
    exact (congrArg Levels.bl (initLightLevels_noBl hqc _)).trans hd.blLine

/-! ### The trace on a write-only bus -/

/-- The events of a word are those of the configuration, the address and the flag. -/
theorem writeEvents_congr {x y : State} (hc : x.cfg = y.cfg) (ha : x.i2cAddr = y.i2cAddr) (hb : x.bl = y.bl) (c : Cmd) :
    writeEvents x c = writeEvents y c := by
  unfold writeEvents
  rw [hc, ha, hb]

/-- On a write-only bus each of the words is its transfer and its delay. -/
theorem InitRun.words_trace (h : InitRun s a p q u) (hc : s.cfg.canRead = false) :
    q.trace = p.trace ++ (initWordList s.cfg).flatMap fun c => writeEvents { s with i2cAddr := a } c ++
      [.sleepUs (if c = 0x001 ∨ c = 0x002 ∨ c = 0x003 then s.cfg.tLongUs else s.cfg.tShortUs)] := by
  have hd := h.powerOn
  have hpc : p.cfg = s.cfg := hd.cfg
  rw [issueAll_writeOnly_trace h.writes (hpc ▸ hc) h.words.run]
  congr 2
  funext c
  rw [writeEvents_congr (y := { s with i2cAddr := a }) hd.cfg hd.i2cAddr hd.bl, limitUs_eq, hpc]

/-- Settles O47: the traces of the run's three parts, one after the other. -/
theorem initTraceOnWriteOnlyBus : Obligations.InitTraceOnWriteOnlyBus := by
  intro s a hp hq hc hpar hi2c
  obtain ⟨p, q, u, h⟩ := init_completes hp hq ⟨hpar, hi2c⟩
  have htrace := h.trace
  rw [h.words_trace hc, h.powerOnTrace] at htrace
  exact ⟨_, h.next, htrace⟩

end Sys2Proof.Machine
end
